-- ==== Sys2Proof/Word.lean ====
section
/-! DEFINITION. The bit-vector types of the block's registers and the two line levels (00_scope.md R10, R15). -/

namespace Sys2Proof

/-- A byte is 8 bits (R10). -/
abbrev Byte := BitVec 8

/-- The width of every host register and of a command word (R26, R68). -/
abbrev Word := BitVec 32

/-- The width of a payload length (R31, R35, R39). -/
abbrev Half := BitVec 16

/-- A line level, and a pin output value: LOW = 0, HIGH = 1 (R15). -/
inductive Level where
  | low
  | high
  deriving DecidableEq, Repr, Inhabited

end Sys2Proof
end

