-- ==== Sys2Proof/Config.lean ====
section
/-! DEFINITION. The parameters of 00_scope.md R7 with their constraints, the constants of R6, and the free values: what the
specification leaves open. A free value is an opaque constant without a body, so no proof can see what it is. -/

namespace Sys2Proof

/-- The two speed profiles (R6, R15). -/
inductive Profile where
  | slow
  | fast
  deriving DecidableEq, Repr, Inhabited

/-- LEN_WIDTH, the length-prefix width in bytes, one of 1 and 2 (R7). -/
inductive LenWidth where
  | one
  | two
  deriving DecidableEq, Repr, Inhabited

/-- RX_LEN_HIGH_MASK, one of 0x07 and 0xFF (R7). -/
inductive LenMask where
  | low3
  | all8
  deriving DecidableEq, Repr, Inhabited

/-- The timing table of one speed profile, in ticks; `nRxto` counts polls (R7, 90_conflicts.md C11). -/
structure Timing where
  tLong : Nat
  tShort : Nat
  tAck : Nat
  tStart : Nat
  tIbd : Nat
  tIfd : Nat
  tIdle : Nat
  nRxto : Nat
  deriving DecidableEq, Repr, Inhabited

/-- The constraints R7 puts on one profile's table: every value at least 1, the long pulse longer than the short one. -/
def Timing.wf (t : Timing) : Bool :=
  decide (t.tShort < t.tLong) && decide (1 ≤ t.tShort) && decide (1 ≤ t.tAck) && decide (1 ≤ t.tStart)
    && decide (1 ≤ t.tIbd) && decide (1 ≤ t.tIfd) && decide (1 ≤ t.tIdle) && decide (1 ≤ t.nRxto)

/-- The configuration of one instance, fixed for its life, with R7's defaults (R7, R20). NBUS is `Config.nbus`. -/
structure Params where
  /-- INSTANCE_BASE(n), the host address of the instance's register block (R26, R58). -/
  base : Nat
  lenWidth : LenWidth
  maxFrame : Nat := 752
  ticksPerUs : Nat
  tPoll : Nat
  slow : Timing
  fast : Timing
  nAck : Nat := 255
  tWakeLow : Nat
  tWakeSettle : Nat
  rxLenHighMask : LenMask := .low3
  ibdJitterMax : Nat := 0
  deriving DecidableEq, Repr, Inhabited

/-- The constraints R7 puts on a configuration; it puts none on INSTANCE_BASE(n). -/
def Params.wf (c : Params) : Bool :=
  decide (1 ≤ c.maxFrame) && decide (c.maxFrame ≤ 2047) && decide (1 ≤ c.ticksPerUs) && decide (1 ≤ c.tPoll)
    && c.slow.wf && c.fast.wf && decide (1 ≤ c.nAck) && decide (1 ≤ c.tWakeLow) && decide (c.tWakeLow < c.tWakeSettle)

/-- The timing table of profile `p`. -/
def Params.timing (c : Params) : Profile → Timing
  | .slow => c.slow
  | .fast => c.fast

/-- The nearest timing table within the constraints of R7: a table within them is its own. -/
def Timing.bounded (t : Timing) : Timing where
  tLong := max (max 1 t.tShort + 1) t.tLong
  tShort := max 1 t.tShort
  tAck := max 1 t.tAck
  tStart := max 1 t.tStart
  tIbd := max 1 t.tIbd
  tIfd := max 1 t.tIfd
  tIdle := max 1 t.tIdle
  nRxto := max 1 t.nRxto

/-- The nearest configuration within the constraints of R7: a configuration within them is its own. -/
def Params.bounded (c : Params) : Params where
  base := c.base
  lenWidth := c.lenWidth
  maxFrame := max 1 (min 2047 c.maxFrame)
  ticksPerUs := max 1 c.ticksPerUs
  tPoll := max 1 c.tPoll
  slow := c.slow.bounded
  fast := c.fast.bounded
  nAck := max 1 c.nAck
  tWakeLow := max 1 c.tWakeLow
  tWakeSettle := max (max 1 c.tWakeLow + 1) c.tWakeSettle
  rxLenHighMask := c.rxLenHighMask
  ibdJitterMax := c.ibdJitterMax

namespace Config

/-- SENTINEL, the frame-acknowledgment byte (R6). -/
def sentinel : Byte := 0x20#8

/-- T_REC_US, the hold of each phase of Slow recovery, in microseconds (R6). -/
def tRecUs : Nat := 100000

/-- What the integrator chose for instance `n`: OPEN (R7, D3, D4, D6, D7). A free value. -/
opaque chosen : Nat → Params

/-- The configuration of instance `n`: whatever the integrator chose, held within the constraints of R7 (log entry 2). -/
def params (n : Nat) : Params := (chosen n).bounded

/-- NBUS - 1: OPEN, NBUS >= 1 (R3, R7, D29). A free value. -/
opaque nbusExtra : Nat

/-- NBUS, the number of instances (R7). -/
def nbus : Nat := nbusExtra + 1

/-- The peer's drive of instance `n`'s line at tick `t` after its `e`-th reset, where the peer's script in the state has ended:
a draw no rule constrains (R24, D2). A free value. -/
opaque peerDraw : Nat → Nat → Nat → Bool

/-- The extra ticks of the `k`-th inter-byte gap of instance `n`, before it is bounded (R123, D22). A free value. -/
opaque jitterDraw : Nat → Nat → Nat

/-- The content of byte `k` of instance `n`'s BUF after its `e`-th reset, until something writes it (R36, D42). A free value. -/
opaque bufDraw : Nat → Nat → Nat → Byte

end Config

end Sys2Proof
end

