-- ==== Sys2Proof/Syntax.lean ====
section
/-! DEFINITION. The commands of the block: one constructor per row of spec/opcode_table.json (30_encoding.md R68, R69). -/

namespace Sys2Proof

/-- A command, as a CMD write gives it (R69). SPEED is an operand of the four commands that copy it at launch (R160,
R161); the others ignore it (R70), and every command ignores bits 31:5 (R71), so no constructor carries them. -/
inductive Instr where
  /-- INIT (R166). -/
  | init
  /-- DEINIT (R167). -/
  | deinit
  /-- SEND_FRAME with its speed profile (R125). -/
  | sendFrame (p : Profile)
  /-- RECV_FRAME with its speed profile (R130). -/
  | recvFrame (p : Profile)
  /-- WAKE (R150) with the SPEED it copies (R160) and does not read (R70); written without one, SPEED = 0 (R87). -/
  | wake (p : Profile := .slow)
  /-- RECOVER with its speed profile (R152). -/
  | recover (p : Profile)
  /-- The reserved code 0x0 (R168). -/
  | reserved0
  /-- The reserved code 0x7 (R168). -/
  | reserved7
  /-- The reserved codes 0x8 to 0xF, with the code (R168). -/
  | reserved8F (op : BitVec 4)
  deriving DecidableEq, Repr

end Sys2Proof
end

