-- ==== Sys2Proof/WellFormed.lean ====
section
/-! DEFINITION. Which command terms stand for a command word. -/

namespace Sys2Proof

/-- A command term is well-formed when an OP value encodes it: the row RESERVED_8_F holds the codes with bit 3 set (R69). Every
other term is. -/
def Instr.wf : Instr → Bool
  | .init => true
  | .deinit => true
  | .sendFrame _ => true
  | .recvFrame _ => true
  | .wake _ => true
  | .recover _ => true
  | .reserved0 => true
  | .reserved7 => true
  | .reserved8F op => op.getLsbD 3

end Sys2Proof
end

