-- ==== Sys2Proof/Decode.lean ====
section
/-! DEFINITION. The decoder and the encoder of command words (30_encoding.md R68 to R71). -/

namespace Sys2Proof

/-- CMD[3:0], the command code (R68). -/
def opField (w : Word) : BitVec 4 := w.extractLsb' 0 4

/-- CMD[4], the speed profile: 0 = Slow, 1 = Fast (R68, R83). -/
def speedField (w : Word) : Profile := if w.getLsbD 4 then .fast else .slow

/-- The command a word stands for: every 32-bit word decodes to exactly one row, by its OP field (R69, R71). -/
def decode (w : Word) : Instr :=
  if opField w = 0x0#4 then .reserved0
  else if opField w = 0x1#4 then .init
  else if opField w = 0x2#4 then .deinit
  else if opField w = 0x3#4 then .sendFrame (speedField w)
  else if opField w = 0x4#4 then .recvFrame (speedField w)
  else if opField w = 0x5#4 then .wake (speedField w)
  else if opField w = 0x6#4 then .recover (speedField w)
  else if opField w = 0x7#4 then .reserved7
  else .reserved8F (opField w)

/-- Why a bit string is no command word. -/
inductive DecodeError where
  /-- A command is always one word of 32 bits (R68), and the bit string has `n` bits: more than one word. -/
  | notOneWord (n : Nat)
  deriving DecidableEq, Repr

/-- The command read from a bit string of `nbits` bits with value `w`: shorter than a word, its missing high bits are 0; longer, it
is refused by name. -/
def decodeBits (nbits w : Nat) : Except DecodeError Instr :=
  if nbits ≤ 32 then .ok (decode (BitVec.ofNat 32 (w % 2 ^ nbits))) else .error (.notOneWord nbits)

/-- The instruction the decoder reads from an opcode-table word. -/
def decodeTableWord (nbits w : Nat) : Option Instr :=
  match decodeBits nbits w with
  | .ok i => some i
  | .error _ => none

/-- The SPEED bit of a profile (R15, R68). -/
def speedBit : Profile → BitVec 1
  | .slow => 0#1
  | .fast => 1#1

/-- A command word with the reserved bits 31:5 zero, as software writes it (R68). -/
def commandWord (speed : BitVec 1) (op : BitVec 4) : Word := 0#27 ++ speed ++ op

/-- The word of a command; the commands that do not carry SPEED have it 0 (R69 to R71). -/
def encode : Instr → Word
  | .init => commandWord 0#1 0x1#4
  | .deinit => commandWord 0#1 0x2#4
  | .sendFrame p => commandWord (speedBit p) 0x3#4
  | .recvFrame p => commandWord (speedBit p) 0x4#4
  | .wake p => commandWord (speedBit p) 0x5#4
  | .recover p => commandWord (speedBit p) 0x6#4
  | .reserved0 => commandWord 0#1 0x0#4
  | .reserved7 => commandWord 0#1 0x7#4
  | .reserved8F op => commandWord 0#1 op

end Sys2Proof
end

