-- ==== Sys2Proof/Machine/State.lean ====
section
/-! DEFINITION. The state of the machine as plain data: the instances of the block with all 10_state.md gives each (R20 to R42),
the environment's pending inputs, and the reasons a step can stop. -/

namespace Sys2Proof.Machine

/-- `pin.dir` (R22). -/
inductive Dir where
  | input
  | output
  deriving DecidableEq, Repr, Inhabited

/-- The pin driver (R22). -/
structure Pin where
  dir : Dir
  out : Level
  deriving DecidableEq, Repr, Inhabited

/-- The released pin: an input with output value 1 (R22, R94). -/
def Pin.released : Pin := { dir := .input, out := .high }

/-- The result codes that are ever produced (R180; codes 6 to 15 never are, 93_implementation_defined.md row 22). -/
inductive Code where
  | ok
  | arbitrationFault
  | ackError
  | receiveTimeout
  | bufferOverrun
  | commandRejected
  deriving DecidableEq, Repr, Inhabited

/-- The failing step of a frame command (R181). -/
inductive Stage where
  | none
  | arb
  | addr
  | len
  | payload
  | frameAck
  | rxLen
  | rxPayload
  deriving DecidableEq, Repr, Inhabited

/-- STATUS by its fields (R32); the word the host reads is `Status.word` of Flags.lean. -/
structure Status where
  busy : Bool
  done : Bool
  en : Bool
  cmdLost : Bool
  code : Code
  stage : Stage
  deriving DecidableEq, Repr, Inhabited

/-- The commands that run a sequence (R160 case 6). -/
inductive SeqOp where
  | sendFrame
  | recvFrame
  | wake
  | recover
  deriving DecidableEq, Repr, Inhabited

/-- The places of the frame rules at which a byte operation is called. Each has a clause that says what its failure becomes
(R125, R130). -/
inductive Site where
  /-- The device-address byte. -/
  | addr
  /-- A length-prefix byte of SEND_FRAME or a read-request byte of RECV_FRAME. -/
  | len
  /-- A payload byte of SEND_FRAME. -/
  | payload
  /-- The frame-acknowledgment byte of SEND_FRAME. -/
  | sendAck
  /-- The frame-acknowledgment byte of RECV_FRAME. -/
  | recvAck
  /-- A received length byte. -/
  | rxLen
  /-- A received payload byte. -/
  | rxPayload
  deriving DecidableEq, Repr, Inhabited

/-- What the caller of a PollWhile does with its result (R103, R110). -/
inductive PollUse where
  /-- One of the two acknowledgment polls of SendByte. -/
  | ack (site : Site)
  /-- The HIGH phase of a received bit. -/
  | bitHigh (site : Site)
  /-- The LOW phase of a received bit. -/
  | bitLow (site : Site)
  deriving DecidableEq, Repr, Inhabited

/-- One operation of the sequencer's pseudocode that is still to be performed. The primitives of 40_bit_codec.md act; every other
operation stands for the lines of its rule and is replaced by them when its turn comes. -/
inductive Micro where
  /-- Hold (R93). -/
  | hold (v : Level) (d : Nat)
  /-- Release (R94). -/
  | release
  /-- Wait (R95). -/
  | wait (d : Nat)
  /-- PollWhile, from its first line (R97). -/
  | poll (lv : Level) (bound : Nat) (use : PollUse)
  /-- PollWhile, at the head of its loop (R97). -/
  | pollLoop (lv : Level) (bound : Nat) (use : PollUse)
  /-- SendSync (R99). -/
  | sendSync
  /-- SendBit (R100). -/
  | sendBit (b : Bool)
  /-- SendBits, from its first line (R101). -/
  | sendBits (v : Byte)
  /-- SendBits, at the head of its loop (R101). -/
  | sendBitsLoop
  /-- SendBits, at the end of one pass of its loop (R101). -/
  | sendBitsNext
  /-- RecvSync (R102). -/
  | recvSync
  /-- RecvBit (R103). -/
  | recvBit (site : Site)
  /-- RecvBits, from its first line (R104). -/
  | recvBits (site : Site)
  /-- RecvBits, at the head of its loop (R104). -/
  | recvBitsLoop (site : Site)
  /-- SendAckPulse (R105). -/
  | sendAckPulse
  /-- SendByte (R110). -/
  | sendByte (v : Byte) (site : Site)
  /-- RecvByte (R111). -/
  | recvByte (site : Site)
  /-- Arbitrate, from its first line (R120). -/
  | arbitrate
  /-- Arbitrate, at the head of its loop (R120). -/
  | arbLoop
  /-- Arbitrate, at its confirming sample (R120). -/
  | arbConfirm
  /-- StartCondition (R121). -/
  | startCondition
  /-- Gap (R123). -/
  | gap
  /-- The first line of SEND_FRAME: the first flag and the cursor (R122, R125). -/
  | beginSend
  /-- The first line of RECV_FRAME: the first flag (R122, R130). -/
  | beginRecv
  /-- The device-address step of a frame command (R125, R130). -/
  | addrByte
  /-- The length-prefix step of SEND_FRAME (R125). -/
  | sendLength
  /-- The payload loop of SEND_FRAME, at its head (R125). -/
  | payload
  /-- The payload loop of SEND_FRAME, at the SendByte of one byte (R125, R127). -/
  | payloadByte
  /-- The payload loop of SEND_FRAME, at the end of one pass (R125). -/
  | payloadNext
  /-- The read-request step of RECV_FRAME (R130). -/
  | readRequest
  /-- The comparison of the received frame-acknowledgment byte with SENTINEL (R125, R130). -/
  | checkAck
  /-- RECV_FRAME, after the first length byte (R130). -/
  | lenFirst
  /-- RECV_FRAME, after the second length byte; `b0` is the first (R130). -/
  | lenSecond (b0 : Byte)
  /-- RECV_FRAME, at the bound check of the received length (R130, R132). -/
  | checkLen
  /-- The payload loop of RECV_FRAME, at its head (R130). -/
  | rxPayload
  /-- The payload loop of RECV_FRAME, after one received byte (R130, R133). -/
  | rxStore
  /-- Epilogue (R134). -/
  | epilogue (code : Code) (stage : Stage)
  /-- Complete with its arguments, at a call without the inter-frame delay (R124, R126, R150, R152). -/
  | finish (code : Code) (stage : Stage)
  /-- The update of Complete, from the result being built in `seq.code` and `seq.stage` (R124, R39). -/
  | complete
  deriving DecidableEq, Repr, Inhabited

/-- `seq.phase`: IDLE, or the tick at which the current time-consuming primitive ends and the operations that follow it (R40). -/
inductive Phase where
  | idle
  | run (wakeAt : Nat) (todo : List Micro)
  deriving DecidableEq, Repr, Inhabited

/-- The sequencer's working state (R39, R40). -/
structure Seq where
  /-- The running command; `none` is NONE. -/
  op : Option SeqOp
  p : Profile
  addr : Byte
  len : Half
  cursor : Nat
  first : Bool
  shift : Byte
  bit : Nat
  n : Nat
  h : Nat
  deadline : Nat
  code : Code
  stage : Stage
  phase : Phase
  deriving DecidableEq, Repr, Inhabited

/-- The frame buffer: one entry per byte written since reset, by buffer index (R36). An index without an entry has no value
here; what it reads as is the free value `Config.bufDraw`. -/
abbrev Memory := List Host.Cell

/-- The canonical form: indices strictly rising. -/
def Memory.wf : Memory → Bool
  | [] => true
  | [_] => true
  | a :: b :: m => decide (a.1 < b.1) && Memory.wf (b :: m)

/-- One instance of the block, with its line's environment (R20). -/
structure Inst where
  /-- The configuration, fixed for the life of the instance (R7, R20). -/
  cfg : Params
  /-- The instance number, the source's "bus address index" (R39, R194). -/
  num : Nat
  /-- `now` (R21). -/
  now : Nat
  /-- The pin driver (R22). -/
  pin : Pin
  /-- CTRL.IE, the one stored bit of CTRL (R28). -/
  ie : Bool
  /-- ADDR.DEVADDR, the stored bits of ADDR (R30). -/
  devAddr : Byte
  /-- LEN.TXLEN, the stored bits of LEN (R31). -/
  txLen : Half
  /-- STATUS (R32). -/
  status : Status
  /-- RXLEN.RXLEN (R35). -/
  rxLen : Half
  /-- BUF (R36). -/
  buf : Memory
  /-- The sequencer's working state (R39). -/
  seq : Seq
  /-- ENVIRONMENT: the peer's drive of the line, LOW = true, at this tick and the following ones, as far as it is scripted (R24). -/
  peer : List Bool
  /-- MODEL'S OWN: how many inter-byte gaps have drawn their jitter; the argument of the free value `Config.jitterDraw` (R123). -/
  gaps : Nat
  /-- MODEL'S OWN: how many resets there have been; an argument of the free values `Config.bufDraw` and `Config.peerDraw`. -/
  resets : Nat
  deriving DecidableEq, Repr, Inhabited

/-- The sequencer's state after reset: idle (R42). Its other fields are unspecified and never read before they are written (R41);
zero here (log entry 5). -/
def Seq.initial : Seq where
  op := none
  p := .slow
  addr := 0#8
  len := 0#16
  cursor := 0
  first := false
  shift := 0#8
  bit := 0
  n := 0
  h := 0
  deadline := 0
  code := .ok
  stage := .none
  phase := .idle

/-- STATUS after reset: 0x00000000 (R42). -/
def Status.initial : Status where
  busy := false
  done := false
  en := false
  cmdLost := false
  code := .ok
  stage := .none

/-- Instance `num` right after its `resets`-th reset (R42, R210), with nothing scripted for its peer. -/
def Inst.initial (cfg : Params) (num resets : Nat) : Inst where
  cfg := cfg
  num := num
  now := 0
  pin := .released
  ie := false
  devAddr := 0#8
  txLen := 0#16
  status := .initial
  rxLen := 0#16
  buf := []
  seq := .initial
  peer := []
  gaps := 0
  resets := resets

/-- One host access to an instance's register block: an offset, a width in bits, and the data of a write (R12, R54). Widths and
offsets that are not legal are terms too: the model refuses them by name. -/
inductive Access where
  | read (off width : Nat)
  | write (off width : Nat) (data : Word)
  deriving DecidableEq, Repr, Inhabited

/-- What the host, and the reset input, do next. Instances are numbered from 0 (R194). -/
inductive HostOp where
  /-- One access to instance `n`: `rd`, `wr`, `rdb` or `wrb` (R86). -/
  | access (n : Nat) (a : Access)
  /-- One access by its host address, which the access gives in the place of the offset: the address is INSTANCE_BASE(n) + offset of
  the instance whose register block holds it (R26, R58). -/
  | bus (a : Access)
  /-- Nothing more in this tick (R61). -/
  | tick
  /-- `wait_done` on instance `n`: read STATUS until DONE = 1 (R87). -/
  | waitDone (n : Nat)
  /-- The end of `recv_frame` on instance `n`: read back the payload if CODE was Ok (R87). -/
  | readPayload (n : Nat)
  /-- The reset input of instance `n` is asserted (R210). -/
  | reset (n : Nat)
  deriving DecidableEq, Repr, Inhabited

/-- Which part of the tick runs next (R61). -/
inductive Turn where
  /-- (a) the sequencer phase, with the instance `State.inst` in turn. -/
  | sequencer
  /-- (b) the host phase. -/
  | host
  deriving DecidableEq, Repr, Inhabited

/-- The machine: the NBUS instances of the block (R3, R194), the host's pending accesses, and the part of the tick that is next.
The instances stand in the order of their numbers, as a list with one place marked: `lower` holds those before the marked one,
the nearest first, and `upper` those after it. -/
structure State where
  /-- The instance whose sequencer is in turn, or that the host addresses. -/
  inst : Inst
  lower : List Inst
  upper : List Inst
  turn : Turn
  /-- ENVIRONMENT: what the host will do, in order (R60); when it ends, the host does nothing more. -/
  host : List HostOp
  /-- ENVIRONMENT: the values the host's reads have returned, the latest first (R86); an 8-bit value is zero-extended. -/
  seen : List Word
  deriving DecidableEq, Repr, Inhabited

/-- The machine right after reset (R42, R210): every instance at its reset values, its configuration the integrator's, nothing
pending from the host or a peer. -/
def State.reset : State where
  inst := Inst.initial (Config.params 0) 0 0
  lower := []
  upper := (List.range Config.nbusExtra).map fun k => Inst.initial (Config.params (k + 1)) (k + 1) 0
  turn := .sequencer
  host := []
  seen := []

/-- Why the machine stops with a fault. -/
inductive Fault where
  /-- Raised by the host phase when the host or the reset input names instance `n` and there is none: instances are numbered 0 to
  NBUS - 1 (R194). Safe: the specification has no such address. -/
  | noInstance (n : Nat)
  /-- Raised by the host phase on an access at a host address that no register block holds, or that more than one does: the block
  fixes nothing of the host address space but the offsets (R58). Safe. -/
  | noRegisterBlock (addr : Nat)
  deriving DecidableEq, Repr, Inhabited

/-- Why a step has no meaning. -/
inductive Refusal where
  /-- A command that has no meaning yet; raised by no arm of this model. -/
  | notModelled (mnemonic : String)
  /-- Raised by the host phase on an access of a width or alignment that R54 does not list: "a model refuses it". Safe. -/
  | illegalAccess (a : Access)
  /-- Raised by the host phase on an access to BUF while BUSY = 1: "a model refuses such an access" (R222). Safe. -/
  | bufWhileBusy (a : Access)
  deriving DecidableEq, Repr, Inhabited

end Sys2Proof.Machine
end

