-- ==== Sys2Proof/Machine/Ops.lean ====
section
/-! DEFINITION. The shared operations: the frame buffer, the pin and the line, time, the sequencer's position, completion (what this
block has in place of taking an exception, R186) with its return (R188), reset, and the choice of an instance. -/

namespace Sys2Proof.Machine

/-! ## The frame buffer -/

/-- The byte written last at index `k` since reset, if any. -/
def Memory.read : Memory → Nat → Option Byte
  | [], _ => none
  | (a, v) :: m, k => if a = k then some v else Memory.read m k

/-- The memory with byte `v` at index `k`. -/
def Memory.write : Memory → Nat → Byte → Memory
  | [], k, v => [(k, v)]
  | (a, w) :: m, k, v =>
    if k < a then (k, v) :: (a, w) :: m
    else if k = a then (k, v) :: m
    else (a, w) :: Memory.write m k v

/-- BUF[k]: the byte written last, or the byte's free value if nothing has written it since reset (R36). -/
def Inst.readBuf (b : Inst) (k : Nat) : Byte :=
  (b.buf.read k).getD (Config.bufDraw b.num b.resets k)

/-- BUF[k] <- v. BUF has MAX_FRAME bytes (R36): there is nothing to write beyond them. -/
def Inst.writeBuf (b : Inst) (k : Nat) (v : Byte) : Inst :=
  if k < b.cfg.maxFrame then { b with buf := b.buf.write k v } else b

/-! ## The pin and the line -/

/-- `xlow`: the block drives the line LOW exactly as an output at 0 (R23). -/
def Pin.drivesLow (p : Pin) : Bool :=
  match p.dir, p.out with
  | .output, .low => true
  | _, _ => false

/-- `peer_low` of the tick `j` ticks from now: the script's, and beyond it the draw (R24). -/
def Inst.peerAt (b : Inst) (j : Nat) : Bool :=
  (b.peer[j]?).getD (Config.peerDraw b.num b.resets (b.now + j))

/-- `peer_low(now)` (R24). -/
def Inst.peerLow (b : Inst) : Bool := b.peerAt 0

/-- `Line()`, the wired AND of the two drivers (R90); `Sample()` reads it (R96). -/
def Inst.line (b : Inst) : Level :=
  if b.pin.drivesLow || b.peerLow then .low else .high

/-- The two pin writes that begin `Hold` (R93). -/
def Inst.drive (b : Inst) (v : Level) : Inst := { b with pin := { dir := .output, out := v } }

/-- `Release()` (R94). -/
def Inst.release (b : Inst) : Inst := { b with pin := .released }

/-! ## Time -/

/-- The timing table of the running command's profile. -/
def Inst.timing (b : Inst) : Timing := b.cfg.timing b.seq.p

/-- The end of a tick: `now <- now + 1`, and the next of the peer's draws (R61 c, R24). -/
def Inst.tick (b : Inst) : Inst := { b with now := b.now + 1, peer := b.peer.tail }

/-- `TimeoutStart(d)` (R98). -/
def Inst.timeoutStart (b : Inst) (d : Nat) : Inst :=
  { b with seq := { b.seq with deadline := b.now + d } }

/-- `TimeoutExpired()` (R98). -/
def Inst.timeoutExpired (b : Inst) : Bool := decide (b.seq.deadline ≤ b.now)

/-! ## The sequencer's position -/

/-- The sequencer continues with `todo` in the sequencer phase of the tick `d` ticks from now (R95, R40). -/
def Inst.sleep (b : Inst) (d : Nat) (todo : List Micro) : Inst :=
  { b with seq := { b.seq with phase := .run (b.now + d) todo } }

/-- The sequencer continues with `todo` in the same tick. -/
def Inst.goOn (b : Inst) (todo : List Micro) : Inst := b.sleep 0 todo

/-- The result being built (R39). -/
def Inst.setResult (b : Inst) (c : Code) (st : Stage) : Inst :=
  { b with seq := { b.seq with code := c, stage := st } }

/-! ## Completion and its return -/

/-- `Complete`: the one atomic update that ends a sequenced command (R124, R63, R186). -/
def Inst.complete (b : Inst) : Inst :=
  { b with
    status := { b.status with busy := false, done := true, code := b.seq.code, stage := b.seq.stage }
    rxLen := if b.seq.code = .ok ∧ b.seq.op = some .recvFrame then b.seq.len else 0#16
    seq := { b.seq with op := none, phase := .idle } }

/-- `CompleteNow` (R160): completion inside the CMD write itself. -/
def Inst.completeNow (b : Inst) (c : Code) : Inst :=
  { b with status := { b.status with done := true, code := c, stage := .none } }

/-- Complete, at a call without the inter-frame delay (R126, R150, R152). -/
def Inst.finish (b : Inst) (c : Code) (st : Stage) : Inst := (b.setResult c st).goOn [.complete]

/-- `Epilogue`, which is also `raise Fault` inside a frame command (R134, R14): nothing of the frame after it runs. -/
def Inst.epilogue (b : Inst) (c : Code) (st : Stage) : Inst :=
  (b.setResult c st).goOn [.wait b.timing.tIfd, .complete]

/-- The host's end of handling a completion, by writing 1 to DONE, and likewise to CMD_LOST (R188, R33). -/
def Status.clear (s : Status) (done cmdLost : Bool) : Status :=
  { s with done := s.done && !done, cmdLost := s.cmdLost && !cmdLost }

/-! ## Reset -/

/-- The reset input: every piece of the instance's state at its reset value, at once (R210). The configuration, the instance number
and the peer are not state of the block that reset reaches (R20, R24); the free values of BUF are drawn anew. -/
def Inst.reset (b : Inst) : Inst :=
  { Inst.initial b.cfg b.num (b.resets + 1) with peer := b.peer, gaps := b.gaps }

/-! ## The instances -/

/-- The state with its marked instance changed by `f`. -/
def State.onInst (s : State) (f : Inst → Inst) : State := { s with inst := f s.inst }

/-- The instances before the marked one put back in front: the first instance and those after it, in order. -/
def rewind : List Inst → Inst → List Inst → Inst × List Inst
  | [], b, upper => (b, upper)
  | a :: lower, b, upper => rewind lower a (b :: upper)

/-- The state with instance 0 marked. -/
def State.rewound (s : State) : State :=
  { s with inst := (rewind s.lower s.inst s.upper).1, lower := [], upper := (rewind s.lower s.inst s.upper).2 }

/-- The state with the mark moved up by `n` instances, if there are so many. -/
def State.up (s : State) : Nat → Option State
  | 0 => some s
  | n + 1 =>
    match s.upper with
    | [] => none
    | a :: upper => State.up { s with inst := a, lower := s.inst :: s.lower, upper := upper } n

/-- The state with instance `n` marked, if there is one. -/
def State.focus (s : State) (n : Nat) : Option State := s.rewound.up n

/-- All instances, in the order of their numbers. -/
def State.insts (s : State) : List Inst := s.lower.reverse ++ s.inst :: s.upper

/-- The end of a tick for every instance; the next tick begins with the sequencer of instance 0 (R61). -/
def State.endTick (s : State) : State :=
  { s.rewound with
    inst := s.rewound.inst.tick
    upper := s.rewound.upper.map Inst.tick
    turn := .sequencer }

end Sys2Proof.Machine
end

