-- ==== Sys2Proof/Machine/Flags.lean ====
section
/-! DEFINITION. The register words the host sees, from the fields that hold them, and the interrupt output (10_state.md R27 to R38,
60_exceptions.md R180, R181). -/

namespace Sys2Proof.Machine

/-- The number of a result code (R180). -/
def Code.num : Code → BitVec 4
  | .ok => 0#4
  | .arbitrationFault => 1#4
  | .ackError => 2#4
  | .receiveTimeout => 3#4
  | .bufferOverrun => 4#4
  | .commandRejected => 5#4

/-- The number of a stage (R181). -/
def Stage.num : Stage → BitVec 3
  | .none => 0#3
  | .arb => 1#3
  | .addr => 2#3
  | .len => 3#3
  | .payload => 4#3
  | .frameAck => 5#3
  | .rxLen => 6#3
  | .rxPayload => 7#3

/-- The STATUS word (R32). -/
def Status.word (s : Status) : Word :=
  0#21 ++ s.stage.num ++ s.code.num ++ BitVec.ofBool s.cmdLost ++ BitVec.ofBool s.en ++ BitVec.ofBool s.done
    ++ BitVec.ofBool s.busy

/-- A host write of `w` to STATUS: bit 1 clears DONE, bit 3 clears CMD_LOST, nothing else acts (R33). -/
def Status.hostWrite (s : Status) (w : Word) : Status := s.clear (w.getLsbD 1) (w.getLsbD 3)

/-- The CONFIG word (R27). -/
def configWord (c : Params) : Word :=
  BitVec.ofNat 16 c.maxFrame ++ 0#15 ++ BitVec.ofBool (decide (c.lenWidth = .two))

/-- The CTRL word (R28). -/
def ctrlWord (b : Inst) : Word := 0#31 ++ BitVec.ofBool b.ie

/-- The ADDR word (R30). -/
def addrWord (b : Inst) : Word := 0#24 ++ b.devAddr

/-- The LEN word (R31). -/
def lenWord (b : Inst) : Word := 0#16 ++ b.txLen

/-- The RXLEN word (R35). -/
def rxLenWord (b : Inst) : Word := 0#16 ++ b.rxLen

/-- IRQ, a level (R38, R187). -/
def Inst.irq (b : Inst) : Bool := b.ie && b.status.done

end Sys2Proof.Machine
end

