-- ==== Sys2Proof/Machine/Operands.lean ====
section
/-! DEFINITION. The operands: what a host access addresses (20_memory.md R54, 10_state.md R26), and the lengths, prefix bytes and
derived constants of a command (30_encoding.md R77, R78, R83; 00_scope.md R8, R9). -/

namespace Sys2Proof.Machine

/-! ## What a host access addresses -/

/-- The registers of the block below offset 0x100 (R26). -/
inductive Reg where
  | config
  | ctrl
  | cmd
  | addr
  | len
  | status
  | rxLen
  /-- An offset of R26's reserved range. -/
  | reserved
  deriving DecidableEq, Repr

/-- What an access addresses. -/
inductive Target where
  | reg (r : Reg)
  /-- BUF[k]. -/
  | buf (k : Nat)
  /-- A reserved byte offset above BUF. -/
  | hole
  /-- An access R54 does not list. -/
  | illegal
  deriving DecidableEq, Repr

/-- The register at a word offset below 0x100 (R26). -/
def regAt (off : Nat) : Reg :=
  if off = 0x000 then .config
  else if off = 0x004 then .ctrl
  else if off = 0x008 then .cmd
  else if off = 0x00C then .addr
  else if off = 0x010 then .len
  else if off = 0x014 then .status
  else if off = 0x018 then .rxLen
  else .reserved

/-- What an access of `width` bits at `off` addresses: the legal accesses are an aligned 32-bit one below 0x100 and an 8-bit one
from 0x100 to 0xFFF (R54). -/
def target (c : Params) (off width : Nat) : Target :=
  if width = 32 ∧ off < 0x100 ∧ off % 4 = 0 then .reg (regAt off)
  else if width = 8 ∧ 0x100 ≤ off ∧ off ≤ 0xFFF then
    if off - 0x100 < c.maxFrame then .buf (off - 0x100) else .hole
  else .illegal

/-- The byte offset of an access; of an access by host address, that address. -/
def Access.off : Access → Nat
  | .read off _ => off
  | .write off _ _ => off

/-- The width of an access in bits. -/
def Access.width : Access → Nat
  | .read _ width => width
  | .write _ width _ => width

/-- The same access at another offset. -/
def Access.moveTo : Access → Nat → Access
  | .read _ width, off => .read off width
  | .write _ width w, off => .write off width w

/-- Whether a host address lies in the instance's 4096-byte register block at INSTANCE_BASE(n) (R26). -/
def Inst.holds (b : Inst) (addr : Nat) : Bool := decide (b.cfg.base ≤ addr) && decide (addr < b.cfg.base + 4096)

/-- The instances whose register blocks hold a host address, by number, each with the base of its block. -/
def State.holders (s : State) (addr : Nat) : List (Nat × Nat) :=
  s.insts.zipIdx.filterMap fun c => if c.1.holds addr then some (c.2, c.1.cfg.base) else none

/-! ## Register reads and writes -/

/-- A host read of a register (R26 to R37). It changes nothing (R56). -/
def Inst.readReg (b : Inst) : Reg → Word
  | .config => configWord b.cfg
  | .ctrl => ctrlWord b
  | .cmd => 0#32
  | .addr => addrWord b
  | .len => lenWord b
  | .status => b.status.word
  | .rxLen => rxLenWord b
  | .reserved => 0#32

/-- A host write of `w` to a register other than CMD: CTRL, ADDR and LEN store their fields, STATUS clears, the read-only and
reserved ones ignore it (R27 to R37, R56). A CMD write is dispatched (R160), not stored (R29). -/
def Inst.writeReg (b : Inst) (r : Reg) (w : Word) : Inst :=
  match r with
  | .config => b
  | .ctrl => { b with ie := w.getLsbD 0 }
  | .cmd => b
  | .addr => { b with devAddr := w.extractLsb' 0 8 }
  | .len => { b with txLen := w.extractLsb' 0 16 }
  | .status => { b with status := b.status.hostWrite w }
  | .rxLen => b
  | .reserved => b

/-! ## Lengths -/

/-- LMAX_PREFIX (R9). -/
def lmaxPrefix : LenWidth → Nat
  | .one => 255
  | .two => 2047

/-- LMAX_TX (R9). -/
def lmaxTx (c : Params) : Nat := min c.maxFrame (lmaxPrefix c.lenWidth)

/-- The length prefix on the line, in order (R77). -/
def lenBytes : LenWidth → Half → List Byte
  | .one, l => [l.extractLsb' 0 8]
  | .two, l => [(l.extractLsb' 8 3).setWidth 8, l.extractLsb' 0 8]

/-- The read request on the line: as many zero bytes as the prefix is wide (R80 row 4). -/
def requestBytes : LenWidth → List Byte
  | .one => [0#8]
  | .two => [0#8, 0#8]

/-- RX_LEN_HIGH_MASK as a byte (R7). -/
def LenMask.byte : LenMask → Byte
  | .low3 => 0x07#8
  | .all8 => 0xFF#8

/-- The received length from a two-byte prefix: ((b0 & mask) << 8) | b1 (R78). -/
def rxLength (m : LenMask) (b0 b1 : Byte) : Half := (b0 &&& LenMask.byte m) ++ b1

/-- The received length from a one-byte prefix (R78). -/
def rxLength1 (b0 : Byte) : Half := 0#8 ++ b0

/-! ## Assembling a received byte -/

/-- `seq.shift <- (seq.shift << 1)[7:0] | bit` (R83, R104). -/
def shiftIn (v : Byte) (bit : Bool) : Byte := (v <<< 1) ||| (0#7 ++ BitVec.ofBool bit)

/-- The bit decoded from the two phase counts: 1 exactly when the HIGH count exceeds the LOW count (R103). -/
def decodeBit (h l : Nat) : Bool := decide (l < h)

/-! ## Derived constants -/

/-- T_REC (R8). -/
def tRec (c : Params) : Nat := Config.tRecUs * c.ticksPerUs

/-- The jitter of an inter-byte gap, 0 <= j <= IBD_JITTER_MAX, from a draw (R123). -/
def jitter (c : Params) (draw : Nat) : Nat := if c.ibdJitterMax = 0 then 0 else draw % (c.ibdJitterMax + 1)

end Sys2Proof.Machine
end

