-- ==== Sys2Proof/Machine/Primitives.lean ====
section
/-! DEFINITION. The line and time primitives as operations of the sequencer (40_bit_codec.md R93 to R98). In every operation of the
sequencer, `k` is what follows it in the running command. -/

namespace Sys2Proof.Machine

/-- `Hold(v, d)` (R93). -/
def Inst.doHold (b : Inst) (v : Level) (d : Nat) (k : List Micro) : Inst := (b.drive v).goOn (.wait d :: k)

/-- `Release()` (R94). -/
def Inst.doRelease (b : Inst) (k : List Micro) : Inst := b.release.goOn k

/-- `Wait(d)` (R95). -/
def Inst.doWait (b : Inst) (d : Nat) (k : List Micro) : Inst := b.sleep d k

/-- The code a byte operation's failure has where its caller's clause has been applied: only SEND_FRAME's frame-acknowledgment
clause changes it (R128, R131, R184). -/
def Site.code : Site → Code → Code
  | .sendAck, _ => .ackError
  | .addr, c => c
  | .len, c => c
  | .payload, c => c
  | .recvAck, c => c
  | .rxLen, c => c
  | .rxPayload, c => c

/-- The stage of a failure at a call (R125, R130, R181). -/
def Site.stage : Site → Stage
  | .addr => .addr
  | .len => .len
  | .payload => .payload
  | .sendAck => .frameAck
  | .recvAck => .frameAck
  | .rxLen => .rxLen
  | .rxPayload => .rxPayload

/-- A byte operation called at `site` raises `c` (R14, R184): the frame command ends there, with the epilogue except after the
device-address byte (R126). -/
def Inst.raiseAt (b : Inst) (site : Site) (c : Code) : Inst :=
  match site with
  | .addr => b.finish (site.code c) site.stage
  | _ => b.epilogue (site.code c) site.stage

/-- The end of a PollWhile with a count, at its caller (R103, R104, R110). -/
def Inst.polled (b : Inst) (use : PollUse) (count : Nat) (k : List Micro) : Inst :=
  match use with
  | .ack _ => b.goOn k
  | .bitHigh site =>
    { b with seq := { b.seq with h := count } }.goOn (.poll .low b.timing.nRxto (.bitLow site) :: k)
  | .bitLow site =>
    { b with seq := { b.seq with
        shift := shiftIn b.seq.shift (decodeBit b.seq.h count)
        bit := b.seq.bit + 1 } }.goOn (.recvBitsLoop site :: k)

/-- The end of a PollWhile with TIMEOUT, at its caller (R103, R110). -/
def Inst.pollTimeout (b : Inst) (use : PollUse) : Inst :=
  match use with
  | .ack site => b.raiseAt site .ackError
  | .bitHigh site => b.raiseAt site .receiveTimeout
  | .bitLow site => b.raiseAt site .receiveTimeout

/-- `PollWhile(level, N)`, its first line (R97). -/
def Inst.doPoll (b : Inst) (lv : Level) (bound : Nat) (use : PollUse) (k : List Micro) : Inst :=
  { b with seq := { b.seq with n := 0 } }.goOn (.pollLoop lv bound use :: k)

/-- One pass of PollWhile's loop (R97). -/
def Inst.doPollLoop (b : Inst) (lv : Level) (bound : Nat) (use : PollUse) (k : List Micro) : Inst :=
  if b.line ≠ lv then b.polled use b.seq.n k
  else if bound ≤ b.seq.n + 1 then { b with seq := { b.seq with n := b.seq.n + 1 } }.pollTimeout use
  else { b with seq := { b.seq with n := b.seq.n + 1 } }.goOn (.wait b.cfg.tPoll :: .pollLoop lv bound use :: k)

end Sys2Proof.Machine
end

