-- ==== Sys2Proof/Machine/Codec.lean ====
section
/-! DEFINITION. The bit codec in both directions (40_bit_codec.md R99 to R105). -/

namespace Sys2Proof.Machine

/-- `SendSync(p)` (R99, R73). -/
def Inst.doSendSync (b : Inst) (k : List Micro) : Inst :=
  b.goOn (.hold .high b.timing.tShort :: .hold .low b.timing.tLong :: k)

/-- `SendBit(p, bit)` (R100, R72). -/
def Inst.doSendBit (b : Inst) (bit : Bool) (k : List Micro) : Inst :=
  if bit then b.goOn (.hold .high b.timing.tLong :: .hold .low b.timing.tShort :: k)
  else b.goOn (.hold .high b.timing.tShort :: .hold .low b.timing.tLong :: k)

/-- `SendBits(p, v)`, its first line (R101). -/
def Inst.doSendBits (b : Inst) (v : Byte) (k : List Micro) : Inst :=
  { b with seq := { b.seq with shift := v, bit := 0 } }.goOn (.sendBitsLoop :: k)

/-- The loop of SendBits, most significant bit first, and the Release after it (R101, R51). -/
def Inst.doSendBitsLoop (b : Inst) (k : List Micro) : Inst :=
  if b.seq.bit < 8 then b.goOn (.sendBit (b.seq.shift.getLsbD (7 - b.seq.bit)) :: .sendBitsNext :: k)
  else b.goOn (.release :: k)

/-- The end of one pass of SendBits' loop (R101). -/
def Inst.doSendBitsNext (b : Inst) (k : List Micro) : Inst :=
  { b with seq := { b.seq with bit := b.seq.bit + 1 } }.goOn (.sendBitsLoop :: k)

/-- `RecvSync(p)` (R102). -/
def Inst.doRecvSync (b : Inst) (k : List Micro) : Inst := b.goOn (.sendSync :: .release :: k)

/-- `RecvBit(p)`, its first line; the polls' ends are `Inst.polled` and `Inst.pollTimeout` (R103). -/
def Inst.doRecvBit (b : Inst) (site : Site) (k : List Micro) : Inst :=
  b.goOn (.poll .high b.timing.nRxto (.bitHigh site) :: k)

/-- `RecvBits(p)`, its first line (R104). -/
def Inst.doRecvBits (b : Inst) (site : Site) (k : List Micro) : Inst :=
  { b with seq := { b.seq with shift := 0#8, bit := 0 } }.goOn (.recvBitsLoop site :: k)

/-- The loop of RecvBits (R104); a bit's shift is done where its LOW poll ends (`Inst.polled`). -/
def Inst.doRecvBitsLoop (b : Inst) (site : Site) (k : List Micro) : Inst :=
  if b.seq.bit < 8 then b.goOn (.recvBit site :: k) else b.goOn k

/-- `SendAckPulse(p)` (R105). -/
def Inst.doSendAckPulse (b : Inst) (k : List Micro) : Inst :=
  b.goOn (.hold .low b.timing.tAck :: .hold .high 0 :: .release :: k)

end Sys2Proof.Machine
end

