-- ==== Sys2Proof/Machine/ByteTransceiver.lean ====
section
/-! DEFINITION. The byte transceiver (41_byte_transceiver.md R110, R111). -/

namespace Sys2Proof.Machine

/-- `SendByte(p, v)`, called at `site` (R110). -/
def Inst.doSendByte (b : Inst) (v : Byte) (site : Site) (k : List Micro) : Inst :=
  b.goOn (.sendSync :: .sendBits v :: .poll .high b.cfg.nAck (.ack site) :: .poll .low b.cfg.nAck (.ack site) :: k)

/-- `RecvByte(p)`, called at `site`; the byte it returns is in `seq.shift` (R111). -/
def Inst.doRecvByte (b : Inst) (site : Site) (k : List Micro) : Inst :=
  b.goOn (.recvSync :: .recvBits site :: .sendAckPulse :: k)

end Sys2Proof.Machine
end

