-- ==== Sys2Proof/Machine/Frame.lean ====
section
/-! DEFINITION. The frame engine: arbitration, the start condition, gaps, and the steps of SEND_FRAME and RECV_FRAME
(42_frame_engine.md R120 to R136). -/

namespace Sys2Proof.Machine

/-! ## Arbitration and the start condition -/

/-- `Arbitrate(p)`, its first two lines (R120). -/
def Inst.doArbitrate (b : Inst) (k : List Micro) : Inst :=
  (b.release.timeoutStart b.timing.tIdle).goOn (.arbLoop :: k)

/-- One pass of Arbitrate's loop: the sample comes before the expiry test (R120). -/
def Inst.doArbLoop (b : Inst) (k : List Micro) : Inst :=
  if b.line = .high then b.goOn (.wait b.cfg.tPoll :: .arbConfirm :: k)
  else if b.timeoutExpired then b.epilogue .arbitrationFault .arb
  else b.goOn (.wait b.cfg.tPoll :: .arbLoop :: k)

/-- Arbitrate's confirming sample (R120). -/
def Inst.doArbConfirm (b : Inst) (k : List Micro) : Inst :=
  if b.line = .low then b.epilogue .arbitrationFault .arb else b.goOn k

/-- `StartCondition(p)` (R121). -/
def Inst.doStartCondition (b : Inst) (k : List Micro) : Inst :=
  match b.seq.p with
  | .slow => b.goOn (.hold .low b.timing.tStart :: .hold .high 0 :: .wait b.timing.tIbd :: k)
  | .fast => b.goOn (.hold .low b.timing.tStart :: .hold .high 0 :: k)

/-- `Gap(p)` (R123): none before the first byte operation of the frame; otherwise T_IBD[p] and a drawn jitter. -/
def Inst.doGap (b : Inst) (k : List Micro) : Inst :=
  if b.seq.first then { b with seq := { b.seq with first := false } }.goOn k
  else { b with gaps := b.gaps + 1 }.goOn (.wait (b.timing.tIbd + jitter b.cfg (Config.jitterDraw b.num b.gaps)) :: k)

/-- The bytes `vs` sent at `site`, each after its gap. -/
def gappedBytes (site : Site) (vs : List Byte) : List Micro :=
  vs.flatMap fun v => [.gap, .sendByte v site]

/-! ## The steps both frame commands share -/

/-- The device-address byte, if there is one (R125, R130). -/
def Inst.doAddrByte (b : Inst) (k : List Micro) : Inst :=
  if b.seq.addr = 0#8 then b.goOn k else b.goOn (gappedBytes .addr [b.seq.addr] ++ k)

/-- The frame-acknowledgment byte must equal SENTINEL (R125, R130). -/
def Inst.doCheckAck (b : Inst) (k : List Micro) : Inst :=
  if b.seq.shift = Config.sentinel then b.goOn k else b.epilogue .ackError .frameAck

/-! ## SEND_FRAME -/

/-- The sequence of SEND_FRAME (R125). -/
def sendFrameSteps : List Micro :=
  [.beginSend, .arbitrate, .startCondition, .addrByte, .sendLength, .payload,
    .gap, .recvByte .sendAck, .checkAck, .epilogue .ok .none]

/-- `seq.first <- 1; seq.cursor <- 0` (R125). -/
def Inst.doBeginSend (b : Inst) (k : List Micro) : Inst :=
  { b with seq := { b.seq with first := true, cursor := 0 } }.goOn k

/-- The length prefix (R125, R77). -/
def Inst.doSendLength (b : Inst) (k : List Micro) : Inst :=
  b.goOn (gappedBytes .len (lenBytes b.cfg.lenWidth b.seq.len) ++ k)

/-- The payload loop, at its head (R125). -/
def Inst.doPayload (b : Inst) (k : List Micro) : Inst :=
  if b.seq.cursor < b.seq.len.toNat then b.goOn (.gap :: .payloadByte :: .payloadNext :: k) else b.goOn k

/-- The SendByte of one payload byte: BUF is read here, after the byte's gap (R125, R127, R57). -/
def Inst.doPayloadByte (b : Inst) (k : List Micro) : Inst :=
  b.goOn (.sendByte (b.readBuf b.seq.cursor) .payload :: k)

/-- `seq.cursor <- seq.cursor + 1` (R125). -/
def Inst.doPayloadNext (b : Inst) (k : List Micro) : Inst :=
  { b with seq := { b.seq with cursor := b.seq.cursor + 1 } }.goOn (.payload :: k)

/-! ## RECV_FRAME -/

/-- The sequence of RECV_FRAME (R130). -/
def recvFrameSteps : List Micro :=
  [.beginRecv, .arbitrate, .startCondition, .addrByte, .readRequest,
    .gap, .recvByte .recvAck, .checkAck, .gap, .recvByte .rxLen, .lenFirst, .checkLen, .epilogue .ok .none]

/-- `seq.first <- 1` (R130). -/
def Inst.doBeginRecv (b : Inst) (k : List Micro) : Inst :=
  { b with seq := { b.seq with first := true } }.goOn k

/-- The read request (R130, R80 row 4). -/
def Inst.doReadRequest (b : Inst) (k : List Micro) : Inst :=
  b.goOn (gappedBytes .len (requestBytes b.cfg.lenWidth) ++ k)

/-- After the first length byte: the length, or the second byte (R130, R78). -/
def Inst.doLenFirst (b : Inst) (k : List Micro) : Inst :=
  match b.cfg.lenWidth with
  | .one => { b with seq := { b.seq with len := rxLength1 b.seq.shift } }.goOn k
  | .two => b.goOn (.gap :: .recvByte .rxLen :: .lenSecond b.seq.shift :: k)

/-- After the second length byte (R130, R78). -/
def Inst.doLenSecond (b : Inst) (b0 : Byte) (k : List Micro) : Inst :=
  { b with seq := { b.seq with len := rxLength b.cfg.rxLenHighMask b0 b.seq.shift } }.goOn k

/-- The bound check of the received length, and the start of the payload loop (R130, R132). -/
def Inst.doCheckLen (b : Inst) (k : List Micro) : Inst :=
  if b.cfg.maxFrame < b.seq.len.toNat then b.epilogue .bufferOverrun .rxLen
  else { b with seq := { b.seq with cursor := 0 } }.goOn (.rxPayload :: k)

/-- The payload loop, at its head (R130). -/
def Inst.doRxPayload (b : Inst) (k : List Micro) : Inst :=
  if b.seq.cursor < b.seq.len.toNat then b.goOn (.gap :: .recvByte .rxPayload :: .rxStore :: k) else b.goOn k

/-- `BUF[seq.cursor] <- v`, once the byte has been received and acknowledged (R130, R133, R57). -/
def Inst.doRxStore (b : Inst) (k : List Micro) : Inst :=
  { b.writeBuf b.seq.cursor b.seq.shift with seq := { b.seq with cursor := b.seq.cursor + 1 } }.goOn (.rxPayload :: k)

end Sys2Proof.Machine
end

