-- ==== Sys2Proof/Machine/WakeRecovery.lean ====
section
/-! DEFINITION. The sequences of WAKE and RECOVER (43_wake_recovery.md R150, R152). -/

namespace Sys2Proof.Machine

/-- The sequence of WAKE (R150). -/
def wakeSteps (c : Params) : List Micro :=
  [.hold .low c.tWakeLow, .hold .high c.tWakeSettle, .release, .finish .ok .none]

/-- The sequence of RECOVER: the Fast form touches no pin (R152). -/
def recoverSteps (c : Params) : Profile → List Micro
  | .slow => [.hold .low (tRec c), .hold .high (tRec c), .release, .finish .ok .none]
  | .fast => [.finish .ok .none]

end Sys2Proof.Machine
end

