-- ==== Sys2Proof/Machine/Sequencer.lean ====
section
/-! DEFINITION. The sequencer phase of a tick (20_memory.md R61 a): one operation of the running command at a time. -/

namespace Sys2Proof.Machine

/-- One operation `m` of the sequencer, with `k` after it. -/
def Inst.perform (b : Inst) (m : Micro) (k : List Micro) : Inst :=
  match m with
  | .hold v d => b.doHold v d k
  | .release => b.doRelease k
  | .wait d => b.doWait d k
  | .poll lv bound use => b.doPoll lv bound use k
  | .pollLoop lv bound use => b.doPollLoop lv bound use k
  | .sendSync => b.doSendSync k
  | .sendBit bit => b.doSendBit bit k
  | .sendBits v => b.doSendBits v k
  | .sendBitsLoop => b.doSendBitsLoop k
  | .sendBitsNext => b.doSendBitsNext k
  | .recvSync => b.doRecvSync k
  | .recvBit site => b.doRecvBit site k
  | .recvBits site => b.doRecvBits site k
  | .recvBitsLoop site => b.doRecvBitsLoop site k
  | .sendAckPulse => b.doSendAckPulse k
  | .sendByte v site => b.doSendByte v site k
  | .recvByte site => b.doRecvByte site k
  | .arbitrate => b.doArbitrate k
  | .arbLoop => b.doArbLoop k
  | .arbConfirm => b.doArbConfirm k
  | .startCondition => b.doStartCondition k
  | .gap => b.doGap k
  | .beginSend => b.doBeginSend k
  | .beginRecv => b.doBeginRecv k
  | .addrByte => b.doAddrByte k
  | .sendLength => b.doSendLength k
  | .payload => b.doPayload k
  | .payloadByte => b.doPayloadByte k
  | .payloadNext => b.doPayloadNext k
  | .readRequest => b.doReadRequest k
  | .checkAck => b.doCheckAck k
  | .lenFirst => b.doLenFirst k
  | .lenSecond b0 => b.doLenSecond b0 k
  | .checkLen => b.doCheckLen k
  | .rxPayload => b.doRxPayload k
  | .rxStore => b.doRxStore k
  | .epilogue c st => b.epilogue c st
  | .finish c st => b.finish c st
  | .complete => b.complete

/-- The operation the sequencer has due in this tick, with what follows it; none when it is idle or waits past this tick. -/
def Inst.due (b : Inst) : Option (Micro × List Micro) :=
  match b.seq.phase with
  | .idle => none
  | .run _ [] => none
  | .run wakeAt (m :: k) => if wakeAt ≤ b.now then some (m, k) else none

/-- One move of the sequencer phase: the next operation due of the instance in turn; when it has none, the turn goes to the next
instance, and after the last one to the host (R61). -/
def State.sequencerMove (s : State) : State :=
  match s.inst.due with
  | some (m, k) => s.onInst fun b => b.perform m k
  | none =>
    match s.upper with
    | [] => { s with turn := .host }
    | a :: upper => { s with inst := a, lower := s.inst :: s.lower, upper := upper }

end Sys2Proof.Machine
end

