-- ==== Sys2Proof/Machine/Commands.lean ====
section
/-! DEFINITION. The meanings of the commands: what a CMD write does, in the order of 44_commands.md R160. -/

namespace Sys2Proof.Machine

/-- The answer of a meaning: every CMD write has an effect on the instance it addresses. -/
abbrev Result := Host.Outcome State Fault Refusal

/-- A CMD write up to its acceptance: while BUSY it only sets CMD_LOST (case 1, R165); else the results of the last command are
cleared and `go` decides the rest (R160). -/
def Inst.accept (b : Inst) (go : Inst → Inst) : Inst :=
  if b.status.busy then { b with status := { b.status with cmdLost := true } }
  else go { b with status := { b.status with done := false, code := .ok, stage := .none }, rxLen := 0#16 }

/-- Case 3: a sequenced command while EN = 0 is rejected (R169). -/
def Inst.whenEnabled (b : Inst) (go : Inst → Inst) : Inst :=
  if b.status.en then go b else b.completeNow .commandRejected

/-- Case 6: the operands are copied and the sequence starts in the sequencer phase of the next tick (R160, R161, R62). -/
def Inst.launch (b : Inst) (op : SeqOp) (p : Profile) (steps : List Micro) : Inst :=
  { b with
    status := { b.status with busy := true }
    seq := { b.seq with op := some op, p := p, addr := b.devAddr, len := b.txLen, phase := .run (b.now + 1) steps } }

/-- INIT (R166). -/
def execInit (s : State) : Result :=
  .next (s.onInst fun b => b.accept fun b =>
    { b.release with status := { b.status with en := true } }.completeNow .ok)

/-- DEINIT (R167). -/
def execDeinit (s : State) : Result :=
  .next (s.onInst fun b => b.accept fun b =>
    { b.release with status := { b.status with en := false } }.completeNow .ok)

/-- SEND_FRAME: refused at launch when LEN.TXLEN exceeds LMAX_TX (case 4, R162), else launched (R125). -/
def execSendFrame (p : Profile) (s : State) : Result :=
  .next (s.onInst fun b => b.accept fun b => b.whenEnabled fun b =>
    if lmaxTx b.cfg < b.txLen.toNat then b.completeNow .bufferOverrun else b.launch .sendFrame p sendFrameSteps)

/-- RECV_FRAME (R130). -/
def execRecvFrame (p : Profile) (s : State) : Result :=
  .next (s.onInst fun b => b.accept fun b => b.whenEnabled fun b => b.launch .recvFrame p recvFrameSteps)

/-- WAKE (R150), with SPEED = 0 where none is given (R87). SPEED is copied at launch as for every sequenced command (R160, R161), and
the sequence does not read it (R70; log entry 6). -/
def execWake (s : State) (p : Profile := .slow) : Result :=
  .next (s.onInst fun b => b.accept fun b => b.whenEnabled fun b => b.launch .wake p (wakeSteps b.cfg))

/-- RECOVER (R152). -/
def execRecover (p : Profile) (s : State) : Result :=
  .next (s.onInst fun b => b.accept fun b => b.whenEnabled fun b => b.launch .recover p (recoverSteps b.cfg p))

/-- Case 2: a reserved command code (R168). -/
def Inst.rejectReserved (b : Inst) : Inst := b.accept fun b => b.completeNow .commandRejected

/-- The reserved code 0x0 (R168). -/
def execReserved0 (s : State) : Result := .next (s.onInst Inst.rejectReserved)

/-- The reserved code 0x7 (R168). -/
def execReserved7 (s : State) : Result := .next (s.onInst Inst.rejectReserved)

/-- The reserved codes 0x8 to 0xF (R168). -/
def execReserved8F (_op : BitVec 4) (s : State) : Result := .next (s.onInst Inst.rejectReserved)

end Sys2Proof.Machine
end

