-- ==== Sys2Proof/Machine/HostPhase.lean ====
section
/-! DEFINITION. The host phase of a tick (20_memory.md R61 b): the host's accesses one at a time, in order (R60), and the reset
input (R210). A CMD write is handed to the step as the command its word stands for. -/

namespace Sys2Proof.Machine

/-- What the host phase does next. -/
inductive HostMove where
  /-- A CMD write: the command `i`, issued to the marked instance of `s`. -/
  | command (i : Instr) (s : State)
  | go (s : State)
  | fault (r : Fault)
  | refuse (r : Refusal)
  deriving DecidableEq, Repr

/-- A value returned to the host by a read. -/
def State.answer (s : State) (v : Word) : State := { s with seen := v :: s.seen }

/-- One host access to the marked instance (R54 to R57, R60). A BUF access while BUSY is refused (R222). -/
def State.access (s : State) (a : Access) : HostMove :=
  match a with
  | .read off width =>
    match target s.inst.cfg off width with
    | .reg r => .go (s.answer (s.inst.readReg r))
    | .buf k => if s.inst.status.busy then .refuse (.bufWhileBusy a) else .go (s.answer (0#24 ++ s.inst.readBuf k))
    | .hole => .go (s.answer 0#32)
    | .illegal => .refuse (.illegalAccess a)
  | .write off width w =>
    match target s.inst.cfg off width with
    | .reg .cmd => .command (decode w) s
    | .reg r => .go (s.onInst fun b => b.writeReg r w)
    | .buf k =>
      if s.inst.status.busy then .refuse (.bufWhileBusy a)
      else .go (s.onInst fun b => b.writeBuf k (w.extractLsb' 0 8))
    | .hole => .go s
    | .illegal => .refuse (.illegalAccess a)

/-- One host access to instance `n`, by its offset. -/
def State.accessTo (s : State) (n : Nat) (a : Access) : HostMove :=
  match s.focus n with
  | some s' => s'.access a
  | none => .fault (.noInstance n)

/-- One host access by its host address: an access to the one instance whose register block holds it (R26, R58; log entry 1). -/
def State.accessBus (s : State) (a : Access) : HostMove :=
  match s.holders a.off with
  | [(n, base)] => s.accessTo n (a.moveTo (a.off - base))
  | _ => .fault (.noRegisterBlock a.off)

/-- `wait_done`: read STATUS; go on if DONE = 1, else read again in the next tick (R87; log entry 8). `s` has the operation still at
the head of its host script, and `s'` has it done and instance `n` marked. -/
def State.waitDone (s s' : State) : State :=
  if s'.inst.status.done then s'.answer s'.inst.status.word
  else { s with seen := s'.inst.status.word :: s.seen }.endTick

/-- The payload reads that end `recv_frame`: `rdb BUF[k]` for k < n[15:0] if s[7:4] = 0, where the host's last two reads returned
RXLEN as n and, before it, STATUS as s (R87). -/
def payloadReads (n : Nat) : List Word → List HostOp
  | rxlen :: status :: _ =>
    if status.extractLsb' 4 4 = 0#4 then
      (List.range (rxlen.extractLsb' 0 16).toNat).map fun k => .access n (.read (0x100 + k) 8)
    else []
  | _ => []

/-- One move of the host phase. With nothing pending the host does nothing, and the tick ends. -/
def State.hostMove (s : State) : HostMove :=
  match s.host with
  | [] => .go s.endTick
  | .tick :: ops => .go { s with host := ops }.endTick
  | .access n a :: ops => { s with host := ops }.accessTo n a
  | .bus a :: ops => { s with host := ops }.accessBus a
  | .waitDone n :: ops =>
    match { s with host := ops }.focus n with
    | some s' => .go (s.waitDone s')
    | none => .fault (.noInstance n)
  | .readPayload n :: ops => .go { s with host := payloadReads n s.seen ++ ops }
  | .reset n :: ops =>
    match { s with host := ops }.focus n with
    | some s' => .go (s'.onInst Inst.reset)
    | none => .fault (.noInstance n)

/-! ## Host notation -/

/-- `wr REG, imm32` on instance `n`, by the register's offset (R86). -/
def wr (n off : Nat) (v : Word) : HostOp := .access n (.write off 32 v)

/-- `rd REG` on instance `n`, by the register's offset (R86). -/
def rd (n off : Nat) : HostOp := .access n (.read off 32)

/-- `wrb BUF[k], imm8` on instance `n` (R86). -/
def wrb (n k : Nat) (v : Byte) : HostOp := .access n (.write (0x100 + k) 8 (0#24 ++ v))

/-- `rdb BUF[k]` on instance `n` (R86). -/
def rdb (n k : Nat) : HostOp := .access n (.read (0x100 + k) 8)

/-- `cmd OP` with its speed option, on instance `n` (R87). -/
def cmd (n : Nat) (op : BitVec 4) (p : Profile) : HostOp := wr n 0x008 (commandWord (speedBit p) op)

/-- `clr_done` (R87). -/
def clrDone (n : Nat) : HostOp := wr n 0x014 0x00000002#32

/-- `clr_lost` (R87). -/
def clrLost (n : Nat) : HostOp := wr n 0x014 0x00000008#32

/-- The BUF writes of `send_frame`, from index `k` on (R87). -/
def wrbFrom (n : Nat) : Nat → List Byte → List HostOp
  | _, [] => []
  | k, v :: vs => wrb n k v :: wrbFrom n (k + 1) vs

/-- `send_frame a, SPD, [b0, ..., bn-1]` (R87). -/
def sendFrameProgram (n : Nat) (a : Byte) (p : Profile) (vs : List Byte) : List HostOp :=
  wrbFrom n 0 vs ++
    [wr n 0x00C (0#24 ++ a), wr n 0x010 (BitVec.ofNat 32 vs.length), cmd n 0x3#4 p, .waitDone n]

/-- `recv_frame a, SPD` (R87). -/
def recvFrameProgram (n : Nat) (a : Byte) (p : Profile) : List HostOp :=
  [wr n 0x00C (0#24 ++ a), cmd n 0x4#4 p, .waitDone n, rd n 0x018, .readPayload n]

end Sys2Proof.Machine
end

