-- ==== Sys2Proof/Machine/Step.lean ====
section
/-! DEFINITION. One step of the machine, and how a command comes to be the next one it runs. -/

namespace Sys2Proof.Machine

/-- One step: one operation of the sequencer phase, or one access of the host phase (R61). -/
def step (s : State) : Host.Outcome State Fault Refusal :=
  match s.turn with
  | .sequencer => .next s.sequencerMove
  | .host =>
    match s.hostMove with
    | .command i s' => exec i s'
    | .go s' => .next s'
    | .fault r => .fault r
    | .refuse r => .refused r

/-- The state with a CMD write of the table word `w` as the very next thing that happens, addressed to the marked instance: the block
fetches nothing (R25), its commands are the host's CMD writes (R29, R160). -/
def State.withFetchWord (s : State) (nbits w : Nat) : State :=
  { s with
    turn := .host
    host := .access s.lower.length (.write 0x008 32 (BitVec.ofNat 32 (w % 2 ^ nbits))) :: s.host }

end Sys2Proof.Machine
end

