-- ==== Sys2Proof/Safety.lean ====
section
/-! DEFINITION. What a safe state and a safe run are, in the terms the statements use: the invariant of an instance, the results a
command may report, an instance's run while the host is silent, waveforms, and the tick bounds of 70_reset_and_hazards.md. -/

namespace Sys2Proof.Machine

/-! ## The results a command may report -/

/-- The results a completed sequenced command may report (R125, R130, R150, R152, R180, R181). -/
def legalResult : SeqOp → Code → Stage → Bool
  | _, .ok, .none => true
  | .sendFrame, .arbitrationFault, .arb => true
  | .sendFrame, .ackError, st => st == .addr || st == .len || st == .payload || st == .frameAck
  | .recvFrame, .arbitrationFault, .arb => true
  | .recvFrame, .ackError, st => st == .addr || st == .len || st == .frameAck
  | .recvFrame, .receiveTimeout, st => st == .frameAck || st == .rxLen || st == .rxPayload
  | .recvFrame, .bufferOverrun, .rxLen => true
  | _, _, _ => false

/-- The results STATUS may show: those of a sequenced command, and those of a command that completes at once (R160, R162, R168). -/
def legalStatus (c : Code) (st : Stage) : Bool :=
  legalResult .sendFrame c st || legalResult .recvFrame c st
    || (c == .bufferOverrun && st == .none) || (c == .commandRejected && st == .none)

/-! ## What may stand in a running command -/

/-- The operations that sample the line (R91, R97, R120). -/
def Micro.samples : Micro → Bool
  | .pollLoop _ _ _ => true
  | .arbLoop => true
  | .arbConfirm => true
  | _ => false

/-- The calls of SendByte in command `op` (R125, R130). -/
def Site.sends (site : Site) : SeqOp → Bool
  | .sendFrame => site == .addr || site == .len || site == .payload
  | .recvFrame => site == .addr || site == .len
  | .wake => false
  | .recover => false

/-- The calls of RecvByte in command `op` (R125, R130). -/
def Site.receives (site : Site) : SeqOp → Bool
  | .sendFrame => site == .sendAck
  | .recvFrame => site == .recvAck || site == .rxLen || site == .rxPayload
  | .wake => false
  | .recover => false

/-- Whether a poll may stand in command `op`: an acknowledgment poll in a SendByte, the others in a RecvByte (R103, R110). -/
def PollUse.fits (use : PollUse) (op : SeqOp) : Bool :=
  match use with
  | .ack site => site.sends op
  | .bitHigh site => site.receives op
  | .bitLow site => site.receives op

/-- Whether a poll is part of receiving a bit. -/
def PollUse.ofBit : PollUse → Bool
  | .ack _ => false
  | .bitHigh _ => true
  | .bitLow _ => true

/-- The commands that send frames. -/
def SeqOp.isFrame : SeqOp → Bool
  | .sendFrame => true
  | .recvFrame => true
  | .wake => false
  | .recover => false

/-- An operation that stands inside a byte whose bits are being counted. -/
def Micro.inByte : Micro → Bool
  | .sendBitsLoop => true
  | .sendBitsNext => true
  | .recvBit _ => true
  | .recvBitsLoop _ => true
  | .poll _ _ use => use.ofBit
  | .pollLoop _ _ use => use.ofBit
  | _ => false

/-- An operation that stands inside one pass of a payload loop. -/
def Micro.inPass : Micro → Bool
  | .payloadByte => true
  | .payloadNext => true
  | .rxStore => true
  | _ => false

/-- An operation of a payload loop. -/
def Micro.inLoop (m : Micro) : Bool := m.inPass || m == .payload || m == .rxPayload

/-- What is known of the state when the pending operations are judged. -/
structure Known where
  /-- the pin is released -/
  released : Bool
  /-- `seq.bit < 8` -/
  bitLeft : Bool
  /-- `seq.cursor < seq.len` -/
  passOpen : Bool
  /-- `seq.len <= MAX_FRAME` -/
  lenFits : Bool
  /-- `seq.code` and `seq.stage` are a result the command may report -/
  resultLegal : Bool
  deriving DecidableEq, Repr

/-- Whether the pending operations `todo` of a running command `op` are ones the frame rules lead to: every operation belongs to the
command, samples stand where the pin is released, a byte's bits and a frame's payload are counted once, and the last operation
completes the command with the pin released. -/
def todoOk (op : SeqOp) (g : Known) : List Micro → Bool
  | [] => false
  | m :: k =>
    match m with
    | .hold _ _ => todoOk op { g with released := false } k
    | .release => todoOk op { g with released := true } k
    | .wait _ => todoOk op g k
    | .poll _ _ use =>
      g.released && use.fits op && (g.bitLeft || !use.ofBit) && !k.any Micro.inByte && todoOk op g k
    | .pollLoop _ _ use =>
      g.released && use.fits op && (g.bitLeft || !use.ofBit) && !k.any Micro.inByte && todoOk op g k
    | .sendSync => todoOk op { g with released := false } k
    | .sendBit _ => todoOk op { g with released := false } k
    | .sendBits _ => !k.any Micro.inByte && todoOk op { g with released := true } k
    | .sendBitsLoop => !k.any Micro.inByte && todoOk op { g with released := true } k
    | .sendBitsNext => g.bitLeft && !k.any Micro.inByte && todoOk op { g with released := true } k
    | .recvSync => todoOk op { g with released := true } k
    | .recvBit site => g.released && site.receives op && g.bitLeft && !k.any Micro.inByte && todoOk op g k
    | .recvBits site => g.released && site.receives op && !k.any Micro.inByte && todoOk op g k
    | .recvBitsLoop site => g.released && site.receives op && !k.any Micro.inByte && todoOk op g k
    | .sendAckPulse => todoOk op { g with released := true } k
    | .sendByte _ site => site.sends op && !k.any Micro.inByte && todoOk op { g with released := true } k
    | .recvByte site => site.receives op && !k.any Micro.inByte && todoOk op { g with released := true } k
    | .arbitrate => op.isFrame && todoOk op { g with released := true } k
    | .arbLoop => g.released && op.isFrame && todoOk op g k
    | .arbConfirm => g.released && op.isFrame && todoOk op g k
    | .startCondition => todoOk op { g with released := false } k
    | .gap => todoOk op g k
    | .beginSend => !k.any Micro.inPass && todoOk op g k
    | .beginRecv => todoOk op g k
    | .addrByte => op.isFrame && !k.any Micro.inByte && todoOk op g k
    | .sendLength => op.isFrame && !k.any Micro.inByte && todoOk op { g with released := true } k
    | .payload => op == .sendFrame && g.lenFits && !k.any Micro.inByte && !k.any Micro.inLoop && todoOk op g k
    | .payloadByte => op == .sendFrame && g.passOpen && !k.any Micro.inByte && todoOk op { g with released := true } k
    | .payloadNext =>
      op == .sendFrame && g.passOpen && g.lenFits && !k.any Micro.inByte && !k.any Micro.inLoop && todoOk op g k
    | .readRequest => op.isFrame && !k.any Micro.inByte && todoOk op { g with released := true } k
    | .checkAck => g.released && op.isFrame && todoOk op g k
    | .lenFirst => g.released && op == .recvFrame && !k.any Micro.inByte && !k.any Micro.inLoop && todoOk op g k
    | .lenSecond _ => g.released && op == .recvFrame && !k.any Micro.inByte && !k.any Micro.inLoop && todoOk op g k
    | .checkLen => g.released && op == .recvFrame && !k.any Micro.inByte && !k.any Micro.inLoop && todoOk op g k
    | .rxPayload =>
      g.released && op == .recvFrame && g.lenFits && !k.any Micro.inByte && !k.any Micro.inLoop && todoOk op g k
    | .rxStore =>
      g.released && op == .recvFrame && g.passOpen && g.lenFits && !k.any Micro.inByte && !k.any Micro.inLoop
        && todoOk op g k
    | .epilogue c st => g.released && legalResult op c st
    | .finish c st => g.released && legalResult op c st
    | .complete => g.released && g.resultLegal

/-- What is known of an instance that runs `op`. -/
def Inst.known (b : Inst) (op : SeqOp) : Known where
  released := decide (b.pin = .released)
  bitLeft := decide (b.seq.bit < 8)
  passOpen := decide (b.seq.cursor < b.seq.len.toNat)
  lenFits := decide (b.seq.len.toNat ≤ b.cfg.maxFrame)
  resultLegal := legalResult op b.seq.code b.seq.stage

/-! ## The invariant -/

/-- What holds of an instance in every state a run leads to. -/
structure Inst.Inv (b : Inst) : Prop where
  /-- The configuration meets R7's constraints. -/
  cfg_wf : b.cfg.wf = true
  /-- BUF is in its canonical form, with no byte beyond MAX_FRAME (R36). -/
  buf_wf : b.buf.wf = true
  buf_inside : ∀ c ∈ b.buf, c.1 < b.cfg.maxFrame
  /-- The ranges of R39. -/
  cursor_le : b.seq.cursor ≤ b.cfg.maxFrame
  bit_le : b.seq.bit ≤ 8
  /-- STATUS shows a result that is ever produced (R180, R181). -/
  status_legal : legalStatus b.status.code b.status.stage = true
  /-- While no command runs the sequencer is idle and the pin is released (R40, R196). -/
  idle : b.status.busy = false → b.seq.phase = .idle ∧ b.seq.op = none ∧ b.pin = .released
  /-- While a command runs the block is enabled, STATUS and RXLEN hold what its acceptance gave them (R160), and its pending
  operations are ones its rule leads to. -/
  busy : b.status.busy = true →
    b.status.en = true ∧ b.status.done = false ∧ b.status.code = .ok ∧ b.status.stage = .none ∧ b.rxLen = 0#16 ∧
    ∃ op wakeAt todo, b.seq.op = some op ∧ b.seq.phase = .run wakeAt todo ∧ todoOk op (b.known op) todo = true

/-- What holds of the machine in every state a run leads to: of every instance, and the instances stand by their numbers (R194). -/
structure State.Inv (s : State) : Prop where
  insts : ∀ b ∈ s.insts, b.Inv
  nums : s.insts.map Inst.num = List.range s.insts.length

/-! ## The run of an instance while the host is silent -/

/-- One move of an instance left to itself: its next operation due, else the end of the tick (R61). -/
def Inst.auto (b : Inst) : Inst :=
  match b.due with
  | some (m, k) => b.perform m k
  | none => b.tick

/-- `n` moves of an instance left to itself. -/
def Inst.moves : Nat → Inst → Inst
  | 0, b => b
  | n + 1, b => Inst.moves n b.auto

/-- The instance `d` ticks later, with nothing else changed. -/
def Inst.after (b : Inst) (d : Nat) : Inst := { b with now := b.now + d, peer := b.peer.drop d }

/-- The instance with its sequencer at `todo`, due at tick `wakeAt`. -/
def Inst.atPhase (b : Inst) (wakeAt : Nat) (todo : List Micro) : Inst :=
  { b with seq := { b.seq with phase := .run wakeAt todo } }

/-- A machine of one instance whose host does nothing more, at the sequencer phase of a tick. -/
structure State.Alone (s : State) : Prop where
  lower : s.lower = []
  upper : s.upper = []
  host : s.host = []
  turn : s.turn = .sequencer ∨ s.inst.due = none

/-- A machine whose host does nothing more, at any place of a tick: the instances whose turn of the sequencer phase has passed have
nothing more due, and in the host phase no instance has (R61). -/
structure State.Silent (s : State) : Prop where
  host : s.host = []
  passed : ∀ b ∈ s.lower, b.due = none
  turn : s.turn = .sequencer ∨ ∀ b ∈ s.insts, b.due = none

/-- The next thing to happen in `s` is the host's access `a` to instance `n`; `s'` is `s` with the access taken off the host's script
and instance `n` marked. -/
def State.Accesses (s : State) (n : Nat) (a : Access) (s' : State) : Prop :=
  s.turn = .host ∧ ∃ ops, s.host = .access n a :: ops ∧ { s with host := ops }.focus n = some s'

/-- The line level of the tick `j` ticks from now, with the pin as it is (R90). -/
def Inst.lineAt (b : Inst) (j : Nat) : Level := if b.pin.drivesLow || b.peerAt j then .low else .high

/-! ## Host accesses -/

/-- The accesses R54 lists: an aligned 32-bit one below 0x100, an 8-bit one from 0x100 to 0xFFF. -/
def Access.legal (a : Access) : Bool :=
  (a.width == 32 && decide (a.off < 0x100) && a.off % 4 == 0)
    || (a.width == 8 && decide (0x100 ≤ a.off) && decide (a.off ≤ 0xFFF))

/-- The accesses to a byte of BUF (R26, R36). -/
def Access.inBuf (a : Access) (c : Params) : Bool := decide (0x100 ≤ a.off) && decide (a.off < 0x100 + c.maxFrame)

/-! ## The bytes of a frame -/

/-- The byte whose SendByte is due now, if one is. -/
def Inst.sendingByte (b : Inst) : List Byte :=
  match b.due with
  | some (.sendByte v _, _) => [v]
  | _ => []

/-- The payload byte that is stored in BUF now, if one is. -/
def Inst.storingByte (b : Inst) : List Byte :=
  match b.due with
  | some (.rxStore, _) => [b.seq.shift]
  | _ => []

/-- The bytes whose SendByte starts within `n` moves of an instance left to itself, in order. -/
def Inst.sentBytes (b : Inst) : Nat → List Byte
  | 0 => []
  | n + 1 => b.sentBytes n ++ (b.moves n).sendingByte

/-- The payload bytes stored within `n` moves of an instance left to itself, in order. -/
def Inst.storedBytes (b : Inst) : Nat → List Byte
  | 0 => []
  | n + 1 => b.storedBytes n ++ (b.moves n).storingByte

/-- The device-address byte of a frame command, if ADDR names a device (R79, R80). -/
def addressByte (b : Inst) : List Byte := if b.devAddr = 0#8 then [] else [b.devAddr]

/-- The length prefix of L, from its definition as numbers (R77). -/
def prefixBytes : LenWidth → Nat → List Byte
  | .one, l => [BitVec.ofNat 8 l]
  | .two, l => [BitVec.ofNat 8 (l / 256), BitVec.ofNat 8 (l % 256)]

/-- The bytes a SEND_FRAME sends from the operands in ADDR, LEN and BUF (R79). -/
def sendFrameBytes (b : Inst) : List Byte :=
  addressByte b ++ prefixBytes b.cfg.lenWidth b.txLen.toNat ++ (List.range b.txLen.toNat).map b.readBuf

/-- The bytes a RECV_FRAME sends (R80). -/
def recvFrameBytes (b : Inst) : List Byte := addressByte b ++ prefixBytes b.cfg.lenWidth 0

/-! ## Waveforms -/

/-- The length of a bit symbol, and of the sync symbol (R72, R73). -/
def symbolTicks (t : Timing) : Nat := t.tLong + t.tShort

/-- Whether the symbol of `bit` is LOW at its tick `r`: HIGH first, long for a 1 and short for a 0 (R72). -/
def symbolLow (long short : Nat) (bit : Bool) (r : Nat) : Bool := decide ((if bit then long else short) ≤ r)

/-- Whether a byte sent by the block has the line LOW at tick `j` from its start: the sync symbol, then bits 7 to 0 (R74). -/
def sentLow (t : Timing) (v : Byte) (j : Nat) : Bool :=
  symbolLow t.tLong t.tShort (decide (1 ≤ j / symbolTicks t) && v.getLsbD (8 - j / symbolTicks t)) (j % symbolTicks t)

/-- Whether a peer that sends byte `v` with phases of `long` and `short` ticks has the line LOW at tick `j` from its first bit (R75). -/
def replyLow (long short : Nat) (v : Byte) (j : Nat) : Bool :=
  symbolLow long short (v.getLsbD (7 - j / (long + short))) (j % (long + short))

/-! ## Tick bounds (R230) -/

/-- SB, the longest SendByte (R114, R230). -/
def longestSend (c : Params) (p : Profile) : Nat :=
  9 * symbolTicks (c.timing p) + (2 * c.nAck - 2) * c.tPoll

/-- RB, the longest RecvByte (R114, R230). -/
def longestRecv (c : Params) (p : Profile) : Nat :=
  (c.timing p).tShort + (c.timing p).tLong + 16 * ((c.timing p).nRxto - 1) * c.tPoll + (c.timing p).tAck

/-- G, the longest gap (R230). -/
def longestGap (c : Params) (p : Profile) : Nat := (c.timing p).tIbd + c.ibdJitterMax

/-- `ceil(T_IDLE[p] / P) × P`, the ticks from the first arbitration sample to the first one at or after the timeout (R120). -/
def idleTicks (c : Params) (p : Profile) : Nat := ((c.timing p).tIdle + c.tPoll - 1) / c.tPoll * c.tPoll

/-- ARB, the longest arbitration (R230). -/
def longestArb (c : Params) (p : Profile) : Nat := idleTicks c p + c.tPoll

/-- ST, the start condition (R121, R230). -/
def startTicks (c : Params) (p : Profile) : Nat :=
  (c.timing p).tStart + (match p with | .slow => (c.timing .slow).tIbd | .fast => 0)

/-- LEN_WIDTH as a number (R7). -/
def LenWidth.bytes : LenWidth → Nat
  | .one => 1
  | .two => 2

/-- The number of address bytes of a frame to device address `a` (R79). -/
def addrBytes (a : Byte) : Nat := if a = 0#8 then 0 else 1

/-- The bound R230 gives for SEND_FRAME. -/
def sendBound (c : Params) (p : Profile) (a : Byte) (l : Half) : Nat :=
  1 + longestArb c p + startTicks c p
    + (addrBytes a + LenWidth.bytes c.lenWidth + l.toNat) * longestSend c p
    + (addrBytes a + LenWidth.bytes c.lenWidth + l.toNat) * longestGap c p
    + longestRecv c p + (c.timing p).tIfd

/-- The bound R230 gives for RECV_FRAME. -/
def recvBound (c : Params) (p : Profile) (a : Byte) : Nat :=
  1 + longestArb c p + startTicks c p
    + (addrBytes a + LenWidth.bytes c.lenWidth) * longestSend c p
    + (1 + LenWidth.bytes c.lenWidth + c.maxFrame) * longestRecv c p
    + (addrBytes a + 2 * LenWidth.bytes c.lenWidth + c.maxFrame) * longestGap c p
    + (c.timing p).tIfd

end Sys2Proof.Machine
end

