-- ==== Sys2Proof/Certificates/Slice0/Obligations.lean ====
section
/-! DEFINITION. The statements for the provers. -/

open Sys2Proof Sys2Proof.Machine

/-! ## Encoding -/

/-- The command words of R71's table, and words of the reserved codes of R69, decode to their commands. R71 marks the two words of WAKE
as the same command, and R70 says that WAKE ignores SPEED; that they decode to terms that differ in SPEED, since a launched WAKE copies
it (R160), is the model's choice (log entry 6, DEDUCED). -/
def Obligations.CommandWordsDecode : Prop :=
  decode 0x00000001#32 = .init ∧ decode 0x00000011#32 = .init ∧
  decode 0x00000002#32 = .deinit ∧ decode 0x00000012#32 = .deinit ∧
  decode 0x00000003#32 = .sendFrame .slow ∧ decode 0x00000013#32 = .sendFrame .fast ∧
  decode 0x00000004#32 = .recvFrame .slow ∧ decode 0x00000014#32 = .recvFrame .fast ∧
  decode 0x00000005#32 = .wake .slow ∧ decode 0x00000015#32 = .wake .fast ∧
  decode 0x00000006#32 = .recover .slow ∧ decode 0x00000016#32 = .recover .fast ∧
  decode 0x00000000#32 = .reserved0 ∧ decode 0x00000007#32 = .reserved7 ∧
  decode 0x00000008#32 = .reserved8F 0x8#4 ∧ decode 0xFFFFFFFF#32 = .reserved8F 0xF#4

/-- Decoding the word of a well-formed command gives the command back, with every operand (R68, R69). -/
def Obligations.DecodeOfEncodeIsIdentity : Prop :=
  ∀ i : Instr, i.wf = true → decode (encode i) = i

/-- Every word stands for a well-formed command whose own word has the same OP field, the same SPEED bit where the command carries SPEED,
and zero elsewhere; and words with equal bits 4:0 decode alike (R68 to R71). That WAKE is among the commands that carry SPEED, so that
its word keeps bit 4, is the model's choice (log entry 6, DEDUCED): R70 says that WAKE ignores SPEED, and R71 marks its two words as the
same command. -/
def Obligations.EncodeOfDecodeKeepsReadBits : Prop :=
  (∀ w : Word, (decode w).wf = true ∧
    (encode (decode w)).extractLsb' 0 4 = w.extractLsb' 0 4 ∧
    (encode (decode w)).extractLsb' 5 27 = 0#27 ∧
    (encode (decode w)).getLsbD 4 =
      (w.getLsbD 4 && (w.extractLsb' 0 4 == 0x3#4 || w.extractLsb' 0 4 == 0x4#4 || w.extractLsb' 0 4 == 0x5#4
        || w.extractLsb' 0 4 == 0x6#4))) ∧
  (∀ w w' : Word, w.extractLsb' 0 5 = w'.extractLsb' 0 5 → decode w = decode w')

/-- The length prefix, both ways. Sent: one byte L[7:0], or L[10:8] and then L[7:0], so bits 7:3 of the first of two are zero; the read
request is the prefix of 0 (R77, R80, R81). Received: b0, or ((b0 & RX_LEN_HIGH_MASK) << 8) | b1, as numbers, where b0 is the byte
received first and, after a gap, b1 the one received second (R78, R52). A length the prefix can carry is assembled, with either mask,
from the bytes sent for it. -/
def Obligations.LengthPrefixAssembly : Prop :=
  (∀ l : Half, ∃ b0 : Byte, lenBytes .one l = [b0] ∧ b0.toNat = l.toNat % 256 ∧ (l.toNat ≤ 255 → rxLength1 b0 = l)) ∧
  (∀ (l : Half) (m : LenMask), ∃ b0 b1 : Byte, lenBytes .two l = [b0, b1] ∧
    b0.toNat = l.toNat / 256 % 8 ∧ b1.toNat = l.toNat % 256 ∧ (l.toNat ≤ 2047 → rxLength m b0 b1 = l)) ∧
  (requestBytes .one = [0#8] ∧ requestBytes .two = [0#8, 0#8] ∧ ∀ w : LenWidth, lenBytes w 0#16 = requestBytes w) ∧
  (∀ b0 : Byte, (rxLength1 b0).toNat = b0.toNat) ∧
  (∀ b0 b1 : Byte, (rxLength .low3 b0 b1).toNat = b0.toNat % 8 * 256 + b1.toNat) ∧
  (∀ b0 b1 : Byte, (rxLength .all8 b0 b1).toNat = b0.toNat * 256 + b1.toNat) ∧
  (∀ (b : Inst) (k : List Micro), b.cfg.lenWidth = .one →
    b.perform .lenFirst k = { b with seq := { b.seq with len := rxLength1 b.seq.shift, phase := .run b.now k } }) ∧
  (∀ (b : Inst) (k : List Micro), b.cfg.lenWidth = .two →
    b.perform .lenFirst k = { b with seq := { b.seq with
      phase := .run b.now (.gap :: .recvByte .rxLen :: .lenSecond b.seq.shift :: k) } }) ∧
  (∀ (b : Inst) (b0 : Byte) (k : List Micro),
    b.perform (.lenSecond b0) k = { b with seq := { b.seq with
      len := rxLength b.cfg.rxLenHighMask b0 b.seq.shift, phase := .run b.now k } })

/-! ## Reset -/

/-- Right after reset there are NBUS instances, numbered from 0, and every one has the values of R42's table, as its registers read
and in its hidden state. BUF is unwritten: each byte reads as its own free value. -/
def Obligations.ResetLeavesTableValues : Prop :=
  State.reset.insts.length = Config.nbus ∧
  State.reset.insts.map Inst.num = List.range Config.nbus ∧
  ∀ b ∈ State.reset.insts,
    b.now = 0 ∧ b.pin = { dir := .input, out := .high } ∧
    b.readReg .config = BitVec.ofNat 16 b.cfg.maxFrame ++ 0#15 ++ BitVec.ofBool (decide (b.cfg.lenWidth = .two)) ∧
    b.readReg .ctrl = 0#32 ∧ b.readReg .cmd = 0#32 ∧ b.readReg .addr = 0#32 ∧ b.readReg .len = 0#32 ∧
    b.readReg .status = 0#32 ∧ b.readReg .rxLen = 0#32 ∧
    (∀ k, b.readBuf k = Config.bufDraw b.num 0 k) ∧
    b.seq.phase = .idle ∧ b.irq = false

/-- The reset input puts every piece of the instance's state at its reset value in one step, whatever it was doing; the other
instances are untouched, and the free values of BUF are drawn anew (R210). That it lands between two moves of the host phase, and that
the peer's script goes on, is the model's choice (log entry 7). -/
def Obligations.ResetInputRestoresTableValues : Prop :=
  ∀ (s s' : State) (n : Nat) (ops : List HostOp), s.turn = .host → s.host = .reset n :: ops →
    { s with host := ops }.focus n = some s' →
    ∃ b : Inst, step s = .next { s' with inst := b } ∧
      b.cfg = s'.inst.cfg ∧ b.num = s'.inst.num ∧ b.peer = s'.inst.peer ∧
      b.now = 0 ∧ b.pin = { dir := .input, out := .high } ∧ b.ie = false ∧ b.devAddr = 0#8 ∧ b.txLen = 0#16 ∧
      b.status.word = 0#32 ∧ b.rxLen = 0#16 ∧ b.seq.phase = .idle ∧ b.irq = false ∧
      ∀ k, b.readBuf k = Config.bufDraw b.num (s'.inst.resets + 1) k

/-- The invariant holds right after reset. -/
def Obligations.ResetMeetsInvariant : Prop := State.reset.Inv

/-! ## The step -/

/-- A CMD write that is the next host access is the command its word decodes to, issued to the instance it addresses; so the word of a
well-formed command runs that command. -/
def Obligations.StepRunsDecodedCommand : Prop :=
  (∀ (s s' : State) (n : Nat) (w : Word), s.Accesses n (.write 0x008 32 w) s' → step s = exec (decode w) s') ∧
  (∀ (s s' : State) (n : Nat) (i : Instr), i.wf = true → s.Accesses n (.write 0x008 32 (encode i)) s' → step s = exec i s')

/-- `withFetchWord` makes the very next step run exactly the command the decoder reads from the word, on the marked instance: the block
fetches nothing, so that a command is placed as the host's next CMD write is the model's choice (log entry 4). -/
def Obligations.FetchWordRunsNext : Prop :=
  ∀ (s : State) (nbits w : Nat) (i : Instr), decodeTableWord nbits w = some i →
    step (s.withFetchWord nbits w) = exec i { s with turn := .host }

/-- The end of a tick advances every instance's time by exactly 1 and takes the next draw of its peer, and changes nothing else of it;
the next tick begins with the sequencer (R21, R61). R21 and R61 speak of one instance; that all instances share one tick, so that they
advance together, is the model's choice (log entry 1, DESIGN CHOICE). -/
def Obligations.TickAdvancesEveryInstance : Prop :=
  ∀ s : State, s.turn = .host → (s.host = [] ∨ ∃ ops, s.host = .tick :: ops) →
    ∃ t, step s = .next t ∧ t.turn = .sequencer ∧ t.lower = [] ∧ t.host = s.host.tail ∧ t.seen = s.seen ∧
      t.insts = s.insts.map fun b => { b with now := b.now + 1, peer := b.peer.tail }

/-- With a silent host the machine runs through exactly the moves of its instances, each left to itself. In every state of the run each
instance stands at one of its own moves, the host has its turn only when no instance has an operation due, and so every instance has its
turn in the sequencer phase of every tick (R61, R170, R194); in configurations within R7's constraints every move of every instance is
reached. A step of the sequencer phase leaves every instance but the one in turn alone. In a machine of one instance every move is reached
whatever the configuration. That the instances share one tick is the model's choice (log entry 1, DESIGN CHOICE). -/
def Obligations.SilentRunFollowsMoves : Prop :=
  (∀ (s t : State) (k : Nat), s.Silent → Sys2Proof.core.run k s = .next t →
    t.host = [] ∧ t.seen = s.seen ∧ (∀ b ∈ t.lower, b.due = none) ∧ (t.turn = .sequencer ∨ ∀ b ∈ t.insts, b.due = none) ∧
    t.insts.length = s.insts.length ∧ ∀ (i : Nat) (b : Inst), s.insts[i]? = some b → ∃ n, t.insts[i]? = some (b.moves n)) ∧
  (∀ (s : State) (i n : Nat) (b : Inst), s.Silent → (∀ c ∈ s.insts, c.cfg.wf = true) → s.insts[i]? = some b →
    ∃ k t, Sys2Proof.core.run k s = .next t ∧ t.insts[i]? = some (b.moves n)) ∧
  (∀ s : State, s.turn = .sequencer →
    ∃ t, step s = .next t ∧ t.insts.length = s.insts.length ∧ ∀ j, j ≠ s.lower.length → t.insts[j]? = s.insts[j]?) ∧
  (∀ s : State, s.Alone →
    (∀ k t, Sys2Proof.core.run k s = .next t → ∃ n, t.inst = s.inst.moves n) ∧
    (∀ n, ∃ k t, Sys2Proof.core.run k s = .next t ∧ t.inst = s.inst.moves n ∧ t.seen = s.seen ∧ t.Alone))

/-! ## Command dispatch -/

/-- While BUSY = 1 a CMD write of any word sets CMD_LOST and changes nothing else (R165). -/
def Obligations.BusyCommandOnlySetsCmdLost : Prop :=
  ∀ (i : Instr) (s : State), s.inst.status.busy = true →
    exec i s = .next { s with inst := { s.inst with status := { s.inst.status with cmdLost := true } } }

/-- INIT releases the pin, sets EN and completes at once with Ok; DEINIT releases the pin, clears EN and completes at once with Ok; nothing
else changes but what every accepted command clears (R166, R167). -/
def Obligations.InitAndDeinitCompleteAtOnce : Prop :=
  ∀ s : State, s.inst.status.busy = false →
    exec .init s = .next { s with inst := { s.inst with
      pin := { dir := .input, out := .high }
      rxLen := 0#16
      status := { s.inst.status with en := true, done := true, code := .ok, stage := .none } } } ∧
    exec .deinit s = .next { s with inst := { s.inst with
      pin := { dir := .input, out := .high }
      rxLen := 0#16
      status := { s.inst.status with en := false, done := true, code := .ok, stage := .none } } }

/-- A reserved command completes at once with CommandRejected; nothing else changes, the line least of all (R168). -/
def Obligations.ReservedCommandIsRejected : Prop :=
  ∀ (i : Instr) (s : State), (i = .reserved0 ∨ i = .reserved7 ∨ ∃ op, i = .reserved8F op) → s.inst.status.busy = false →
    exec i s = .next { s with inst := { s.inst with
      rxLen := 0#16
      status := { s.inst.status with done := true, code := .commandRejected, stage := .none } } }

/-- While EN = 0 a sequenced command completes at once with CommandRejected, whatever LEN holds, and touches nothing else (R169, R164). -/
def Obligations.DisabledBlockRejectsSequencedCommand : Prop :=
  ∀ (i : Instr) (s : State), ((∃ p, i = .sendFrame p) ∨ (∃ p, i = .recvFrame p) ∨ (∃ p, i = .wake p) ∨ (∃ p, i = .recover p)) →
    s.inst.status.busy = false → s.inst.status.en = false →
    exec i s = .next { s with inst := { s.inst with
      rxLen := 0#16
      status := { s.inst.status with done := true, code := .commandRejected, stage := .none } } }

/-- A SEND_FRAME whose LEN.TXLEN exceeds min(MAX_FRAME, LMAX_PREFIX) completes at once with BufferOverrun and puts nothing on the line
(R162). -/
def Obligations.OverlongSendOverrunsAtLaunch : Prop :=
  ∀ (p : Profile) (s : State), s.inst.status.busy = false → s.inst.status.en = true →
    min s.inst.cfg.maxFrame (if s.inst.cfg.lenWidth = .one then 255 else 2047) < s.inst.txLen.toNat →
    exec (.sendFrame p) s = .next { s with inst := { s.inst with
      rxLen := 0#16
      status := { s.inst.status with done := true, code := .bufferOverrun, stage := .none } } }

/-- A SEND_FRAME within the length bound is launched: its operands are copied, BUSY is set, and in the next tick its sequence begins:
arbitration, the start condition, the address byte, the length prefix, the payload, the frame-acknowledgment byte after a gap and its
check, and the epilogue (R125, R160, R161, R62). -/
def Obligations.SendFrameLaunches : Prop :=
  ∀ (p : Profile) (s : State), s.inst.status.busy = false → s.inst.status.en = true →
    s.inst.txLen.toNat ≤ min s.inst.cfg.maxFrame (if s.inst.cfg.lenWidth = .one then 255 else 2047) →
    exec (.sendFrame p) s = .next { s with inst := { s.inst with
      rxLen := 0#16
      status := { s.inst.status with busy := true, done := false, code := .ok, stage := .none }
      seq := { s.inst.seq with
        op := some .sendFrame, p := p, addr := s.inst.devAddr, len := s.inst.txLen
        phase := .run (s.inst.now + 1)
          [.beginSend, .arbitrate, .startCondition, .addrByte, .sendLength, .payload,
            .gap, .recvByte .sendAck, .checkAck, .epilogue .ok .none] } } }

/-- A RECV_FRAME is launched, whatever LEN holds: its operands are copied, BUSY is set, and in the next tick its sequence begins:
arbitration, the start condition, the address byte, the read request, the frame-acknowledgment byte after a gap and its check, the
first length byte after a gap, what follows it, and the epilogue (R130, R160, R161, R62). -/
def Obligations.RecvFrameLaunches : Prop :=
  ∀ (p : Profile) (s : State), s.inst.status.busy = false → s.inst.status.en = true →
    exec (.recvFrame p) s = .next { s with inst := { s.inst with
      rxLen := 0#16
      status := { s.inst.status with busy := true, done := false, code := .ok, stage := .none }
      seq := { s.inst.seq with
        op := some .recvFrame, p := p, addr := s.inst.devAddr, len := s.inst.txLen
        phase := .run (s.inst.now + 1)
          [.beginRecv, .arbitrate, .startCondition, .addrByte, .readRequest,
            .gap, .recvByte .recvAck, .checkAck, .gap, .recvByte .rxLen, .lenFirst, .checkLen, .epilogue .ok .none] } } }

/-- WAKE is launched: its operands are copied, SPEED among them, BUSY is set, and in the next tick its sequence begins: LOW for T_WAKE_LOW,
HIGH for T_WAKE_SETTLE, release, completion with Ok (R150, R160, R161, R62). That SPEED is copied although R70 says that WAKE ignores it
is log entry 6. -/
def Obligations.WakeLaunches : Prop :=
  ∀ (p : Profile) (s : State), s.inst.status.busy = false → s.inst.status.en = true →
    exec (.wake p) s = .next { s with inst := { s.inst with
      rxLen := 0#16
      status := { s.inst.status with busy := true, done := false, code := .ok, stage := .none }
      seq := { s.inst.seq with
        op := some .wake, p := p, addr := s.inst.devAddr, len := s.inst.txLen
        phase := .run (s.inst.now + 1)
          [.hold .low s.inst.cfg.tWakeLow, .hold .high s.inst.cfg.tWakeSettle, .release, .finish .ok .none] } } }

/-- RECOVER is launched: the Slow form holds LOW and then HIGH for 100000 microseconds each, the Fast form only completes (R160, R152). -/
def Obligations.RecoverLaunches : Prop :=
  ∀ (p : Profile) (s : State), s.inst.status.busy = false → s.inst.status.en = true →
    exec (.recover p) s = .next { s with inst := { s.inst with
      rxLen := 0#16
      status := { s.inst.status with busy := true, done := false, code := .ok, stage := .none }
      seq := { s.inst.seq with
        op := some .recover, p := p, addr := s.inst.devAddr, len := s.inst.txLen
        phase := .run (s.inst.now + 1) (match p with
          | .slow => [.hold .low (100000 * s.inst.cfg.ticksPerUs), .hold .high (100000 * s.inst.cfg.ticksPerUs), .release,
              .finish .ok .none]
          | .fast => [.finish .ok .none]) } } }

/-- What every command leaves unchanged: time, CTRL, ADDR, LEN, every byte of BUF, the line's environment, the other instances and the
host's script; the pin and EN except by INIT and DEINIT; CMD_LOST unless BUSY; and the pin is never made to drive LOW (R56, R163). -/
def Obligations.CommandFrame : Prop :=
  ∀ (i : Instr) (s t : State), exec i s = .next t →
    t.lower = s.lower ∧ t.upper = s.upper ∧ t.turn = s.turn ∧ t.host = s.host ∧ t.seen = s.seen ∧
    t.inst.cfg = s.inst.cfg ∧ t.inst.num = s.inst.num ∧ t.inst.now = s.inst.now ∧ t.inst.ie = s.inst.ie ∧
    t.inst.devAddr = s.inst.devAddr ∧ t.inst.txLen = s.inst.txLen ∧ (∀ k, t.inst.readBuf k = s.inst.readBuf k) ∧
    t.inst.peer = s.inst.peer ∧ t.inst.gaps = s.inst.gaps ∧ t.inst.resets = s.inst.resets ∧
    (i ≠ .init → i ≠ .deinit → t.inst.pin = s.inst.pin ∧ t.inst.status.en = s.inst.status.en) ∧
    (s.inst.status.busy = false → t.inst.status.cmdLost = s.inst.status.cmdLost) ∧
    (t.inst.pin.drivesLow = true → s.inst.pin.drivesLow = true)

/-! ## Host accesses -/

/-- A host access is refused, by name, exactly when R54 does not list it or when it is to BUF while BUSY = 1; every other access goes on
(R54, R190, R222). -/
def Obligations.ProtocolViolationIsRefused : Prop :=
  ∀ (s s' : State) (n : Nat) (a : Access), s.Accesses n a s' → s'.inst.cfg.wf = true →
    (a.legal = false → step s = .refused (.illegalAccess a)) ∧
    (a.legal = true → s'.inst.status.busy = true → a.inBuf s'.inst.cfg = true → step s = .refused (.bufWhileBusy a)) ∧
    (a.legal = true → s'.inst.status.busy = false ∨ a.inBuf s'.inst.cfg = false → ∃ t, step s = .next t)

/-- A host access reaches the instance it names. By number and offset: the access is to instance n as it stands, and the step changes no
other instance; an instance that does not exist, there being NBUS of them numbered from 0 (R194), is a fault by name. By host address: it is the access to the one instance n with
INSTANCE_BASE(n) <= address < INSTANCE_BASE(n) + 4096 at the offset address - INSTANCE_BASE(n) (R26, R58, R7); an address that no register
block holds, or more than one, is a fault by name. The faults are the model's choice (log entry 1). -/
def Obligations.HostAccessReachesItsInstance : Prop :=
  ∀ (s : State) (a : Access) (ops : List HostOp), s.turn = .host →
    (∀ (n : Nat) (b : Inst), s.host = .access n a :: ops → s.insts[n]? = some b →
      (∃ s', s.Accesses n a s' ∧ s'.inst = b ∧ s'.lower.length = n ∧ s'.insts = s.insts ∧ s'.turn = .host ∧ s'.host = ops ∧
        s'.seen = s.seen) ∧
      ∀ t, step s = .next t → t.lower.length = n ∧ t.insts = s.insts.set n t.inst) ∧
    (∀ n, s.host = .access n a :: ops → s.insts.length ≤ n → step s = .fault (.noInstance n)) ∧
    (∀ (n : Nat) (b : Inst), s.host = .bus a :: ops → s.insts[n]? = some b →
      b.cfg.base ≤ a.off → a.off < b.cfg.base + 4096 →
      (∀ (m : Nat) (c : Inst), s.insts[m]? = some c → m ≠ n → ¬(c.cfg.base ≤ a.off ∧ a.off < c.cfg.base + 4096)) →
      step s = step { s with host := .access n (match a with
        | .read off width => .read (off - b.cfg.base) width
        | .write off width w => .write (off - b.cfg.base) width w) :: ops }) ∧
    (s.host = .bus a :: ops → (∀ c ∈ s.insts, ¬(c.cfg.base ≤ a.off ∧ a.off < c.cfg.base + 4096)) →
      step s = .fault (.noRegisterBlock a.off)) ∧
    (∀ (m n : Nat) (c d : Inst), s.host = .bus a :: ops → m ≠ n → s.insts[m]? = some c → s.insts[n]? = some d →
      c.cfg.base ≤ a.off → a.off < c.cfg.base + 4096 → d.cfg.base ≤ a.off → a.off < d.cfg.base + 4096 →
      step s = .fault (.noRegisterBlock a.off))

/-- What a read returns: a register by its offset, below 0x100; from 0x100 on, while BUSY = 0, the byte of BUF; and zero beyond BUF,
also while BUSY = 1. The read changes no state of the block (R26 to R37, R54, R56). -/
def Obligations.ReadsAnswerAndChangeNothing : Prop :=
  ∀ (s s' : State) (n off : Nat),
    (off < 0x100 → off % 4 = 0 → s.Accesses n (.read off 32) s' →
      step s = .next { s' with seen :=
        (if off = 0x000 then BitVec.ofNat 16 s'.inst.cfg.maxFrame ++ 0#15 ++ BitVec.ofBool (decide (s'.inst.cfg.lenWidth = .two))
         else if off = 0x004 then 0#31 ++ BitVec.ofBool s'.inst.ie
         else if off = 0x00C then 0#24 ++ s'.inst.devAddr
         else if off = 0x010 then 0#16 ++ s'.inst.txLen
         else if off = 0x014 then s'.inst.status.word
         else if off = 0x018 then 0#16 ++ s'.inst.rxLen
         else 0#32) :: s'.seen }) ∧
    (0x100 ≤ off → off ≤ 0xFFF → s'.inst.status.busy = false → s.Accesses n (.read off 8) s' →
      step s = .next { s' with seen :=
        (if off < 0x100 + s'.inst.cfg.maxFrame then 0#24 ++ s'.inst.readBuf (off - 0x100) else 0#32) :: s'.seen }) ∧
    (0x100 + s'.inst.cfg.maxFrame ≤ off → off ≤ 0xFFF → s.Accesses n (.read off 8) s' →
      step s = .next { s' with seen := 0#32 :: s'.seen })

/-- A write to CTRL, ADDR or LEN stores the register's field, also while BUSY = 1, and does nothing else; a write to CONFIG, RXLEN, a
reserved register offset or a byte beyond BUF changes nothing (R27, R28, R30, R31, R35, R37, R56). -/
def Obligations.RegisterWritesStoreOrAreIgnored : Prop :=
  ∀ (s s' : State) (n off : Nat) (w : Word),
    (s.Accesses n (.write 0x004 32 w) s' → step s = .next { s' with inst := { s'.inst with ie := w.getLsbD 0 } }) ∧
    (s.Accesses n (.write 0x00C 32 w) s' → step s = .next { s' with inst := { s'.inst with devAddr := w.extractLsb' 0 8 } }) ∧
    (s.Accesses n (.write 0x010 32 w) s' → step s = .next { s' with inst := { s'.inst with txLen := w.extractLsb' 0 16 } }) ∧
    (off < 0x100 → off % 4 = 0 → off = 0x000 ∨ 0x018 ≤ off → s.Accesses n (.write off 32 w) s' → step s = .next s') ∧
    (0x100 + s'.inst.cfg.maxFrame ≤ off → off ≤ 0xFFF → s.Accesses n (.write off 8 w) s' → step s = .next s')

/-- A write to STATUS clears DONE where its bit 1 is set and CMD_LOST where its bit 3 is set; every other bit of the written value is
ignored, no bit is set, and BUSY, EN, CODE and STAGE do not change (R33). -/
def Obligations.StatusWriteOnlyClears : Prop :=
  ∀ (s s' : State) (n : Nat) (w : Word), s.Accesses n (.write 0x014 32 w) s' →
    step s = .next { s' with inst := { s'.inst with status := { s'.inst.status with
      done := if w.getLsbD 1 then false else s'.inst.status.done
      cmdLost := if w.getLsbD 3 then false else s'.inst.status.cmdLost } } }

/-- A write to a byte of BUF while BUSY = 0 stores it: that byte reads as written, every other byte as before, nothing else of the
instance changes, and BUF stays in its canonical form (R36, R53, R56). -/
def Obligations.BufWriteStoresOneByte : Prop :=
  ∀ (s s' : State) (n k : Nat) (w : Word), s'.inst.status.busy = false → k < s'.inst.cfg.maxFrame → s'.inst.cfg.maxFrame ≤ 2047 →
    s'.inst.buf.wf = true → s.Accesses n (.write (0x100 + k) 8 w) s' →
    ∃ m : Memory, step s = .next { s' with inst := { s'.inst with buf := m } } ∧ m.wf = true ∧
      ∀ j, { s'.inst with buf := m }.readBuf j = if j = k then w.extractLsb' 0 8 else s'.inst.readBuf j

/-- The STATUS word bit by bit (R32), with the numbers of the result codes (R180) and of the stages (R181). -/
def Obligations.StatusWordLayout : Prop :=
  (∀ s : Status,
    s.word.getLsbD 0 = s.busy ∧ s.word.getLsbD 1 = s.done ∧ s.word.getLsbD 2 = s.en ∧ s.word.getLsbD 3 = s.cmdLost ∧
    s.word.extractLsb' 4 4 = (match s.code with
      | .ok => 0#4 | .arbitrationFault => 1#4 | .ackError => 2#4 | .receiveTimeout => 3#4 | .bufferOverrun => 4#4
      | .commandRejected => 5#4) ∧
    s.word.extractLsb' 8 3 = (match s.stage with
      | .none => 0#3 | .arb => 1#3 | .addr => 2#3 | .len => 3#3 | .payload => 4#3 | .frameAck => 5#3 | .rxLen => 6#3
      | .rxPayload => 7#3) ∧
    s.word.extractLsb' 11 21 = 0#21)

/-- IRQ is the level CTRL.IE and DONE: the completion of a command raises it when IE = 1, be it by the sequencer or inside the CMD write
(INIT, DEINIT, a reserved, a disabled or an overlong command: R160), enabling IE while DONE = 1 raises it at once, clearing DONE or the
launch of a sequenced command ends it, and a command lost to BUSY leaves it as it is (R187, R165). -/
def Obligations.InterruptFollowsCompletion : Prop :=
  (∀ (b : Inst) (k : List Micro), (b.perform .complete k).irq = b.ie) ∧
  (∀ (s : State) (i : Instr) (p : Profile), s.inst.status.busy = false →
    (i = .init ∨ i = .deinit) ∨ (i = .reserved0 ∨ i = .reserved7 ∨ ∃ op, i = .reserved8F op) ∨
      (s.inst.status.en = false ∧ (i = .sendFrame p ∨ i = .recvFrame p ∨ i = .wake p ∨ i = .recover p)) ∨
      (i = .sendFrame p ∧ min s.inst.cfg.maxFrame (if s.inst.cfg.lenWidth = .one then 255 else 2047) < s.inst.txLen.toNat) →
    ∃ t, exec i s = .next t ∧ t.inst.irq = s.inst.ie) ∧
  (∀ (s : State) (i : Instr), s.inst.status.busy = true → ∃ t, exec i s = .next t ∧ t.inst.irq = s.inst.irq) ∧
  (∀ (s s' : State) (n : Nat) (w : Word), s'.inst.status.done = true → w.getLsbD 0 = true → s.Accesses n (.write 0x004 32 w) s' →
    ∃ t, step s = .next t ∧ t.inst.irq = true) ∧
  (∀ (s s' : State) (n : Nat) (w : Word), w.getLsbD 1 = true → s.Accesses n (.write 0x014 32 w) s' →
    ∃ t, step s = .next t ∧ t.inst.irq = false) ∧
  (∀ (s t : State) (i : Instr) (p : Profile),
    (i = .sendFrame p ∧ s.inst.txLen.toNat ≤ min s.inst.cfg.maxFrame (if s.inst.cfg.lenWidth = .one then 255 else 2047)) ∨
      i = .recvFrame p ∨ i = .wake p ∨ i = .recover p →
    s.inst.status.busy = false → s.inst.status.en = true → exec i s = .next t → t.inst.irq = false)

/-- No host access, a CMD write included, disturbs a running command: pin, time, sequencer, BUF, RXLEN, BUSY and EN of the addressed
instance are as before (R112, R136, R165). -/
def Obligations.HostAccessKeepsRunningCommand : Prop :=
  ∀ (s s' t : State) (n : Nat) (a : Access), s.Accesses n a s' → s'.inst.status.busy = true → step s = .next t →
    t.inst.pin = s'.inst.pin ∧ t.inst.now = s'.inst.now ∧ t.inst.seq = s'.inst.seq ∧ t.inst.buf = s'.inst.buf ∧
    t.inst.status.busy = true ∧ t.inst.status.en = s'.inst.status.en ∧ t.inst.rxLen = s'.inst.rxLen ∧
    t.inst.peer = s'.inst.peer

/-- No access to one instance, and no reset of it, affects another (R67). -/
def Obligations.AccessesLeaveOtherInstancesAlone : Prop :=
  ∀ (s t : State) (n m : Nat) (ops : List HostOp), s.turn = .host →
    ((∃ a, s.host = .access n a :: ops) ∨ s.host = .reset n :: ops) → step s = .next t → m ≠ n →
    t.insts[m]? = s.insts[m]?

/-! ## The line and time primitives -/

/-- The line is HIGH exactly when neither the block drives it LOW, as an output at 0, nor the peer does (R23, R90): the specification
marks that the line is the wired AND of its drivers and that an output at 1 releases it as general knowledge (log entry 13, PRESUMED). -/
def Obligations.LineIsWiredAnd : Prop :=
  ∀ b : Inst, (b.line = .high ↔ ¬(b.pin.dir = .output ∧ b.pin.out = .low) ∧ b.peerLow = false) ∧
    b.line = b.lineAt 0 ∧ ∀ j, (b.after j).line = b.lineAt j

/-- Hold(v, d): the pin is an output at v during d ticks, and then the command goes on; nothing else changes (R93). -/
def Obligations.HoldKeepsLevelForItsTicks : Prop :=
  ∀ (b : Inst) (v : Level) (d : Nat) (k : List Micro), b.due = some (.hold v d, k) →
    (∀ n, (b.moves n).due = none → (b.moves n).now < b.now + d → (b.moves n).pin = { dir := .output, out := v }) ∧
    ∃ n, b.moves n = { b.after d with pin := { dir := .output, out := v } }.atPhase (b.now + d) k

/-- PollWhile(level, N): if the samples at the poll times before the c-th all see the level and the one at the c-th does not, with c < N, the
poll ends at the c-th poll time with the count c; if the first N samples all see the level, it ends at the (N - 1)-th poll time with
TIMEOUT (R97). -/
def Obligations.PollWhileCountsOrTimesOut : Prop :=
  ∀ (b : Inst) (lv : Level) (bound : Nat) (use : PollUse) (k : List Micro), b.due = some (.poll lv bound use, k) →
    1 ≤ b.cfg.tPoll → 1 ≤ bound →
    (∀ c, c < bound → (∀ i, i < c → b.lineAt (i * b.cfg.tPoll) = lv) → b.lineAt (c * b.cfg.tPoll) ≠ lv →
      ∃ n, b.moves n = { b.after (c * b.cfg.tPoll) with seq := { b.seq with n := c } }.polled use c k) ∧
    ((∀ i, i < bound → b.lineAt (i * b.cfg.tPoll) = lv) →
      ∃ n, b.moves n = { b.after ((bound - 1) * b.cfg.tPoll) with seq := { b.seq with n := bound } }.pollTimeout use)

/-- The sequencer copies its operands at launch: what it does never depends on CTRL, ADDR or LEN, nor changes them (R161, R66). -/
def Obligations.OperandsAreLatched : Prop :=
  ∀ (b : Inst) (n : Nat) (e : Bool) (a : Byte) (l : Half),
    { b with ie := e, devAddr := a, txLen := l }.moves n = { b.moves n with ie := e, devAddr := a, txLen := l }

/-! ## The bit codec and the byte transceiver -/

/-- The end of a received bit: it is 1 exactly when the HIGH count exceeds the LOW count, so a tie is 0; it enters the byte from the
right, and the next bit is measured at once (R103, R104, R83). -/
def Obligations.ReceivedBitShiftsIn : Prop :=
  ∀ (b : Inst) (site : Site) (l : Nat) (k : List Micro),
    (b.polled (.bitLow site) l k).seq.shift.toNat = (b.seq.shift.toNat * 2 + if l < b.seq.h then 1 else 0) % 256 ∧
    (b.polled (.bitLow site) l k).seq.bit = b.seq.bit + 1 ∧
    (b.polled (.bitLow site) l k).seq.phase = .run b.now (.recvBitsLoop site :: k) ∧
    (b.polled (.bitLow site) l k).pin = b.pin ∧ (b.polled (.bitLow site) l k).now = b.now

/-- A sent byte on the line: the sync symbol, then its bits from bit 7 to bit 0, for exactly 9 × (T_LONG + T_SHORT) ticks, then release
and the acknowledgment wait (R74). -/
def Obligations.SentByteWaveform : Prop :=
  ∀ (b : Inst) (v : Byte) (site : Site) (k : List Micro), b.cfg.wf = true → b.due = some (.sendByte v site, k) →
    (∀ n, (b.moves n).due = none → (b.moves n).now < b.now + 9 * symbolTicks b.timing →
      (b.moves n).pin.drivesLow = sentLow b.timing v ((b.moves n).now - b.now)) ∧
    ∃ n, b.moves n =
      { (b.after (9 * symbolTicks b.timing)).release with
        seq := { b.seq with
          shift := v, bit := 8
          phase := .run (b.now + 9 * symbolTicks b.timing)
            (.poll .high b.cfg.nAck (.ack site) :: .poll .low b.cfg.nAck (.ack site) :: k) } }

/-- SendByte with an acknowledgment: if after the release the line is HIGH at a samples, then LOW at c samples, then HIGH, with both
counts below N_ACK, the command goes on at the tick of that last sample, with the pin released (R110, R231). -/
def Obligations.AcknowledgedByteGoesOn : Prop :=
  ∀ (b : Inst) (v : Byte) (site : Site) (k : List Micro) (a c : Nat),
    b.cfg.wf = true → b.due = some (.sendByte v site, k) → a < b.cfg.nAck → c < b.cfg.nAck →
    (∀ i, i < a → b.peerAt (9 * symbolTicks b.timing + i * b.cfg.tPoll) = false) →
    (∀ i, i < c → b.peerAt (9 * symbolTicks b.timing + (a + i) * b.cfg.tPoll) = true) → 1 ≤ c →
    b.peerAt (9 * symbolTicks b.timing + (a + c) * b.cfg.tPoll) = false →
    ∃ n, (b.moves n).now = b.now + 9 * symbolTicks b.timing + (a + c) * b.cfg.tPoll ∧
      (b.moves n).seq.phase = .run (b.moves n).now k ∧ (b.moves n).pin = { dir := .input, out := .high }

/-- SendByte without an acknowledgment: if the line is HIGH at the N_ACK samples after the release, or goes LOW and then stays LOW for N_ACK
samples, the byte fails with AckError at the last of them, with the pin released; the stage is ADDR, LEN or PAYLOAD by the byte's place
in the frame, and after the device-address byte there is no inter-frame delay (R110, R114, R125, R126, R130, R181). -/
def Obligations.UnacknowledgedByteFails : Prop :=
  ∀ (b : Inst) (v : Byte) (site : Site) (stage : Stage) (k : List Micro),
    b.cfg.wf = true → b.due = some (.sendByte v site, k) →
    (site = .addr ∧ stage = .addr) ∨ (site = .len ∧ stage = .len) ∨ (site = .payload ∧ stage = .payload) →
    ((∀ i, i < b.cfg.nAck → b.peerAt (9 * symbolTicks b.timing + i * b.cfg.tPoll) = false) →
      ∃ n, (b.moves n).now = b.now + 9 * symbolTicks b.timing + (b.cfg.nAck - 1) * b.cfg.tPoll ∧
        (b.moves n).seq.code = .ackError ∧ (b.moves n).seq.stage = stage ∧
        (b.moves n).seq.phase = .run (b.moves n).now
          (if site = .addr then [.complete] else [.wait b.timing.tIfd, .complete]) ∧
        (b.moves n).pin = { dir := .input, out := .high }) ∧
    (∀ a, a < b.cfg.nAck → (∀ i, i < a → b.peerAt (9 * symbolTicks b.timing + i * b.cfg.tPoll) = false) →
      (∀ i, i < b.cfg.nAck → b.peerAt (9 * symbolTicks b.timing + (a + i) * b.cfg.tPoll) = true) →
      ∃ n, (b.moves n).now = b.now + 9 * symbolTicks b.timing + (a + (b.cfg.nAck - 1)) * b.cfg.tPoll ∧
        (b.moves n).seq.code = .ackError ∧ (b.moves n).seq.stage = stage ∧
        (b.moves n).seq.phase = .run (b.moves n).now
          (if site = .addr then [.complete] else [.wait b.timing.tIfd, .complete]) ∧
        (b.moves n).pin = { dir := .input, out := .high })

/-- RecvByte from a silent peer: the block drives the sync symbol, HIGH for T_SHORT and then LOW for T_LONG, releases, and fails at the
N_RXTO-th HIGH sample without an acknowledgment pulse (R73, R102, R111). The result is AckError with stage FRAME_ACK at the frame
acknowledgment of SEND_FRAME, ReceiveTimeout with stage FRAME_ACK at that of RECV_FRAME, with stage RXLEN at a length byte, and with stage
RXPAYLOAD at a payload byte (R128, R130, R131, R181). -/
def Obligations.SilentPeerTimesOut : Prop :=
  ∀ (b : Inst) (site : Site) (code : Code) (stage : Stage) (k : List Micro),
    b.cfg.wf = true → b.due = some (.recvByte site, k) →
    (site = .sendAck ∧ code = .ackError ∧ stage = .frameAck) ∨ (site = .recvAck ∧ code = .receiveTimeout ∧ stage = .frameAck) ∨
      (site = .rxLen ∧ code = .receiveTimeout ∧ stage = .rxLen) ∨
      (site = .rxPayload ∧ code = .receiveTimeout ∧ stage = .rxPayload) →
    (∀ i, i < b.timing.nRxto → b.peerAt (symbolTicks b.timing + i * b.cfg.tPoll) = false) →
    (∀ n, (b.moves n).due = none →
      (b.moves n).now < b.now + symbolTicks b.timing + (b.timing.nRxto - 1) * b.cfg.tPoll →
      (b.moves n).pin.drivesLow =
        decide (b.now + b.timing.tShort ≤ (b.moves n).now ∧ (b.moves n).now < b.now + symbolTicks b.timing)) ∧
    ∃ n, (b.moves n).now = b.now + symbolTicks b.timing + (b.timing.nRxto - 1) * b.cfg.tPoll ∧
      (b.moves n).seq.code = code ∧ (b.moves n).seq.stage = stage ∧
      (b.moves n).seq.phase = .run (b.moves n).now [.wait b.timing.tIfd, .complete] ∧
      (b.moves n).pin = { dir := .input, out := .high }

/-- RecvByte from a peer that sends a byte, for every byte and every sampling alignment within it: the block drives the sync symbol,
releases, decodes the byte, acknowledges it by LOW for T_ACK from the sample that ended its last LOW phase, and goes on with the pin
released (R73, R75, R102, R104, R105, R111). The peer's long phase exceeds its short one by 2P - 1 ticks, no phase is longer than
(N_RXTO - 1) P, and the short phase lasts at least P, where P is T_POLL. R106 gives the first two conditions; without the third a whole
phase can fall between two samples (log entry 9, DEDUCED). -/
def Obligations.ReceivedByteIsTheSentByte : Prop :=
  ∀ (b : Inst) (site : Site) (k : List Micro) (v : Byte) (long short : Nat),
    b.cfg.wf = true → b.due = some (.recvByte site, k) →
    b.cfg.tPoll ≤ short → short + 2 * b.cfg.tPoll ≤ long + 1 → long ≤ (b.timing.nRxto - 1) * b.cfg.tPoll →
    (∀ j, j < 8 * (long + short) → b.peerAt (symbolTicks b.timing + j) = replyLow long short v j) →
    (∀ j, j < b.cfg.tPoll → b.peerAt (symbolTicks b.timing + 8 * (long + short) + j) = false) →
    ∃ r, b.now + symbolTicks b.timing + 8 * (long + short) ≤ r ∧
      r < b.now + symbolTicks b.timing + 8 * (long + short) + b.cfg.tPoll ∧
      (∀ n, (b.moves n).due = none → (b.moves n).now < r + b.timing.tAck →
        (b.moves n).pin.drivesLow = decide
          ((b.now + b.timing.tShort ≤ (b.moves n).now ∧ (b.moves n).now < b.now + symbolTicks b.timing) ∨
            r ≤ (b.moves n).now)) ∧
      ∃ n, (b.moves n).now = r + b.timing.tAck ∧ (b.moves n).seq.shift = v ∧ (b.moves n).seq.phase = .run (b.moves n).now k ∧
        (b.moves n).pin = { dir := .input, out := .high }

/-! ## The frame engine -/

/-- Arbitration: with LOW at the poll times before the k-th, all before the timeout, and HIGH at the k-th, the confirming sample one poll
later decides between going on and ArbitrationFault; with LOW at every poll time up to the first one at or after the timeout,
ArbitrationFault there. The pin is released in every tick of it and at its end (R120). -/
def Obligations.ArbitrationOutcome : Prop :=
  ∀ (b : Inst) (rest : List Micro), b.cfg.wf = true → b.due = some (.arbitrate, rest) →
    (∀ k, (∀ i, i < k → b.peerAt (i * b.cfg.tPoll) = true ∧ i * b.cfg.tPoll < b.timing.tIdle) →
      b.peerAt (k * b.cfg.tPoll) = false →
      (∀ n, (b.moves n).due = none → (b.moves n).now < b.now + (k + 1) * b.cfg.tPoll →
        (b.moves n).pin = { dir := .input, out := .high }) ∧
      ∃ n, (b.moves n).now = b.now + (k + 1) * b.cfg.tPoll ∧ (b.moves n).pin = { dir := .input, out := .high } ∧
        (if b.peerAt ((k + 1) * b.cfg.tPoll) then
          (b.moves n).seq.code = .arbitrationFault ∧ (b.moves n).seq.stage = .arb ∧
            (b.moves n).seq.phase = .run (b.moves n).now [.wait b.timing.tIfd, .complete]
        else (b.moves n).seq.phase = .run (b.moves n).now rest)) ∧
    ((∀ i, i * b.cfg.tPoll ≤ idleTicks b.cfg b.seq.p → b.peerAt (i * b.cfg.tPoll) = true) →
      (∀ n, (b.moves n).due = none → (b.moves n).now < b.now + idleTicks b.cfg b.seq.p →
        (b.moves n).pin = { dir := .input, out := .high }) ∧
      ∃ n, (b.moves n).now = b.now + idleTicks b.cfg b.seq.p ∧ (b.moves n).pin = { dir := .input, out := .high } ∧
        (b.moves n).seq.code = .arbitrationFault ∧ (b.moves n).seq.stage = .arb ∧
        (b.moves n).seq.phase = .run (b.moves n).now [.wait b.timing.tIfd, .complete])

/-- The start condition: LOW for T_START, then HIGH, with a further T_IBD for the Slow profile only (R121). -/
def Obligations.StartConditionWaveform : Prop :=
  ∀ (b : Inst) (k : List Micro), b.due = some (.startCondition, k) →
    (∀ n, (b.moves n).due = none → (b.moves n).now < b.now + startTicks b.cfg b.seq.p →
      (b.moves n).pin.drivesLow = decide ((b.moves n).now < b.now + b.timing.tStart)) ∧
    ∃ n, b.moves n =
      { b.after (startTicks b.cfg b.seq.p) with pin := { dir := .output, out := .high } }.atPhase
        (b.now + startTicks b.cfg b.seq.p) k

/-- A gap stands before every SendByte and RecvByte of a frame, and it lasts no time before the first of the frame and T_IBD and at most
IBD_JITTER_MAX ticks before every other one (R122, R123). The frame flag is set at the start of either frame command; the bytes come from
the two sequences, and from the steps that the address byte, the length prefix, the payload, the read request, the second length byte and
the received payload expand to (R125, R130). -/
def Obligations.GapSeparatesBytes : Prop :=
  (∀ (b : Inst) (k : List Micro), b.due = some (.gap, k) →
    (b.seq.first = true → b.perform .gap k = { b with seq := { b.seq with first := false, phase := .run b.now k } }) ∧
    (b.seq.first = false → ∃ j n, j ≤ b.cfg.ibdJitterMax ∧
      b.moves n = { b.after (b.timing.tIbd + j) with gaps := b.gaps + 1 }.atPhase (b.now + b.timing.tIbd + j) k)) ∧
  (∀ (b : Inst) (k : List Micro),
    b.perform .beginSend k = { b with seq := { b.seq with first := true, cursor := 0, phase := .run b.now k } } ∧
    b.perform .beginRecv k = { b with seq := { b.seq with first := true, phase := .run b.now k } } ∧
    b.perform .addrByte k = b.atPhase b.now (if b.seq.addr = 0#8 then k else .gap :: .sendByte b.seq.addr .addr :: k) ∧
    b.perform .sendLength k = b.atPhase b.now (match b.cfg.lenWidth with
      | .one => .gap :: .sendByte (BitVec.ofNat 8 b.seq.len.toNat) .len :: k
      | .two => .gap :: .sendByte (BitVec.ofNat 8 (b.seq.len.toNat / 256 % 8)) .len ::
          .gap :: .sendByte (BitVec.ofNat 8 b.seq.len.toNat) .len :: k) ∧
    b.perform .payload k = b.atPhase b.now
      (if b.seq.cursor < b.seq.len.toNat then .gap :: .payloadByte :: .payloadNext :: k else k) ∧
    b.perform .payloadNext k = { b with seq := { b.seq with cursor := b.seq.cursor + 1, phase := .run b.now (.payload :: k) } } ∧
    b.perform .readRequest k = b.atPhase b.now (match b.cfg.lenWidth with
      | .one => .gap :: .sendByte 0x00#8 .len :: k
      | .two => .gap :: .sendByte 0x00#8 .len :: .gap :: .sendByte 0x00#8 .len :: k) ∧
    (b.cfg.lenWidth = .two → b.perform .lenFirst k =
      b.atPhase b.now (.gap :: .recvByte .rxLen :: .lenSecond b.seq.shift :: k)) ∧
    b.perform .rxPayload k = b.atPhase b.now
      (if b.seq.cursor < b.seq.len.toNat then .gap :: .recvByte .rxPayload :: .rxStore :: k else k)) ∧
  sendFrameSteps = [.beginSend, .arbitrate, .startCondition, .addrByte, .sendLength, .payload,
    .gap, .recvByte .sendAck, .checkAck, .epilogue .ok .none] ∧
  recvFrameSteps = [.beginRecv, .arbitrate, .startCondition, .addrByte, .readRequest,
    .gap, .recvByte .recvAck, .checkAck, .gap, .recvByte .rxLen, .lenFirst, .checkLen, .epilogue .ok .none]

/-- Complete is one update: CODE and STAGE take the result, RXLEN the received length of a RECV_FRAME that succeeded and else 0, BUSY
falls and DONE rises, and the sequencer is idle; it takes no time, and in a state of the invariant the pin is released (R124, R63). That the
other fields of seq keep their values, which R41 leaves unspecified, is the model's choice (log entry 5, DESIGN CHOICE). -/
def Obligations.CompletionIsOneUpdate : Prop :=
  ∀ (s : State) (k : List Micro), s.turn = .sequencer → s.inst.due = some (.complete, k) →
    step s = .next { s with inst := { s.inst with
      status := { s.inst.status with busy := false, done := true, code := s.inst.seq.code, stage := s.inst.seq.stage }
      rxLen := if s.inst.seq.code = .ok ∧ s.inst.seq.op = some .recvFrame then s.inst.seq.len else 0#16
      seq := { s.inst.seq with op := none, phase := .idle } } } ∧
    (s.inst.Inv → s.inst.pin = { dir := .input, out := .high })

/-- The end of a frame command: the epilogue completes T_IFD ticks later; so does the failure of a byte operation, with its stage, at every
call but that of the device-address byte, whose AckError completes in the same tick. WAKE and RECOVER complete in the same tick as well.
In every case the pin is as it was (R126, R134, R14, R128, R150, R152). That completion leaves the other fields of seq is the model's choice (log
entry 5, DESIGN CHOICE). -/
def Obligations.FrameEndsWithItsDelay : Prop :=
  ∀ (b : Inst) (c : Code) (st : Stage) (k : List Micro),
    (b.due = some (.epilogue c st, k) →
      ∃ n, b.moves n = ({ b.after b.timing.tIfd with seq := { b.seq with code := c, stage := st } }).complete) ∧
    (b.due = some (.finish c st, k) →
      ∃ n, b.moves n = ({ b with seq := { b.seq with code := c, stage := st } }).complete) ∧
    (∃ n, (b.raiseAt .addr .ackError).moves n =
      ({ b with seq := { b.seq with code := .ackError, stage := .addr } }).complete) ∧
    (∀ (site : Site) (code : Code),
      (site = .len ∧ code = c ∧ st = .len) ∨ (site = .payload ∧ code = c ∧ st = .payload) ∨
        (site = .sendAck ∧ code = .ackError ∧ st = .frameAck) ∨ (site = .recvAck ∧ code = c ∧ st = .frameAck) ∨
        (site = .rxLen ∧ code = c ∧ st = .rxLen) ∨ (site = .rxPayload ∧ code = c ∧ st = .rxPayload) →
      ∃ n, (b.raiseAt site c).moves n =
        ({ b.after b.timing.tIfd with seq := { b.seq with code := code, stage := st } }).complete)

/-- The value checks of a frame. The frame-acknowledgment byte must be 0x20: any other value ends the frame with AckError, stage FRAME_ACK
(R125, R130). A received length above MAX_FRAME ends RECV_FRAME with BufferOverrun, stage RXLEN, before any payload byte is read and
without touching BUF; any other length starts the payload loop at BUF[0] (R132). -/
def Obligations.FrameValueChecks : Prop :=
  ∀ (b : Inst) (k : List Micro),
    (b.seq.shift = 0x20#8 → b.perform .checkAck k = { b with seq := { b.seq with phase := .run b.now k } }) ∧
    (b.seq.shift ≠ 0x20#8 → b.perform .checkAck k = { b with seq := { b.seq with
      code := .ackError, stage := .frameAck, phase := .run b.now [.wait b.timing.tIfd, .complete] } }) ∧
    (b.cfg.maxFrame < b.seq.len.toNat → b.perform .checkLen k = { b with seq := { b.seq with
      code := .bufferOverrun, stage := .rxLen, phase := .run b.now [.wait b.timing.tIfd, .complete] } }) ∧
    (b.seq.len.toNat ≤ b.cfg.maxFrame → b.perform .checkLen k = { b with seq := { b.seq with
      cursor := 0, phase := .run b.now (.rxPayload :: k) } })

/-- A received payload byte is stored at BUF[cursor] and the cursor moves on: that byte reads as received, every other byte as before, and
nothing else of the instance changes (R133). -/
def Obligations.ReceivedPayloadByteIsStored : Prop :=
  ∀ (b : Inst) (k : List Micro), b.buf.wf = true → b.seq.cursor < b.cfg.maxFrame →
    ∃ m : Memory, b.perform .rxStore k = { b with
        buf := m, seq := { b.seq with cursor := b.seq.cursor + 1, phase := .run b.now (.rxPayload :: k) } } ∧ m.wf = true ∧
      ∀ j, { b with buf := m }.readBuf j = if j = b.seq.cursor then b.seq.shift else b.readBuf j

/-- SEND_FRAME reads payload byte BUF[cursor] when that byte's SendByte starts, after its gap, and in no other way does a running
SEND_FRAME touch BUF: no move of it changes a byte (R127, R125). -/
def Obligations.SendFrameOnlyReadsBuf : Prop :=
  (∀ (b : Inst) (k : List Micro),
    (b.seq.cursor < b.seq.len.toNat → b.perform .payload k = { b with seq := { b.seq with
      phase := .run b.now (.gap :: .payloadByte :: .payloadNext :: k) } }) ∧
    (b.seq.len.toNat ≤ b.seq.cursor → b.perform .payload k = { b with seq := { b.seq with phase := .run b.now k } }) ∧
    b.perform .payloadByte k = { b with seq := { b.seq with
      phase := .run b.now (.sendByte (b.readBuf b.seq.cursor) .payload :: k) } }) ∧
  ∀ (b : Inst) (n j : Nat), b.Inv → b.seq.op = some .sendFrame → (b.moves n).readBuf j = b.readBuf j

/-- A frame command whose line the peer never releases completes with ArbitrationFault, stage ARB, T_IFD after the timeout, and the block
never drives the line LOW (R135). -/
def Obligations.NeverIdleLineFailsSilently : Prop :=
  ∀ (i : Instr) (p : Profile) (s t : State),
    (i = .sendFrame p ∧ s.inst.txLen.toNat ≤ lmaxTx s.inst.cfg) ∨ i = .recvFrame p → s.inst.Inv →
    s.inst.status.busy = false → s.inst.status.en = true → exec i s = .next t →
    (∀ j, 1 ≤ j → j ≤ 1 + idleTicks s.inst.cfg p → s.inst.peerAt j = true) →
    (∀ n, (t.inst.moves n).pin.drivesLow = false) ∧
    ∃ n, (t.inst.moves n).now = s.inst.now + 1 + idleTicks s.inst.cfg p + (s.inst.cfg.timing p).tIfd ∧
      (t.inst.moves n).status.busy = false ∧ (t.inst.moves n).status.done = true ∧
      (t.inst.moves n).status.code = .arbitrationFault ∧ (t.inst.moves n).status.stage = .arb ∧
      (t.inst.moves n).rxLen = 0#16

/-! ## WAKE and RECOVER -/

/-- A launched WAKE drives LOW for T_WAKE_LOW ticks from the tick after its launch, then HIGH for T_WAKE_SETTLE, and completes with Ok
exactly then, released, whatever the peer does (R150, R62, R230). That the other fields of seq keep their values at completion, which
R41 leaves unspecified, is the model's choice (log entry 5, DESIGN CHOICE). -/
def Obligations.WakeRunsItsPulse : Prop :=
  ∀ (p : Profile) (s t : State), s.inst.Inv → s.inst.status.busy = false → s.inst.status.en = true → exec (.wake p) s = .next t →
    (∀ n, (t.inst.moves n).due = none → (t.inst.moves n).now < s.inst.now + 1 + s.inst.cfg.tWakeLow + s.inst.cfg.tWakeSettle →
      (t.inst.moves n).status.busy = true ∧
      ((t.inst.moves n).pin.drivesLow = true ↔
        s.inst.now + 1 ≤ (t.inst.moves n).now ∧ (t.inst.moves n).now < s.inst.now + 1 + s.inst.cfg.tWakeLow)) ∧
    ∃ n, t.inst.moves n =
      { s.inst.after (1 + s.inst.cfg.tWakeLow + s.inst.cfg.tWakeSettle) with
        rxLen := 0#16
        status := { s.inst.status with done := true, code := .ok, stage := .none }
        seq := { t.inst.seq with op := none, code := .ok, stage := .none, phase := .idle } }

/-- A launched RECOVER: the Slow form drives LOW and then HIGH for 100000 microseconds each and completes with Ok exactly then, released;
the Fast form completes with Ok in the next tick without any pin activity (R152, R62, R230). That the other fields of seq keep their
values at completion, which R41 leaves unspecified, is the model's choice (log entry 5, DESIGN CHOICE). -/
def Obligations.RecoverRunsItsPulse : Prop :=
  ∀ (p : Profile) (s t : State), s.inst.Inv → s.inst.status.busy = false → s.inst.status.en = true →
    exec (.recover p) s = .next t →
    (∀ n, (t.inst.moves n).due = none →
      (t.inst.moves n).now < s.inst.now + 1 + (if p = .slow then 200000 * s.inst.cfg.ticksPerUs else 0) →
      (t.inst.moves n).status.busy = true ∧
      ((t.inst.moves n).pin.drivesLow = true ↔ p = .slow ∧
        s.inst.now + 1 ≤ (t.inst.moves n).now ∧ (t.inst.moves n).now < s.inst.now + 1 + 100000 * s.inst.cfg.ticksPerUs)) ∧
    ∃ n, t.inst.moves n =
      { s.inst.after (1 + (if p = .slow then 200000 * s.inst.cfg.ticksPerUs else 0)) with
        rxLen := 0#16
        status := { s.inst.status with done := true, code := .ok, stage := .none }
        seq := { t.inst.seq with op := none, code := .ok, stage := .none, phase := .idle } }

/-! ## Whole-machine rules -/

/-- Every step keeps the invariant, from every state that meets it. -/
def Obligations.StepKeepsInvariant : Prop :=
  ∀ s t : State, s.Inv → step s = .next t → t.Inv

/-- The block never samples the line while it drives it: in every state of the invariant, the pin is released when a sampling operation
is due (R91). -/
def Obligations.SamplesOnlyReleasedLine : Prop :=
  ∀ (s t : State) (k : Nat) (m : Micro) (rest : List Micro), s.Inv → Sys2Proof.core.run k s = .next t →
    t.inst.due = some (m, rest) → m.samples = true → t.inst.pin = { dir := .input, out := .high }

/-- Wherever a run from the invariant leads, an instance that is not busy, in particular a disabled one, drives nothing, and one that is
busy has DONE = 0 (R196, R40, R63). -/
def Obligations.IdleInstanceDrivesNothing : Prop :=
  ∀ (s t : State) (k : Nat), s.Inv → Sys2Proof.core.run k s = .next t → ∀ b ∈ t.insts,
    (b.status.busy = false → b.pin.drivesLow = false ∧ b.seq.phase = .idle) ∧
    (b.status.en = false → b.pin.drivesLow = false) ∧
    (b.status.busy = true → b.status.done = false)

/-- Wherever a run from the invariant leads, STATUS shows a result of R180 and R181: a SEND_FRAME never ends with ReceiveTimeout, WAKE and
RECOVER always end with Ok (R125, R150, R152, R180, R181). -/
def Obligations.CompletedResultsAreLegal : Prop :=
  ∀ (s t : State) (k : Nat) (rest : List Micro) (op : SeqOp), s.Inv → Sys2Proof.core.run k s = .next t →
    t.turn = .sequencer → t.inst.due = some (.complete, rest) → t.inst.seq.op = some op →
    ∃ t', step t = .next t' ∧ legalResult op t'.inst.status.code t'.inst.status.stage = true ∧
      (t'.inst.status.code ≠ .ok → t'.inst.rxLen = 0#16)

/-- The bytes a SEND_FRAME puts on the line are, in order, the device address unless it is 0, the length prefix, and BUF[0] to BUF[L - 1]:
at any time a first part of them, and all of them when it completes with Ok (R79, R125, R127). -/
def Obligations.SendFrameSendsItsBytesInOrder : Prop :=
  ∀ (p : Profile) (s t : State), s.inst.Inv → s.inst.status.busy = false → s.inst.status.en = true →
    s.inst.txLen.toNat ≤ lmaxTx s.inst.cfg → exec (.sendFrame p) s = .next t →
    ∀ n, t.inst.sentBytes n <+: sendFrameBytes s.inst ∧
      ((t.inst.moves n).status.busy = false → (t.inst.moves n).status.code = .ok → t.inst.sentBytes n = sendFrameBytes s.inst)

/-- The bytes a RECV_FRAME puts on the line are, in order, the device address unless it is 0 and the read request: at any time a first part
of them, and all of them when it completes with Ok. The payload bytes it receives go to BUF[0], BUF[1] and so on as they come, every
other byte of BUF is as before, and when it completes with Ok, RXLEN is their number; otherwise RXLEN is 0 (R80, R130, R133). -/
def Obligations.RecvFrameStoresWhatItReceives : Prop :=
  ∀ (p : Profile) (s t : State), s.inst.Inv → s.inst.status.busy = false → s.inst.status.en = true →
    exec (.recvFrame p) s = .next t →
    ∀ n, t.inst.sentBytes n <+: recvFrameBytes s.inst ∧
      ((t.inst.moves n).status.busy = false → (t.inst.moves n).status.code = .ok → t.inst.sentBytes n = recvFrameBytes s.inst) ∧
      (t.inst.storedBytes n).length ≤ s.inst.cfg.maxFrame ∧
      (∀ k, (t.inst.moves n).readBuf k = ((t.inst.storedBytes n)[k]?).getD (s.inst.readBuf k)) ∧
      ((t.inst.moves n).status.busy = false →
        (t.inst.moves n).rxLen.toNat =
          if (t.inst.moves n).status.code = .ok then (t.inst.storedBytes n).length else 0)

/-- A SEND_FRAME completes within the ticks R230 gives, whatever the peer does. -/
def Obligations.SendFrameCompletesInBound : Prop :=
  ∀ (p : Profile) (s t : State), s.inst.Inv → s.inst.status.busy = false → s.inst.status.en = true →
    s.inst.txLen.toNat ≤ lmaxTx s.inst.cfg → exec (.sendFrame p) s = .next t →
    ∃ n, (t.inst.moves n).status.busy = false ∧ (t.inst.moves n).status.done = true ∧
      (t.inst.moves n).now ≤ s.inst.now + sendBound s.inst.cfg p s.inst.devAddr s.inst.txLen

/-- A RECV_FRAME completes within the ticks R230 gives, whatever the peer does. -/
def Obligations.RecvFrameCompletesInBound : Prop :=
  ∀ (p : Profile) (s t : State), s.inst.Inv → s.inst.status.busy = false → s.inst.status.en = true →
    exec (.recvFrame p) s = .next t →
    ∃ n, (t.inst.moves n).status.busy = false ∧ (t.inst.moves n).status.done = true ∧
      (t.inst.moves n).now ≤ s.inst.now + recvBound s.inst.cfg p s.inst.devAddr
end

