-- ==== Sys2Proof/Laws/State.lean ====
section
/-! SUPPORT. What each shared update of an instance does to each field of it, and of the machine, true by definition. -/

namespace Sys2Proof.Machine

variable (b : Inst) (s : State)

/-! ## `drive` -/

@[simp] theorem Inst.drive_cfg (v : Level) : (b.drive v).cfg = b.cfg := rfl
@[simp] theorem Inst.drive_num (v : Level) : (b.drive v).num = b.num := rfl
@[simp] theorem Inst.drive_now (v : Level) : (b.drive v).now = b.now := rfl
@[simp] theorem Inst.drive_pin (v : Level) : (b.drive v).pin = { dir := .output, out := v } := rfl
@[simp] theorem Inst.drive_ie (v : Level) : (b.drive v).ie = b.ie := rfl
@[simp] theorem Inst.drive_devAddr (v : Level) : (b.drive v).devAddr = b.devAddr := rfl
@[simp] theorem Inst.drive_txLen (v : Level) : (b.drive v).txLen = b.txLen := rfl
@[simp] theorem Inst.drive_status (v : Level) : (b.drive v).status = b.status := rfl
@[simp] theorem Inst.drive_rxLen (v : Level) : (b.drive v).rxLen = b.rxLen := rfl
@[simp] theorem Inst.drive_buf (v : Level) : (b.drive v).buf = b.buf := rfl
@[simp] theorem Inst.drive_seq (v : Level) : (b.drive v).seq = b.seq := rfl
@[simp] theorem Inst.drive_peer (v : Level) : (b.drive v).peer = b.peer := rfl
@[simp] theorem Inst.drive_gaps (v : Level) : (b.drive v).gaps = b.gaps := rfl
@[simp] theorem Inst.drive_resets (v : Level) : (b.drive v).resets = b.resets := rfl

/-! ## `release` -/

@[simp] theorem Inst.release_cfg : (b.release).cfg = b.cfg := rfl
@[simp] theorem Inst.release_num : (b.release).num = b.num := rfl
@[simp] theorem Inst.release_now : (b.release).now = b.now := rfl
@[simp] theorem Inst.release_pin : (b.release).pin = .released := rfl
@[simp] theorem Inst.release_ie : (b.release).ie = b.ie := rfl
@[simp] theorem Inst.release_devAddr : (b.release).devAddr = b.devAddr := rfl
@[simp] theorem Inst.release_txLen : (b.release).txLen = b.txLen := rfl
@[simp] theorem Inst.release_status : (b.release).status = b.status := rfl
@[simp] theorem Inst.release_rxLen : (b.release).rxLen = b.rxLen := rfl
@[simp] theorem Inst.release_buf : (b.release).buf = b.buf := rfl
@[simp] theorem Inst.release_seq : (b.release).seq = b.seq := rfl
@[simp] theorem Inst.release_peer : (b.release).peer = b.peer := rfl
@[simp] theorem Inst.release_gaps : (b.release).gaps = b.gaps := rfl
@[simp] theorem Inst.release_resets : (b.release).resets = b.resets := rfl

/-! ## `tick` -/

@[simp] theorem Inst.tick_cfg : (b.tick).cfg = b.cfg := rfl
@[simp] theorem Inst.tick_num : (b.tick).num = b.num := rfl
@[simp] theorem Inst.tick_now : (b.tick).now = b.now + 1 := rfl
@[simp] theorem Inst.tick_pin : (b.tick).pin = b.pin := rfl
@[simp] theorem Inst.tick_ie : (b.tick).ie = b.ie := rfl
@[simp] theorem Inst.tick_devAddr : (b.tick).devAddr = b.devAddr := rfl
@[simp] theorem Inst.tick_txLen : (b.tick).txLen = b.txLen := rfl
@[simp] theorem Inst.tick_status : (b.tick).status = b.status := rfl
@[simp] theorem Inst.tick_rxLen : (b.tick).rxLen = b.rxLen := rfl
@[simp] theorem Inst.tick_buf : (b.tick).buf = b.buf := rfl
@[simp] theorem Inst.tick_seq : (b.tick).seq = b.seq := rfl
@[simp] theorem Inst.tick_peer : (b.tick).peer = b.peer.tail := rfl
@[simp] theorem Inst.tick_gaps : (b.tick).gaps = b.gaps := rfl
@[simp] theorem Inst.tick_resets : (b.tick).resets = b.resets := rfl

/-! ## `timeoutStart` -/

@[simp] theorem Inst.timeoutStart_cfg (d : Nat) : (b.timeoutStart d).cfg = b.cfg := rfl
@[simp] theorem Inst.timeoutStart_num (d : Nat) : (b.timeoutStart d).num = b.num := rfl
@[simp] theorem Inst.timeoutStart_now (d : Nat) : (b.timeoutStart d).now = b.now := rfl
@[simp] theorem Inst.timeoutStart_pin (d : Nat) : (b.timeoutStart d).pin = b.pin := rfl
@[simp] theorem Inst.timeoutStart_ie (d : Nat) : (b.timeoutStart d).ie = b.ie := rfl
@[simp] theorem Inst.timeoutStart_devAddr (d : Nat) : (b.timeoutStart d).devAddr = b.devAddr := rfl
@[simp] theorem Inst.timeoutStart_txLen (d : Nat) : (b.timeoutStart d).txLen = b.txLen := rfl
@[simp] theorem Inst.timeoutStart_status (d : Nat) : (b.timeoutStart d).status = b.status := rfl
@[simp] theorem Inst.timeoutStart_rxLen (d : Nat) : (b.timeoutStart d).rxLen = b.rxLen := rfl
@[simp] theorem Inst.timeoutStart_buf (d : Nat) : (b.timeoutStart d).buf = b.buf := rfl
@[simp] theorem Inst.timeoutStart_seq (d : Nat) : (b.timeoutStart d).seq = { b.seq with deadline := b.now + d } := rfl
@[simp] theorem Inst.timeoutStart_peer (d : Nat) : (b.timeoutStart d).peer = b.peer := rfl
@[simp] theorem Inst.timeoutStart_gaps (d : Nat) : (b.timeoutStart d).gaps = b.gaps := rfl
@[simp] theorem Inst.timeoutStart_resets (d : Nat) : (b.timeoutStart d).resets = b.resets := rfl

/-! ## `sleep` -/

@[simp] theorem Inst.sleep_cfg (d : Nat) (k : List Micro) : (b.sleep d k).cfg = b.cfg := rfl
@[simp] theorem Inst.sleep_num (d : Nat) (k : List Micro) : (b.sleep d k).num = b.num := rfl
@[simp] theorem Inst.sleep_now (d : Nat) (k : List Micro) : (b.sleep d k).now = b.now := rfl
@[simp] theorem Inst.sleep_pin (d : Nat) (k : List Micro) : (b.sleep d k).pin = b.pin := rfl
@[simp] theorem Inst.sleep_ie (d : Nat) (k : List Micro) : (b.sleep d k).ie = b.ie := rfl
@[simp] theorem Inst.sleep_devAddr (d : Nat) (k : List Micro) : (b.sleep d k).devAddr = b.devAddr := rfl
@[simp] theorem Inst.sleep_txLen (d : Nat) (k : List Micro) : (b.sleep d k).txLen = b.txLen := rfl
@[simp] theorem Inst.sleep_status (d : Nat) (k : List Micro) : (b.sleep d k).status = b.status := rfl
@[simp] theorem Inst.sleep_rxLen (d : Nat) (k : List Micro) : (b.sleep d k).rxLen = b.rxLen := rfl
@[simp] theorem Inst.sleep_buf (d : Nat) (k : List Micro) : (b.sleep d k).buf = b.buf := rfl
@[simp] theorem Inst.sleep_seq (d : Nat) (k : List Micro) : (b.sleep d k).seq = { b.seq with phase := .run (b.now + d) k } := rfl
@[simp] theorem Inst.sleep_peer (d : Nat) (k : List Micro) : (b.sleep d k).peer = b.peer := rfl
@[simp] theorem Inst.sleep_gaps (d : Nat) (k : List Micro) : (b.sleep d k).gaps = b.gaps := rfl
@[simp] theorem Inst.sleep_resets (d : Nat) (k : List Micro) : (b.sleep d k).resets = b.resets := rfl

/-! ## `goOn` -/

@[simp] theorem Inst.goOn_cfg (k : List Micro) : (b.goOn k).cfg = b.cfg := rfl
@[simp] theorem Inst.goOn_num (k : List Micro) : (b.goOn k).num = b.num := rfl
@[simp] theorem Inst.goOn_now (k : List Micro) : (b.goOn k).now = b.now := rfl
@[simp] theorem Inst.goOn_pin (k : List Micro) : (b.goOn k).pin = b.pin := rfl
@[simp] theorem Inst.goOn_ie (k : List Micro) : (b.goOn k).ie = b.ie := rfl
@[simp] theorem Inst.goOn_devAddr (k : List Micro) : (b.goOn k).devAddr = b.devAddr := rfl
@[simp] theorem Inst.goOn_txLen (k : List Micro) : (b.goOn k).txLen = b.txLen := rfl
@[simp] theorem Inst.goOn_status (k : List Micro) : (b.goOn k).status = b.status := rfl
@[simp] theorem Inst.goOn_rxLen (k : List Micro) : (b.goOn k).rxLen = b.rxLen := rfl
@[simp] theorem Inst.goOn_buf (k : List Micro) : (b.goOn k).buf = b.buf := rfl
@[simp] theorem Inst.goOn_seq (k : List Micro) : (b.goOn k).seq = { b.seq with phase := .run b.now k } := rfl
@[simp] theorem Inst.goOn_peer (k : List Micro) : (b.goOn k).peer = b.peer := rfl
@[simp] theorem Inst.goOn_gaps (k : List Micro) : (b.goOn k).gaps = b.gaps := rfl
@[simp] theorem Inst.goOn_resets (k : List Micro) : (b.goOn k).resets = b.resets := rfl

/-! ## `setResult` -/

@[simp] theorem Inst.setResult_cfg (c : Code) (st : Stage) : (b.setResult c st).cfg = b.cfg := rfl
@[simp] theorem Inst.setResult_num (c : Code) (st : Stage) : (b.setResult c st).num = b.num := rfl
@[simp] theorem Inst.setResult_now (c : Code) (st : Stage) : (b.setResult c st).now = b.now := rfl
@[simp] theorem Inst.setResult_pin (c : Code) (st : Stage) : (b.setResult c st).pin = b.pin := rfl
@[simp] theorem Inst.setResult_ie (c : Code) (st : Stage) : (b.setResult c st).ie = b.ie := rfl
@[simp] theorem Inst.setResult_devAddr (c : Code) (st : Stage) : (b.setResult c st).devAddr = b.devAddr := rfl
@[simp] theorem Inst.setResult_txLen (c : Code) (st : Stage) : (b.setResult c st).txLen = b.txLen := rfl
@[simp] theorem Inst.setResult_status (c : Code) (st : Stage) : (b.setResult c st).status = b.status := rfl
@[simp] theorem Inst.setResult_rxLen (c : Code) (st : Stage) : (b.setResult c st).rxLen = b.rxLen := rfl
@[simp] theorem Inst.setResult_buf (c : Code) (st : Stage) : (b.setResult c st).buf = b.buf := rfl
@[simp] theorem Inst.setResult_seq (c : Code) (st : Stage) : (b.setResult c st).seq = { b.seq with code := c, stage := st } := rfl
@[simp] theorem Inst.setResult_peer (c : Code) (st : Stage) : (b.setResult c st).peer = b.peer := rfl
@[simp] theorem Inst.setResult_gaps (c : Code) (st : Stage) : (b.setResult c st).gaps = b.gaps := rfl
@[simp] theorem Inst.setResult_resets (c : Code) (st : Stage) : (b.setResult c st).resets = b.resets := rfl

/-! ## `complete` -/

@[simp] theorem Inst.complete_cfg : (b.complete).cfg = b.cfg := rfl
@[simp] theorem Inst.complete_num : (b.complete).num = b.num := rfl
@[simp] theorem Inst.complete_now : (b.complete).now = b.now := rfl
@[simp] theorem Inst.complete_pin : (b.complete).pin = b.pin := rfl
@[simp] theorem Inst.complete_ie : (b.complete).ie = b.ie := rfl
@[simp] theorem Inst.complete_devAddr : (b.complete).devAddr = b.devAddr := rfl
@[simp] theorem Inst.complete_txLen : (b.complete).txLen = b.txLen := rfl
@[simp] theorem Inst.complete_status : (b.complete).status = { b.status with busy := false, done := true, code := b.seq.code, stage := b.seq.stage } := rfl
@[simp] theorem Inst.complete_rxLen : (b.complete).rxLen = if b.seq.code = .ok ∧ b.seq.op = some .recvFrame then b.seq.len else 0#16 := rfl
@[simp] theorem Inst.complete_buf : (b.complete).buf = b.buf := rfl
@[simp] theorem Inst.complete_seq : (b.complete).seq = { b.seq with op := none, phase := .idle } := rfl
@[simp] theorem Inst.complete_peer : (b.complete).peer = b.peer := rfl
@[simp] theorem Inst.complete_gaps : (b.complete).gaps = b.gaps := rfl
@[simp] theorem Inst.complete_resets : (b.complete).resets = b.resets := rfl

/-! ## `completeNow` -/

@[simp] theorem Inst.completeNow_cfg (c : Code) : (b.completeNow c).cfg = b.cfg := rfl
@[simp] theorem Inst.completeNow_num (c : Code) : (b.completeNow c).num = b.num := rfl
@[simp] theorem Inst.completeNow_now (c : Code) : (b.completeNow c).now = b.now := rfl
@[simp] theorem Inst.completeNow_pin (c : Code) : (b.completeNow c).pin = b.pin := rfl
@[simp] theorem Inst.completeNow_ie (c : Code) : (b.completeNow c).ie = b.ie := rfl
@[simp] theorem Inst.completeNow_devAddr (c : Code) : (b.completeNow c).devAddr = b.devAddr := rfl
@[simp] theorem Inst.completeNow_txLen (c : Code) : (b.completeNow c).txLen = b.txLen := rfl
@[simp] theorem Inst.completeNow_status (c : Code) : (b.completeNow c).status = { b.status with done := true, code := c, stage := .none } := rfl
@[simp] theorem Inst.completeNow_rxLen (c : Code) : (b.completeNow c).rxLen = b.rxLen := rfl
@[simp] theorem Inst.completeNow_buf (c : Code) : (b.completeNow c).buf = b.buf := rfl
@[simp] theorem Inst.completeNow_seq (c : Code) : (b.completeNow c).seq = b.seq := rfl
@[simp] theorem Inst.completeNow_peer (c : Code) : (b.completeNow c).peer = b.peer := rfl
@[simp] theorem Inst.completeNow_gaps (c : Code) : (b.completeNow c).gaps = b.gaps := rfl
@[simp] theorem Inst.completeNow_resets (c : Code) : (b.completeNow c).resets = b.resets := rfl

/-! ## `finish` -/

@[simp] theorem Inst.finish_cfg (c : Code) (st : Stage) : (b.finish c st).cfg = b.cfg := rfl
@[simp] theorem Inst.finish_num (c : Code) (st : Stage) : (b.finish c st).num = b.num := rfl
@[simp] theorem Inst.finish_now (c : Code) (st : Stage) : (b.finish c st).now = b.now := rfl
@[simp] theorem Inst.finish_pin (c : Code) (st : Stage) : (b.finish c st).pin = b.pin := rfl
@[simp] theorem Inst.finish_ie (c : Code) (st : Stage) : (b.finish c st).ie = b.ie := rfl
@[simp] theorem Inst.finish_devAddr (c : Code) (st : Stage) : (b.finish c st).devAddr = b.devAddr := rfl
@[simp] theorem Inst.finish_txLen (c : Code) (st : Stage) : (b.finish c st).txLen = b.txLen := rfl
@[simp] theorem Inst.finish_status (c : Code) (st : Stage) : (b.finish c st).status = b.status := rfl
@[simp] theorem Inst.finish_rxLen (c : Code) (st : Stage) : (b.finish c st).rxLen = b.rxLen := rfl
@[simp] theorem Inst.finish_buf (c : Code) (st : Stage) : (b.finish c st).buf = b.buf := rfl
@[simp] theorem Inst.finish_seq (c : Code) (st : Stage) : (b.finish c st).seq = { b.seq with code := c, stage := st, phase := .run b.now [.complete] } := rfl
@[simp] theorem Inst.finish_peer (c : Code) (st : Stage) : (b.finish c st).peer = b.peer := rfl
@[simp] theorem Inst.finish_gaps (c : Code) (st : Stage) : (b.finish c st).gaps = b.gaps := rfl
@[simp] theorem Inst.finish_resets (c : Code) (st : Stage) : (b.finish c st).resets = b.resets := rfl

/-! ## `epilogue` -/

@[simp] theorem Inst.epilogue_cfg (c : Code) (st : Stage) : (b.epilogue c st).cfg = b.cfg := rfl
@[simp] theorem Inst.epilogue_num (c : Code) (st : Stage) : (b.epilogue c st).num = b.num := rfl
@[simp] theorem Inst.epilogue_now (c : Code) (st : Stage) : (b.epilogue c st).now = b.now := rfl
@[simp] theorem Inst.epilogue_pin (c : Code) (st : Stage) : (b.epilogue c st).pin = b.pin := rfl
@[simp] theorem Inst.epilogue_ie (c : Code) (st : Stage) : (b.epilogue c st).ie = b.ie := rfl
@[simp] theorem Inst.epilogue_devAddr (c : Code) (st : Stage) : (b.epilogue c st).devAddr = b.devAddr := rfl
@[simp] theorem Inst.epilogue_txLen (c : Code) (st : Stage) : (b.epilogue c st).txLen = b.txLen := rfl
@[simp] theorem Inst.epilogue_status (c : Code) (st : Stage) : (b.epilogue c st).status = b.status := rfl
@[simp] theorem Inst.epilogue_rxLen (c : Code) (st : Stage) : (b.epilogue c st).rxLen = b.rxLen := rfl
@[simp] theorem Inst.epilogue_buf (c : Code) (st : Stage) : (b.epilogue c st).buf = b.buf := rfl
@[simp] theorem Inst.epilogue_seq (c : Code) (st : Stage) : (b.epilogue c st).seq = { b.seq with code := c, stage := st, phase := .run b.now [.wait b.timing.tIfd, .complete] } := rfl
@[simp] theorem Inst.epilogue_peer (c : Code) (st : Stage) : (b.epilogue c st).peer = b.peer := rfl
@[simp] theorem Inst.epilogue_gaps (c : Code) (st : Stage) : (b.epilogue c st).gaps = b.gaps := rfl
@[simp] theorem Inst.epilogue_resets (c : Code) (st : Stage) : (b.epilogue c st).resets = b.resets := rfl

/-! ## `after` -/

@[simp] theorem Inst.after_cfg (d : Nat) : (b.after d).cfg = b.cfg := rfl
@[simp] theorem Inst.after_num (d : Nat) : (b.after d).num = b.num := rfl
@[simp] theorem Inst.after_now (d : Nat) : (b.after d).now = b.now + d := rfl
@[simp] theorem Inst.after_pin (d : Nat) : (b.after d).pin = b.pin := rfl
@[simp] theorem Inst.after_ie (d : Nat) : (b.after d).ie = b.ie := rfl
@[simp] theorem Inst.after_devAddr (d : Nat) : (b.after d).devAddr = b.devAddr := rfl
@[simp] theorem Inst.after_txLen (d : Nat) : (b.after d).txLen = b.txLen := rfl
@[simp] theorem Inst.after_status (d : Nat) : (b.after d).status = b.status := rfl
@[simp] theorem Inst.after_rxLen (d : Nat) : (b.after d).rxLen = b.rxLen := rfl
@[simp] theorem Inst.after_buf (d : Nat) : (b.after d).buf = b.buf := rfl
@[simp] theorem Inst.after_seq (d : Nat) : (b.after d).seq = b.seq := rfl
@[simp] theorem Inst.after_peer (d : Nat) : (b.after d).peer = b.peer.drop d := rfl
@[simp] theorem Inst.after_gaps (d : Nat) : (b.after d).gaps = b.gaps := rfl
@[simp] theorem Inst.after_resets (d : Nat) : (b.after d).resets = b.resets := rfl

/-! ## `atPhase` -/

@[simp] theorem Inst.atPhase_cfg (w : Nat) (k : List Micro) : (b.atPhase w k).cfg = b.cfg := rfl
@[simp] theorem Inst.atPhase_num (w : Nat) (k : List Micro) : (b.atPhase w k).num = b.num := rfl
@[simp] theorem Inst.atPhase_now (w : Nat) (k : List Micro) : (b.atPhase w k).now = b.now := rfl
@[simp] theorem Inst.atPhase_pin (w : Nat) (k : List Micro) : (b.atPhase w k).pin = b.pin := rfl
@[simp] theorem Inst.atPhase_ie (w : Nat) (k : List Micro) : (b.atPhase w k).ie = b.ie := rfl
@[simp] theorem Inst.atPhase_devAddr (w : Nat) (k : List Micro) : (b.atPhase w k).devAddr = b.devAddr := rfl
@[simp] theorem Inst.atPhase_txLen (w : Nat) (k : List Micro) : (b.atPhase w k).txLen = b.txLen := rfl
@[simp] theorem Inst.atPhase_status (w : Nat) (k : List Micro) : (b.atPhase w k).status = b.status := rfl
@[simp] theorem Inst.atPhase_rxLen (w : Nat) (k : List Micro) : (b.atPhase w k).rxLen = b.rxLen := rfl
@[simp] theorem Inst.atPhase_buf (w : Nat) (k : List Micro) : (b.atPhase w k).buf = b.buf := rfl
@[simp] theorem Inst.atPhase_seq (w : Nat) (k : List Micro) : (b.atPhase w k).seq = { b.seq with phase := .run w k } := rfl
@[simp] theorem Inst.atPhase_peer (w : Nat) (k : List Micro) : (b.atPhase w k).peer = b.peer := rfl
@[simp] theorem Inst.atPhase_gaps (w : Nat) (k : List Micro) : (b.atPhase w k).gaps = b.gaps := rfl
@[simp] theorem Inst.atPhase_resets (w : Nat) (k : List Micro) : (b.atPhase w k).resets = b.resets := rfl

/-! ## `onInst` and `answer` -/

@[simp] theorem State.onInst_inst (f : Inst → Inst) : (s.onInst f).inst = f s.inst := rfl
@[simp] theorem State.onInst_lower (f : Inst → Inst) : (s.onInst f).lower = s.lower := rfl
@[simp] theorem State.onInst_upper (f : Inst → Inst) : (s.onInst f).upper = s.upper := rfl
@[simp] theorem State.onInst_turn (f : Inst → Inst) : (s.onInst f).turn = s.turn := rfl
@[simp] theorem State.onInst_host (f : Inst → Inst) : (s.onInst f).host = s.host := rfl
@[simp] theorem State.onInst_seen (f : Inst → Inst) : (s.onInst f).seen = s.seen := rfl
@[simp] theorem State.answer_inst (v : Word) : (s.answer v).inst = s.inst := rfl
@[simp] theorem State.answer_lower (v : Word) : (s.answer v).lower = s.lower := rfl
@[simp] theorem State.answer_upper (v : Word) : (s.answer v).upper = s.upper := rfl
@[simp] theorem State.answer_turn (v : Word) : (s.answer v).turn = s.turn := rfl
@[simp] theorem State.answer_host (v : Word) : (s.answer v).host = s.host := rfl
@[simp] theorem State.answer_seen (v : Word) : (s.answer v).seen = v :: s.seen := rfl

/-! ## `writeBuf` -/

@[simp] theorem Inst.writeBuf_cfg (k : Nat) (v : Byte) : (b.writeBuf k v).cfg = b.cfg := by
  unfold Inst.writeBuf; split <;> rfl
@[simp] theorem Inst.writeBuf_num (k : Nat) (v : Byte) : (b.writeBuf k v).num = b.num := by
  unfold Inst.writeBuf; split <;> rfl
@[simp] theorem Inst.writeBuf_now (k : Nat) (v : Byte) : (b.writeBuf k v).now = b.now := by
  unfold Inst.writeBuf; split <;> rfl
@[simp] theorem Inst.writeBuf_pin (k : Nat) (v : Byte) : (b.writeBuf k v).pin = b.pin := by
  unfold Inst.writeBuf; split <;> rfl
@[simp] theorem Inst.writeBuf_ie (k : Nat) (v : Byte) : (b.writeBuf k v).ie = b.ie := by
  unfold Inst.writeBuf; split <;> rfl
@[simp] theorem Inst.writeBuf_devAddr (k : Nat) (v : Byte) : (b.writeBuf k v).devAddr = b.devAddr := by
  unfold Inst.writeBuf; split <;> rfl
@[simp] theorem Inst.writeBuf_txLen (k : Nat) (v : Byte) : (b.writeBuf k v).txLen = b.txLen := by
  unfold Inst.writeBuf; split <;> rfl
@[simp] theorem Inst.writeBuf_status (k : Nat) (v : Byte) : (b.writeBuf k v).status = b.status := by
  unfold Inst.writeBuf; split <;> rfl
@[simp] theorem Inst.writeBuf_rxLen (k : Nat) (v : Byte) : (b.writeBuf k v).rxLen = b.rxLen := by
  unfold Inst.writeBuf; split <;> rfl
@[simp] theorem Inst.writeBuf_seq (k : Nat) (v : Byte) : (b.writeBuf k v).seq = b.seq := by
  unfold Inst.writeBuf; split <;> rfl
@[simp] theorem Inst.writeBuf_peer (k : Nat) (v : Byte) : (b.writeBuf k v).peer = b.peer := by
  unfold Inst.writeBuf; split <;> rfl
@[simp] theorem Inst.writeBuf_gaps (k : Nat) (v : Byte) : (b.writeBuf k v).gaps = b.gaps := by
  unfold Inst.writeBuf; split <;> rfl
@[simp] theorem Inst.writeBuf_resets (k : Nat) (v : Byte) : (b.writeBuf k v).resets = b.resets := by
  unfold Inst.writeBuf; split <;> rfl

/-! ## Values that depend on few fields -/

@[simp] theorem Inst.drive_peerAt (v : Level) (j : Nat) : (b.drive v).peerAt j = b.peerAt j := rfl
@[simp] theorem Inst.drive_timing (v : Level) : (b.drive v).timing = b.timing := rfl
@[simp] theorem Inst.drive_readBuf (v : Level) (j : Nat) : (b.drive v).readBuf j = b.readBuf j := rfl
@[simp] theorem Inst.release_peerAt (j : Nat) : (b.release).peerAt j = b.peerAt j := rfl
@[simp] theorem Inst.release_timing : (b.release).timing = b.timing := rfl
@[simp] theorem Inst.release_readBuf (j : Nat) : (b.release).readBuf j = b.readBuf j := rfl
@[simp] theorem Inst.tick_timing : (b.tick).timing = b.timing := rfl
@[simp] theorem Inst.tick_readBuf (j : Nat) : (b.tick).readBuf j = b.readBuf j := rfl
@[simp] theorem Inst.timeoutStart_peerAt (d : Nat) (j : Nat) : (b.timeoutStart d).peerAt j = b.peerAt j := rfl
@[simp] theorem Inst.timeoutStart_line (d : Nat) : (b.timeoutStart d).line = b.line := rfl
@[simp] theorem Inst.timeoutStart_timing (d : Nat) : (b.timeoutStart d).timing = b.timing := rfl
@[simp] theorem Inst.timeoutStart_readBuf (d : Nat) (j : Nat) : (b.timeoutStart d).readBuf j = b.readBuf j := rfl
@[simp] theorem Inst.sleep_peerAt (d : Nat) (k : List Micro) (j : Nat) : (b.sleep d k).peerAt j = b.peerAt j := rfl
@[simp] theorem Inst.sleep_line (d : Nat) (k : List Micro) : (b.sleep d k).line = b.line := rfl
@[simp] theorem Inst.sleep_timing (d : Nat) (k : List Micro) : (b.sleep d k).timing = b.timing := rfl
@[simp] theorem Inst.sleep_readBuf (d : Nat) (k : List Micro) (j : Nat) : (b.sleep d k).readBuf j = b.readBuf j := rfl
@[simp] theorem Inst.goOn_peerAt (k : List Micro) (j : Nat) : (b.goOn k).peerAt j = b.peerAt j := rfl
@[simp] theorem Inst.goOn_line (k : List Micro) : (b.goOn k).line = b.line := rfl
@[simp] theorem Inst.goOn_timing (k : List Micro) : (b.goOn k).timing = b.timing := rfl
@[simp] theorem Inst.goOn_readBuf (k : List Micro) (j : Nat) : (b.goOn k).readBuf j = b.readBuf j := rfl
@[simp] theorem Inst.setResult_peerAt (c : Code) (st : Stage) (j : Nat) : (b.setResult c st).peerAt j = b.peerAt j := rfl
@[simp] theorem Inst.setResult_line (c : Code) (st : Stage) : (b.setResult c st).line = b.line := rfl
@[simp] theorem Inst.setResult_timing (c : Code) (st : Stage) : (b.setResult c st).timing = b.timing := rfl
@[simp] theorem Inst.setResult_readBuf (c : Code) (st : Stage) (j : Nat) : (b.setResult c st).readBuf j = b.readBuf j := rfl
@[simp] theorem Inst.complete_peerAt (j : Nat) : (b.complete).peerAt j = b.peerAt j := rfl
@[simp] theorem Inst.complete_line : (b.complete).line = b.line := rfl
@[simp] theorem Inst.complete_timing : (b.complete).timing = b.timing := rfl
@[simp] theorem Inst.complete_readBuf (j : Nat) : (b.complete).readBuf j = b.readBuf j := rfl
@[simp] theorem Inst.completeNow_peerAt (c : Code) (j : Nat) : (b.completeNow c).peerAt j = b.peerAt j := rfl
@[simp] theorem Inst.completeNow_line (c : Code) : (b.completeNow c).line = b.line := rfl
@[simp] theorem Inst.completeNow_timing (c : Code) : (b.completeNow c).timing = b.timing := rfl
@[simp] theorem Inst.completeNow_readBuf (c : Code) (j : Nat) : (b.completeNow c).readBuf j = b.readBuf j := rfl
@[simp] theorem Inst.finish_peerAt (c : Code) (st : Stage) (j : Nat) : (b.finish c st).peerAt j = b.peerAt j := rfl
@[simp] theorem Inst.finish_line (c : Code) (st : Stage) : (b.finish c st).line = b.line := rfl
@[simp] theorem Inst.finish_timing (c : Code) (st : Stage) : (b.finish c st).timing = b.timing := rfl
@[simp] theorem Inst.finish_readBuf (c : Code) (st : Stage) (j : Nat) : (b.finish c st).readBuf j = b.readBuf j := rfl
@[simp] theorem Inst.epilogue_peerAt (c : Code) (st : Stage) (j : Nat) : (b.epilogue c st).peerAt j = b.peerAt j := rfl
@[simp] theorem Inst.epilogue_line (c : Code) (st : Stage) : (b.epilogue c st).line = b.line := rfl
@[simp] theorem Inst.epilogue_timing (c : Code) (st : Stage) : (b.epilogue c st).timing = b.timing := rfl
@[simp] theorem Inst.epilogue_readBuf (c : Code) (st : Stage) (j : Nat) : (b.epilogue c st).readBuf j = b.readBuf j := rfl
@[simp] theorem Inst.after_timing (d : Nat) : (b.after d).timing = b.timing := rfl
@[simp] theorem Inst.after_readBuf (d : Nat) (j : Nat) : (b.after d).readBuf j = b.readBuf j := rfl
@[simp] theorem Inst.atPhase_peerAt (w : Nat) (k : List Micro) (j : Nat) : (b.atPhase w k).peerAt j = b.peerAt j := rfl
@[simp] theorem Inst.atPhase_line (w : Nat) (k : List Micro) : (b.atPhase w k).line = b.line := rfl
@[simp] theorem Inst.atPhase_timing (w : Nat) (k : List Micro) : (b.atPhase w k).timing = b.timing := rfl
@[simp] theorem Inst.atPhase_readBuf (w : Nat) (k : List Micro) (j : Nat) : (b.atPhase w k).readBuf j = b.readBuf j := rfl

end Sys2Proof.Machine
end

