-- ==== Sys2Proof/Laws/Memory.lean ====
section
/-! SUPPORT. The laws of the frame buffer: a read after a write, and the canonical form that every write keeps. -/

namespace Sys2Proof.Machine

/-- The first index of a canonical memory lies below every later one. -/
theorem Memory.wf_cons_lt {a : Host.Cell} {m : Memory} (h : Memory.wf (a :: m) = true) : ∀ c ∈ m, a.1 < c.1 := by
  induction m generalizing a with
  | nil => simp
  | cons b m ih =>
    simp only [Memory.wf, Bool.and_eq_true, decide_eq_true_eq] at h
    intro c hc
    rcases List.mem_cons.mp hc with rfl | hc
    · exact h.1
    · exact Nat.lt_trans h.1 (ih h.2 c hc)

theorem Memory.wf_tail {a : Host.Cell} {m : Memory} (h : Memory.wf (a :: m) = true) : Memory.wf m = true := by
  cases m with
  | nil => rfl
  | cons b m => simp only [Memory.wf, Bool.and_eq_true] at h; exact h.2

/-- A cell below every index of a canonical memory may stand before it. -/
theorem Memory.wf_cons {a : Host.Cell} {m : Memory} (h : Memory.wf m = true) (ha : ∀ c ∈ m, a.1 < c.1) :
    Memory.wf (a :: m) = true := by
  cases m with
  | nil => rfl
  | cons b m => simp only [Memory.wf, Bool.and_eq_true, decide_eq_true_eq]; exact ⟨ha b (by simp), h⟩

theorem Memory.mem_write {m : Memory} {k : Nat} {v : Byte} {c : Host.Cell} (h : c ∈ m.write k v) : c = (k, v) ∨ c ∈ m := by
  induction m with
  | nil => simpa [Memory.write] using h
  | cons a m ih =>
    simp only [Memory.write] at h
    split at h
    · simpa using h
    · split at h
      · rcases List.mem_cons.mp h with h | h
        · exact .inl h
        · exact .inr (List.mem_cons_of_mem _ h)
      · rcases List.mem_cons.mp h with h | h
        · exact .inr (h ▸ List.mem_cons_self)
        · exact (ih h).imp_right (List.mem_cons_of_mem _)

/-- A write keeps the canonical form. -/
theorem Memory.write_wf {m : Memory} (k : Nat) (v : Byte) (h : m.wf = true) : (m.write k v).wf = true := by
  induction m with
  | nil => rfl
  | cons a m ih =>
    simp only [Memory.write]
    split
    · rename_i hk
      refine Memory.wf_cons h fun c hc => ?_
      rcases List.mem_cons.mp hc with rfl | hc
      · exact hk
      · exact Nat.lt_trans hk (Memory.wf_cons_lt h c hc)
    · split
      · rename_i _ hk
        exact Memory.wf_cons (Memory.wf_tail h) fun c hc => by simpa [hk] using Memory.wf_cons_lt h c hc
      · rename_i h1 h2
        refine Memory.wf_cons (ih (Memory.wf_tail h)) fun c hc => ?_
        rcases Memory.mem_write hc with rfl | hc
        · simp only; omega
        · exact Memory.wf_cons_lt h c hc

/-- A read after a write in a canonical memory: the byte written there, every other byte as before. -/
theorem Memory.read_write {m : Memory} (k j : Nat) (v : Byte) (h : m.wf = true) :
    (m.write k v).read j = if j = k then some v else m.read j := by
  induction m with
  | nil => simp [Memory.write, Memory.read, eq_comm]
  | cons a m ih =>
    obtain ⟨a, w⟩ := a
    have low : ∀ c ∈ m, a < c.1 := Memory.wf_cons_lt h
    simp only [Memory.write]
    split
    · simp [Memory.read, eq_comm]
    · split
      · rename_i _ hk
        subst hk
        by_cases hj : j = k
        · simp [Memory.read, hj]
        · simp [Memory.read, hj, Ne.symm hj]
      · rename_i h1 h2
        simp only [Memory.read, ih (Memory.wf_tail h)]
        by_cases hj : a = j
        · subst hj
          simp [show a ≠ k by omega]
        · simp [hj]

/-- BUF after a write inside it. -/
theorem Inst.readBuf_writeBuf {b : Inst} {k : Nat} (v : Byte) (j : Nat) (hk : k < b.cfg.maxFrame) (h : b.buf.wf = true) :
    (b.writeBuf k v).readBuf j = if j = k then v else b.readBuf j := by
  unfold Inst.writeBuf Inst.readBuf
  rw [if_pos hk]
  simp only [Memory.read_write _ _ _ h]
  split <;> simp_all

theorem Inst.writeBuf_buf_wf {b : Inst} (k : Nat) (v : Byte) (h : b.buf.wf = true) : (b.writeBuf k v).buf.wf = true := by
  unfold Inst.writeBuf
  split
  · exact Memory.write_wf k v h
  · exact h

theorem Inst.writeBuf_inside {b : Inst} (k : Nat) (v : Byte) (h : ∀ c ∈ b.buf, c.1 < b.cfg.maxFrame) :
    ∀ c ∈ (b.writeBuf k v).buf, c.1 < b.cfg.maxFrame := by
  unfold Inst.writeBuf
  split
  · rename_i hk
    intro c hc
    rcases Memory.mem_write hc with rfl | hc
    · exact hk
    · exact h c hc
  · exact h

/-- The memory right after reset lists nothing. -/
@[simp] theorem Inst.initial_buf_wf (c : Params) (n r : Nat) : (Inst.initial c n r).buf.wf = true := rfl

end Sys2Proof.Machine
end

