-- ==== Sys2Proof/Laws/Instances.lean ====
section
/-! SUPPORT. The instances of the machine as one list: what rewinding, marking an instance and the end of a tick do to it. -/

namespace Sys2Proof.Machine

theorem rewind_eq (lower : List Inst) (b : Inst) (upper : List Inst) :
    (rewind lower b upper).1 :: (rewind lower b upper).2 = lower.reverse ++ b :: upper := by
  induction lower generalizing b upper with
  | nil => simp [rewind]
  | cons a lower ih => simp [rewind, ih]

@[simp] theorem State.rewound_insts (s : State) : s.rewound.insts = s.insts := by
  simp only [State.insts, State.rewound, List.reverse_nil, List.nil_append]
  exact rewind_eq _ _ _

@[simp] theorem State.rewound_lower (s : State) : s.rewound.lower = [] := rfl
@[simp] theorem State.rewound_turn (s : State) : s.rewound.turn = s.turn := rfl
@[simp] theorem State.rewound_host (s : State) : s.rewound.host = s.host := rfl
@[simp] theorem State.rewound_seen (s : State) : s.rewound.seen = s.seen := rfl

/-- The state whose only instance is marked is its own rewinding. -/
theorem State.rewound_of_lower_nil {s : State} (h : s.lower = []) : s.rewound = s := by
  cases s; simp_all [State.rewound, rewind]

/-- Moving the mark up succeeds exactly when there are enough instances above, and changes only where the mark is. -/
theorem State.up_spec (s : State) (n : Nat) :
    (s.up n = none ↔ s.upper.length < n) ∧
    ∀ s', s.up n = some s' → s'.insts = s.insts ∧ s'.lower.length = s.lower.length + n ∧
      s'.turn = s.turn ∧ s'.host = s.host ∧ s'.seen = s.seen := by
  induction n generalizing s with
  | zero =>
    refine ⟨by simp [State.up], ?_⟩
    rintro s' h
    simp only [State.up, Option.some.injEq] at h
    subst h
    simp
  | succ n ih =>
    cases hu : s.upper with
    | nil => simp [State.up, hu]
    | cons a upper =>
      simp only [State.up, hu]
      obtain ⟨h1, h2⟩ := ih { s with inst := a, lower := s.inst :: s.lower, upper := upper }
      refine ⟨by simpa using h1, fun s' h => ?_⟩
      obtain ⟨e1, e2, e3, e4, e5⟩ := h2 s' h
      refine ⟨?_, ?_, e3, e4, e5⟩
      · rw [e1]; simp [State.insts, hu]
      · simp only [e2, List.length_cons]; omega

/-- The marked instance stands at the mark's place. -/
theorem State.insts_getElem_lower (s : State) : s.insts[s.lower.length]? = some s.inst := by
  simp [State.insts]

/-- Marking instance `n`: it succeeds exactly when there is one, marks it, and changes no instance and nothing else. -/
theorem State.focus_spec (s : State) (n : Nat) :
    (s.focus n = none ↔ s.insts.length ≤ n) ∧
    ∀ s', s.focus n = some s' → s'.insts = s.insts ∧ s.insts[n]? = some s'.inst ∧ s'.lower.length = n ∧
      s'.turn = s.turn ∧ s'.host = s.host ∧ s'.seen = s.seen := by
  obtain ⟨h1, h2⟩ := State.up_spec s.rewound n
  refine ⟨?_, fun s' h => ?_⟩
  · have hl : s.insts.length = s.rewound.upper.length + 1 := by
      rw [← State.rewound_insts]; simp [State.insts]
    rw [State.focus, h1, hl]
    omega
  · obtain ⟨e1, e2, e3, e4, e5⟩ := h2 s' h
    simp only [State.rewound_insts, State.rewound_lower, List.length_nil, Nat.zero_add, State.rewound_turn,
      State.rewound_host, State.rewound_seen] at e1 e2 e3 e4 e5
    refine ⟨e1, ?_, e2, e3, e4, e5⟩
    rw [← e1, ← e2]
    exact s'.insts_getElem_lower

/-- Two states with the same instances and the mark at the same place have the same marked instance and the same neighbours. -/
theorem State.zipper_unique {s s' : State} (h : s.insts = s'.insts) (hl : s.lower.length = s'.lower.length) :
    s.lower = s'.lower ∧ s.inst = s'.inst ∧ s.upper = s'.upper := by
  have hr : s.lower.reverse.length = s'.lower.reverse.length := by simpa using hl
  obtain ⟨e1, e2⟩ := List.append_inj h hr
  rw [List.cons.injEq] at e2
  exact ⟨List.reverse_inj.mp e1, e2.1, e2.2⟩

/-- Marking the instance that is marked changes nothing. -/
theorem State.focus_self (s : State) : s.focus s.lower.length = some s := by
  have hn : s.focus s.lower.length ≠ none := by
    rw [Ne, (s.focus_spec _).1]
    simp [State.insts]
  obtain ⟨s', h⟩ := Option.ne_none_iff_exists'.mp hn
  obtain ⟨e1, -, e2, e3, e4, e5⟩ := (s.focus_spec _).2 s' h
  obtain ⟨z1, z2, z3⟩ := State.zipper_unique e1 e2
  rw [h]
  cases s; cases s'; simp_all

/-- The instances after the marked one was changed. -/
theorem State.onInst_insts (s : State) (f : Inst → Inst) :
    (s.onInst f).insts = s.insts.set s.lower.length (f s.inst) := by
  simp [State.insts, State.onInst]

/-- The end of a tick is the end of a tick for every instance. -/
@[simp] theorem State.endTick_insts (s : State) : s.endTick.insts = s.insts.map Inst.tick := by
  have h : s.endTick.insts = s.rewound.insts.map Inst.tick := by
    simp only [State.insts, State.endTick, State.rewound_lower, List.reverse_nil, List.nil_append, List.map_cons]
  rw [h, State.rewound_insts]

@[simp] theorem State.endTick_turn (s : State) : s.endTick.turn = .sequencer := rfl
@[simp] theorem State.endTick_host (s : State) : s.endTick.host = s.host := rfl
@[simp] theorem State.endTick_seen (s : State) : s.endTick.seen = s.seen := rfl
@[simp] theorem State.endTick_lower (s : State) : s.endTick.lower = [] := rfl

end Sys2Proof.Machine
end

