-- ==== Sys2Proof/Laws/Sequencer.lean ====
section
/-! SUPPORT. When the sequencer has an operation due, what an operation leaves alone, and what one move of the sequencer phase can do. -/

namespace Sys2Proof.Machine

/-! ## What is due -/

theorem Inst.due_eq_some {b : Inst} {m : Micro} {k : List Micro} :
    b.due = some (m, k) ↔ ∃ w, b.seq.phase = .run w (m :: k) ∧ w ≤ b.now := by
  unfold Inst.due
  split
  · simp_all
  · simp_all
  · rename_i w m' k' h
    rw [h]
    constructor
    · intro hd
      split at hd
      · cases hd
        exact ⟨w, rfl, by assumption⟩
      · cases hd
    · rintro ⟨w', hp, hw⟩
      cases hp
      exact if_pos hw

theorem Inst.due_of_phase {b : Inst} {w : Nat} {m : Micro} {k : List Micro} (h : b.seq.phase = .run w (m :: k))
    (hw : w ≤ b.now) : b.due = some (m, k) := Inst.due_eq_some.mpr ⟨w, h, hw⟩

@[simp] theorem Inst.goOn_due (b : Inst) (m : Micro) (k : List Micro) : (b.goOn (m :: k)).due = some (m, k) :=
  Inst.due_of_phase rfl (Nat.le_refl _)

theorem Inst.due_idle {b : Inst} (h : b.seq.phase = .idle) : b.due = none := by
  unfold Inst.due; rw [h]

/-- While the current primitive has not ended, nothing is due. -/
theorem Inst.due_waiting {b : Inst} {w : Nat} {k : List Micro} (h : b.seq.phase = .run w k) (hw : b.now < w) : b.due = none := by
  cases hd : b.due with
  | none => rfl
  | some mk =>
    obtain ⟨w', h', hw'⟩ := Inst.due_eq_some.mp hd
    rw [h] at h'
    cases h'
    omega

/-! ## What an operation leaves alone -/

/-- The parts of an instance no operation of the sequencer changes. -/
structure Inst.SameOutside (b c : Inst) : Prop where
  cfg : c.cfg = b.cfg
  num : c.num = b.num
  now : c.now = b.now
  ie : c.ie = b.ie
  devAddr : c.devAddr = b.devAddr
  txLen : c.txLen = b.txLen
  peer : c.peer = b.peer
  resets : c.resets = b.resets
  en : c.status.en = b.status.en
  cmdLost : c.status.cmdLost = b.status.cmdLost

theorem Inst.raiseAt_sameOutside (b : Inst) (site : Site) (c : Code) : b.SameOutside (b.raiseAt site c) := by
  cases site <;> exact ⟨rfl, rfl, rfl, rfl, rfl, rfl, rfl, rfl, rfl, rfl⟩

theorem Inst.pollTimeout_sameOutside (b : Inst) (use : PollUse) : b.SameOutside (b.pollTimeout use) := by
  cases use <;> exact Inst.raiseAt_sameOutside _ _ _

theorem Inst.polled_sameOutside (b : Inst) (use : PollUse) (c : Nat) (k : List Micro) : b.SameOutside (b.polled use c k) := by
  cases use <;> exact ⟨rfl, rfl, rfl, rfl, rfl, rfl, rfl, rfl, rfl, rfl⟩

theorem Inst.doPollLoop_sameOutside (b : Inst) (lv : Level) (bound : Nat) (use : PollUse) (k : List Micro) :
    b.SameOutside (b.doPollLoop lv bound use k) := by
  unfold Inst.doPollLoop
  split
  · exact Inst.polled_sameOutside _ _ _ _
  · split
    · exact ⟨(Inst.pollTimeout_sameOutside _ _).1, (Inst.pollTimeout_sameOutside _ _).2,
        (Inst.pollTimeout_sameOutside _ _).3, (Inst.pollTimeout_sameOutside _ _).4, (Inst.pollTimeout_sameOutside _ _).5,
        (Inst.pollTimeout_sameOutside _ _).6, (Inst.pollTimeout_sameOutside _ _).7, (Inst.pollTimeout_sameOutside _ _).8,
        (Inst.pollTimeout_sameOutside _ _).9, (Inst.pollTimeout_sameOutside _ _).10⟩
    · exact ⟨rfl, rfl, rfl, rfl, rfl, rfl, rfl, rfl, rfl, rfl⟩

theorem Inst.doRxStore_sameOutside (b : Inst) (k : List Micro) : b.SameOutside (b.doRxStore k) := by
  unfold Inst.doRxStore
  constructor <;> simp

/-- No operation of the sequencer changes the configuration, time, CTRL, ADDR, LEN, EN, CMD_LOST or the environment. -/
theorem Inst.perform_sameOutside (b : Inst) (m : Micro) (k : List Micro) : b.SameOutside (b.perform m k) := by
  have same : ∀ c : Inst, c.cfg = b.cfg → c.num = b.num → c.now = b.now → c.ie = b.ie → c.devAddr = b.devAddr →
      c.txLen = b.txLen → c.peer = b.peer → c.resets = b.resets → c.status.en = b.status.en →
      c.status.cmdLost = b.status.cmdLost → b.SameOutside c := fun c h1 h2 h3 h4 h5 h6 h7 h8 h9 h10 =>
    ⟨h1, h2, h3, h4, h5, h6, h7, h8, h9, h10⟩
  cases m with
  | pollLoop lv bound use => exact b.doPollLoop_sameOutside lv bound use k
  | rxStore => exact b.doRxStore_sameOutside k
  | sendBit bit => simp only [Inst.perform, Inst.doSendBit]; split <;> exact same _ rfl rfl rfl rfl rfl rfl rfl rfl rfl rfl
  | sendBitsLoop => simp only [Inst.perform, Inst.doSendBitsLoop]; split <;> exact same _ rfl rfl rfl rfl rfl rfl rfl rfl rfl rfl
  | recvBitsLoop site => simp only [Inst.perform, Inst.doRecvBitsLoop]; split <;> exact same _ rfl rfl rfl rfl rfl rfl rfl rfl rfl rfl
  | arbLoop =>
    simp only [Inst.perform, Inst.doArbLoop]
    split
    · exact same _ rfl rfl rfl rfl rfl rfl rfl rfl rfl rfl
    · split <;> exact same _ rfl rfl rfl rfl rfl rfl rfl rfl rfl rfl
  | arbConfirm => simp only [Inst.perform, Inst.doArbConfirm]; split <;> exact same _ rfl rfl rfl rfl rfl rfl rfl rfl rfl rfl
  | startCondition => simp only [Inst.perform, Inst.doStartCondition]; split <;> exact same _ rfl rfl rfl rfl rfl rfl rfl rfl rfl rfl
  | gap => simp only [Inst.perform, Inst.doGap]; split <;> exact same _ rfl rfl rfl rfl rfl rfl rfl rfl rfl rfl
  | addrByte => simp only [Inst.perform, Inst.doAddrByte]; split <;> exact same _ rfl rfl rfl rfl rfl rfl rfl rfl rfl rfl
  | payload => simp only [Inst.perform, Inst.doPayload]; split <;> exact same _ rfl rfl rfl rfl rfl rfl rfl rfl rfl rfl
  | checkAck => simp only [Inst.perform, Inst.doCheckAck]; split <;> exact same _ rfl rfl rfl rfl rfl rfl rfl rfl rfl rfl
  | lenFirst => simp only [Inst.perform, Inst.doLenFirst]; split <;> exact same _ rfl rfl rfl rfl rfl rfl rfl rfl rfl rfl
  | checkLen => simp only [Inst.perform, Inst.doCheckLen]; split <;> exact same _ rfl rfl rfl rfl rfl rfl rfl rfl rfl rfl
  | rxPayload => simp only [Inst.perform, Inst.doRxPayload]; split <;> exact same _ rfl rfl rfl rfl rfl rfl rfl rfl rfl rfl
  | _ => exact same _ rfl rfl rfl rfl rfl rfl rfl rfl rfl rfl

@[simp] theorem Inst.perform_now (b : Inst) (m : Micro) (k : List Micro) : (b.perform m k).now = b.now :=
  (b.perform_sameOutside m k).now

/-! ## The sequencer phase -/

/-- One move of the sequencer phase: an operation of the instance in turn, the turn of the next instance, or the host's turn. -/
theorem State.sequencerMove_cases (s : State) :
    (∃ m k, s.inst.due = some (m, k) ∧ s.sequencerMove = s.onInst fun b => b.perform m k) ∨
    (s.inst.due = none ∧ ∃ a upper, s.upper = a :: upper ∧
      s.sequencerMove = { s with inst := a, lower := s.inst :: s.lower, upper := upper }) ∨
    (s.inst.due = none ∧ s.upper = [] ∧ s.sequencerMove = { s with turn := .host }) := by
  unfold State.sequencerMove
  cases hd : s.inst.due with
  | some mk => exact .inl ⟨mk.1, mk.2, rfl, rfl⟩
  | none =>
    cases hu : s.upper with
    | nil => exact .inr (.inr ⟨rfl, rfl, rfl⟩)
    | cons a upper => exact .inr (.inl ⟨rfl, a, upper, rfl, rfl⟩)

end Sys2Proof.Machine
end

