-- ==== Sys2Proof/Laws/Commands.lean ====
section
/-! SUPPORT. What a command can do: one lemma for all of them. -/

namespace Sys2Proof.Machine

/-- An accepted command's effect on the instance (R160 cases 2 to 6). -/
def Inst.runCommand (b : Inst) : Instr → Inst
  | .init => { b.release with status := { b.status with en := true } }.completeNow .ok
  | .deinit => { b.release with status := { b.status with en := false } }.completeNow .ok
  | .sendFrame p => b.whenEnabled fun b =>
      if lmaxTx b.cfg < b.txLen.toNat then b.completeNow .bufferOverrun else b.launch .sendFrame p sendFrameSteps
  | .recvFrame p => b.whenEnabled fun b => b.launch .recvFrame p recvFrameSteps
  | .wake p => b.whenEnabled fun b => b.launch .wake p (wakeSteps b.cfg)
  | .recover p => b.whenEnabled fun b => b.launch .recover p (recoverSteps b.cfg p)
  | .reserved0 => b.completeNow .commandRejected
  | .reserved7 => b.completeNow .commandRejected
  | .reserved8F _ => b.completeNow .commandRejected

/-- Every command answers a next state, in which only the marked instance has changed. -/
theorem exec_eq (i : Instr) (s : State) :
    exec i s = .next (s.onInst fun b => b.accept fun b => b.runCommand i) := by
  cases i <;> rfl

theorem Inst.accept_busy {b : Inst} (go : Inst → Inst) (h : b.status.busy = true) :
    b.accept go = { b with status := { b.status with cmdLost := true } } := by
  simp [Inst.accept, h]

theorem Inst.accept_free {b : Inst} (go : Inst → Inst) (h : b.status.busy = false) :
    b.accept go =
      go { b with status := { b.status with done := false, code := .ok, stage := .none }, rxLen := 0#16 } := by
  simp [Inst.accept, h]

theorem Inst.whenEnabled_on {b : Inst} (go : Inst → Inst) (h : b.status.en = true) : b.whenEnabled go = go b := by
  simp [Inst.whenEnabled, h]

theorem Inst.whenEnabled_off {b : Inst} (go : Inst → Inst) (h : b.status.en = false) :
    b.whenEnabled go = b.completeNow .commandRejected := by
  simp [Inst.whenEnabled, h]

/-- How an accepted command continues: it ends inside the CMD write, or it launches a sequence (R160). -/
inductive Inst.Accepted (b : Inst) (i : Instr) : Prop where
  | init (hi : i = .init) (h : b.runCommand i = { b.release with status := { b.status with en := true } }.completeNow .ok)
  | deinit (hi : i = .deinit) (h : b.runCommand i = { b.release with status := { b.status with en := false } }.completeNow .ok)
  | rejected (h : b.runCommand i = b.completeNow .commandRejected)
  | overrun (h : b.runCommand i = b.completeNow .bufferOverrun)
  | send (p : Profile) (hi : i = .sendFrame p) (en : b.status.en = true) (len : b.txLen.toNat ≤ lmaxTx b.cfg)
      (h : b.runCommand i = b.launch .sendFrame p sendFrameSteps)
  | recv (p : Profile) (hi : i = .recvFrame p) (en : b.status.en = true)
      (h : b.runCommand i = b.launch .recvFrame p recvFrameSteps)
  | wake (p : Profile) (hi : i = .wake p) (en : b.status.en = true)
      (h : b.runCommand i = b.launch .wake p (wakeSteps b.cfg))
  | recover (p : Profile) (hi : i = .recover p) (en : b.status.en = true)
      (h : b.runCommand i = b.launch .recover p (recoverSteps b.cfg p))

theorem Inst.accepted (b : Inst) (i : Instr) : b.Accepted i := by
  cases i with
  | init => exact .init rfl rfl
  | deinit => exact .deinit rfl rfl
  | reserved0 => exact .rejected rfl
  | reserved7 => exact .rejected rfl
  | reserved8F op => exact .rejected rfl
  | sendFrame p =>
    cases he : b.status.en with
    | false => exact .rejected (by simp [Inst.runCommand, Inst.whenEnabled, he])
    | true =>
      by_cases hl : lmaxTx b.cfg < b.txLen.toNat
      · exact .overrun (by simp [Inst.runCommand, Inst.whenEnabled, he, hl])
      · exact .send p rfl he (Nat.not_lt.mp hl) (by simp [Inst.runCommand, Inst.whenEnabled, he, hl])
  | recvFrame p =>
    cases he : b.status.en with
    | false => exact .rejected (by simp [Inst.runCommand, Inst.whenEnabled, he])
    | true => exact .recv p rfl he (by simp [Inst.runCommand, Inst.whenEnabled, he])
  | wake p =>
    cases he : b.status.en with
    | false => exact .rejected (by simp [Inst.runCommand, Inst.whenEnabled, he])
    | true => exact .wake p rfl he (by simp [Inst.runCommand, Inst.whenEnabled, he])
  | recover p =>
    cases he : b.status.en with
    | false => exact .rejected (by simp [Inst.runCommand, Inst.whenEnabled, he])
    | true => exact .recover p rfl he (by simp [Inst.runCommand, Inst.whenEnabled, he])

end Sys2Proof.Machine
end

