-- ==== Sys2Proof/Laws/Host.lean ====
section
/-! SUPPORT. What one move of the host phase, and one step of the machine, can do. -/

namespace Sys2Proof.Machine

/-- A host access that goes on: a read returns a value, a register or BUF write changes the marked instance, or a reserved byte is
written. -/
theorem State.access_go {s t : State} {a : Access} (h : s.access a = .go t) :
    (∃ v, t = s.answer v) ∨ (∃ r w, r ≠ .cmd ∧ t = s.onInst fun b => b.writeReg r w) ∨
    (s.inst.status.busy = false ∧ ∃ k v, t = s.onInst fun b => b.writeBuf k v) ∨ t = s := by
  unfold State.access at h
  split at h
  · split at h
    · cases h; exact .inl ⟨_, rfl⟩
    · split at h
      · cases h
      · cases h; exact .inl ⟨_, rfl⟩
    · cases h; exact .inl ⟨_, rfl⟩
    · cases h
  · split at h
    · cases h
    · rename_i hr _
      cases h
      exact .inr (.inl ⟨_, _, fun hc => hr (by rw [hc]), rfl⟩)
    · split at h
      · cases h
      · rename_i hb
        cases h
        exact .inr (.inr (.inl ⟨by simpa using hb, _, _, rfl⟩))
    · cases h; exact .inr (.inr (.inr rfl))
    · cases h

/-- A host access that is a CMD write. -/
theorem State.access_command {s t : State} {a : Access} {i : Instr} (h : s.access a = .command i t) :
    t = s ∧ ∃ off width w, a = .write off width w ∧ i = decode w := by
  unfold State.access at h
  split at h
  · split at h
    · cases h
    · split at h <;> cases h
    · cases h
    · cases h
  · split at h
    · cases h; exact ⟨rfl, _, _, _, rfl, rfl⟩
    · cases h
    · split at h <;> cases h
    · cases h
    · cases h

/-- One step that answers a next state. -/
inductive StepTo (s : State) : State → Prop where
  /-- a move of the sequencer phase -/
  | sequencer (turn : s.turn = .sequencer) : StepTo s s.sequencerMove
  /-- the end of the tick, with the host's script `ops` left and `seen` read -/
  | tick (turn : s.turn = .host) (ops : List HostOp) (seen : List Word) :
      StepTo s { s with host := ops, seen := seen }.endTick
  /-- a command issued to the marked instance of `f` -/
  | command (turn : s.turn = .host) (n : Nat) (ops : List HostOp) (f : State) (i : Instr)
      (focus : { s with host := ops }.focus n = some f) : StepTo s (f.onInst fun b => b.accept fun b => b.runCommand i)
  /-- a value returned to the host -/
  | answer (turn : s.turn = .host) (n : Nat) (ops : List HostOp) (f : State) (v : Word)
      (focus : { s with host := ops }.focus n = some f) : StepTo s (f.answer v)
  /-- a register write -/
  | writeReg (turn : s.turn = .host) (n : Nat) (ops : List HostOp) (f : State) (r : Reg) (w : Word)
      (focus : { s with host := ops }.focus n = some f) : StepTo s (f.onInst fun b => b.writeReg r w)
  /-- a BUF write -/
  | writeBuf (turn : s.turn = .host) (n : Nat) (ops : List HostOp) (f : State) (k : Nat) (v : Byte)
      (focus : { s with host := ops }.focus n = some f) (free : f.inst.status.busy = false) :
      StepTo s (f.onInst fun b => b.writeBuf k v)
  /-- an ignored write -/
  | ignored (turn : s.turn = .host) (n : Nat) (ops : List HostOp) (f : State)
      (focus : { s with host := ops }.focus n = some f) : StepTo s f
  /-- the payload reads of `recv_frame` put on the host's script -/
  | expand (turn : s.turn = .host) (ops : List HostOp) : StepTo s { s with host := ops }
  /-- the reset input -/
  | reset (turn : s.turn = .host) (n : Nat) (ops : List HostOp) (f : State)
      (focus : { s with host := ops }.focus n = some f) : StepTo s (f.onInst Inst.reset)

/-- A host access to an instance that goes on. -/
theorem State.accessTo_go {s t : State} {n : Nat} {a : Access} (h : s.accessTo n a = .go t) :
    ∃ f, s.focus n = some f ∧ f.access a = .go t := by
  unfold State.accessTo at h
  split at h
  · exact ⟨_, by assumption, h⟩
  · cases h

/-- A host access to an instance that is a CMD write. -/
theorem State.accessTo_command {s t : State} {n : Nat} {a : Access} {i : Instr} (h : s.accessTo n a = .command i t) :
    s.focus n = some t ∧ ∃ off width w, a = .write off width w ∧ i = decode w := by
  unfold State.accessTo at h
  split at h
  · obtain ⟨rfl, hw⟩ := State.access_command h
    exact ⟨by assumption, hw⟩
  · cases h

/-- A host access by host address that is no fault of the address is an access to an instance. -/
theorem State.accessBus_cases (s : State) (a : Access) :
    s.accessBus a = .fault (.noRegisterBlock a.off) ∨
    ∃ n base, s.holders a.off = [(n, base)] ∧ s.accessBus a = s.accessTo n (a.moveTo (a.off - base)) := by
  unfold State.accessBus
  split
  · exact .inr ⟨_, _, by assumption, rfl⟩
  · exact .inl rfl

/-- What an access to an instance, with its end as a step, can do. -/
theorem StepTo.of_access {s t : State} {n : Nat} {a : Access} {ops : List HostOp} (ht : s.turn = .host)
    (h : (match ({ s with host := ops } : State).accessTo n a with
      | .command i s' => exec i s'
      | .go s' => .next s'
      | .fault r => .fault r
      | .refuse r => .refused r) = .next t) : StepTo s t := by
  cases ha : ({ s with host := ops } : State).accessTo n a with
  | command i u =>
    rw [ha] at h
    obtain ⟨hf, -⟩ := State.accessTo_command ha
    simp only [exec_eq] at h
    cases h
    exact .command ht n ops u i hf
  | go u =>
    rw [ha] at h
    cases h
    obtain ⟨f, hf, hu⟩ := State.accessTo_go ha
    rcases State.access_go hu with ⟨v, rfl⟩ | ⟨r, w, -, rfl⟩ | ⟨hb, k, v, rfl⟩ | rfl
    · exact .answer ht n ops f v hf
    · exact .writeReg ht n ops f r w hf
    · exact .writeBuf ht n ops f k v hf hb
    · exact .ignored ht n ops _ hf
  | fault r => rw [ha] at h; cases h
  | refuse r => rw [ha] at h; cases h

theorem step_cases {s t : State} (h : step s = .next t) : StepTo s t := by
  unfold step at h
  split at h
  · rename_i ht
    cases h
    exact .sequencer ht
  · rename_i ht
    unfold State.hostMove at h
    cases hh : s.host with
    | nil =>
      simp only [hh] at h
      cases h
      have := StepTo.tick (s := s) ht s.host s.seen
      simpa using this
    | cons op ops =>
      simp only [hh] at h
      cases op with
      | tick =>
        cases h
        exact .tick ht ops s.seen
      | readPayload n =>
        cases h
        exact .expand ht _
      | access n a => exact .of_access ht h
      | bus a =>
        rcases State.accessBus_cases { s with host := ops } a with hb | ⟨n, base, -, hb⟩
        · simp [hb] at h
        · simp only [hb] at h
          exact .of_access ht h
      | waitDone n =>
        cases hf : ({ s with host := ops } : State).focus n with
        | none => simp [hf] at h
        | some f =>
          simp only [hf] at h
          unfold State.waitDone at h
          split at h
          · cases h
            exact .answer ht n ops f _ hf
          · cases h
            have := StepTo.tick (s := s) ht s.host (f.inst.status.word :: s.seen)
            simpa using this
      | reset n =>
        cases hf : ({ s with host := ops } : State).focus n with
        | none => simp [hf] at h
        | some f =>
          simp only [hf] at h
          cases h
          exact .reset ht n ops f hf

end Sys2Proof.Machine
end

