-- ==== Sys2Proof/Laws/Invariant.lean ====
section
/-! SUPPORT. The pending operations of a running command: what `todoOk` depends on, and that every operation of the sequencer leads to
pending operations that meet it again. -/

namespace Sys2Proof.Machine

/-! ## What `todoOk` depends on -/

/-- More is known in `g'` than in `g`. -/
structure Known.Le (g g' : Known) : Prop where
  released : g.released = true → g'.released = true
  bitLeft : g.bitLeft = true → g'.bitLeft = true
  passOpen : g.passOpen = true → g'.passOpen = true
  lenFits : g.lenFits = true → g'.lenFits = true
  resultLegal : g.resultLegal = true → g'.resultLegal = true

theorem Known.Le.refl (g : Known) : g.Le g := ⟨id, id, id, id, id⟩

/-- Pending operations that are judged right stay so when more is known, and what is known of a byte's bits, of a pass of a payload loop,
or of the length matters only where an operation that uses it is pending. -/
theorem todoOk_transfer {op : SeqOp} {g g' : Known} {k : List Micro} (h : todoOk op g k = true)
    (hr : g.released = true → g'.released = true)
    (hb : k.any Micro.inByte = true → g.bitLeft = true → g'.bitLeft = true)
    (hp : k.any Micro.inPass = true → g.passOpen = true → g'.passOpen = true)
    (hl : k.any Micro.inLoop = true → g.lenFits = true → g'.lenFits = true)
    (hc : g.resultLegal = true → g'.resultLegal = true) : todoOk op g' k = true := by
  induction k generalizing g g' with
  | nil => simp [todoOk] at h
  | cons m k ih =>
    have h1 := @ih { g with released := true } { g' with released := true }
    have h2 := @ih { g with released := false } { g' with released := false }
    have h3 := @ih g g'
    clear ih
    cases m <;>
      simp only [todoOk, Bool.and_eq_true, Bool.or_eq_true, List.any_cons, Micro.inByte, Micro.inPass, Micro.inLoop,
        Bool.false_eq_true, false_or, true_or, forall_const, Bool.false_or, Bool.true_or, reduceCtorEq, beq_iff_eq] at * <;>
      grind

/-- What is pending of `op` in an instance, where the pending operations are ones its rule leads to. -/
def Inst.Pending (b : Inst) (op : SeqOp) : Prop :=
  ∃ w todo, b.seq.phase = .run w todo ∧ todoOk op (b.known op) todo = true

theorem Inst.pending_goOn {b : Inst} {op : SeqOp} {todo : List Micro} (h : todoOk op (b.known op) todo = true) :
    (b.goOn todo).Pending op := ⟨_, _, rfl, h⟩

theorem Inst.pending_sleep {b : Inst} {op : SeqOp} {d : Nat} {todo : List Micro} (h : todoOk op (b.known op) todo = true) :
    (b.sleep d todo).Pending op := ⟨_, _, rfl, h⟩

/-- A failure's result is one the command may report, and the epilogue follows it (R125, R130, R134). -/
theorem Inst.pending_epilogue {b : Inst} {op : SeqOp} {c : Code} {st : Stage} (hp : b.pin = .released)
    (h : legalResult op c st = true) : (b.epilogue c st).Pending op :=
  ⟨_, _, rfl, by simp [todoOk, Inst.known, h, hp]⟩

theorem Inst.pending_finish {b : Inst} {op : SeqOp} {c : Code} {st : Stage} (hp : b.pin = .released)
    (h : legalResult op c st = true) : (b.finish c st).Pending op :=
  ⟨_, _, rfl, by simp [todoOk, Inst.known, h, hp]⟩

theorem Inst.pending_pollTimeout {b : Inst} {op : SeqOp} {use : PollUse} (hp : b.pin = .released)
    (h : use.fits op = true) : (b.pollTimeout use).Pending op := by
  cases use with
  | _ site =>
    cases op <;> cases site <;> first
      | (simp [PollUse.fits, Site.sends, Site.receives] at h; done)
      | exact Inst.pending_finish hp rfl
      | exact Inst.pending_epilogue hp rfl

theorem output_not_released (v : Level) : ({ dir := .output, out := v } : Pin) ≠ .released := by simp [Pin.released]
/-- The bytes sent at a call that belongs to the command. -/
theorem todoOk_gappedBytes {op : SeqOp} {g : Known} {site : Site} {vs : List Byte} {k : List Micro} (hs : site.sends op = true)
    (hk : k.any Micro.inByte = false) (h : todoOk op { g with released := true } k = true)
    (hr : vs = [] → g.released = true) : todoOk op g (gappedBytes site vs ++ k) = true := by
  induction vs generalizing g with
  | nil =>
    simp only [gappedBytes, List.flatMap_nil, List.nil_append]
    exact todoOk_transfer h (by simp [hr rfl]) (by simp) (by simp) (by simp) (by simp)
  | cons v vs ih =>
    have := @ih { g with released := true } (by simpa using h) (by simp)
    have hn : (gappedBytes site vs ++ k).any Micro.inByte = false := by
      simp only [List.any_append, hk, Bool.or_false]
      simp [gappedBytes, Micro.inByte]
    simp only [gappedBytes, List.flatMap_cons, List.cons_append, List.nil_append, todoOk, hs] at this ⊢
    simp only [gappedBytes] at hn
    simp [hn, this]

/-- Every operation but the last leads to pending operations that its command's rule leads to. -/
theorem Inst.perform_pending {b : Inst} {op : SeqOp} {m : Micro} {k : List Micro}
    (h : todoOk op (b.known op) (m :: k) = true) (hm : m ≠ .complete) : (b.perform m k).Pending op := by
  cases m <;> simp only [todoOk, Bool.and_eq_true, Bool.or_eq_true] at h <;> simp only [Inst.perform]
  case hold => exact Inst.pending_goOn (by simp only [todoOk]; exact todoOk_transfer h (by simp) (fun _ h => h) (fun _ h => h) (fun _ h => h) (fun h => h))
  case release => exact Inst.pending_goOn (todoOk_transfer h (by simp [Inst.known]) (fun _ h => h) (fun _ h => h) (fun _ h => h) (fun h => h))
  case wait => exact Inst.pending_sleep (by simpa [todoOk, Inst.known] using h)
  case poll => exact Inst.pending_goOn (by simpa [todoOk, Inst.known, and_assoc] using h)
  case pollLoop lv bound use =>
    have hp : b.pin = .released := by simpa [Inst.known] using h.1.1.1.1
    unfold Inst.doPollLoop
    split
    · cases use with
      | ack site => exact Inst.pending_goOn h.2
      | bitHigh site => exact Inst.pending_goOn (by simpa [todoOk, Inst.known, and_assoc, PollUse.fits, PollUse.ofBit] using h)
      | bitLow site =>
        refine Inst.pending_goOn ?_
        simp [todoOk, Inst.known, and_assoc, PollUse.fits] at h ⊢
        refine ⟨h.1, h.2.1, by simp_all, todoOk_transfer h.2.2.2.2 (by simp) ?_ (by simp) (by simp) (by simp)⟩
        simp_all
    · split
      · exact Inst.pending_pollTimeout hp h.1.1.1.2
      · exact Inst.pending_goOn (by simpa [todoOk, Inst.known, and_assoc] using h)
  case sendSync => exact Inst.pending_goOn (by simpa [todoOk, Inst.known] using h)
  case sendBit bit =>
    unfold Inst.doSendBit; split <;> exact Inst.pending_goOn (by simpa [todoOk, Inst.known] using h)
  case sendBits v =>
    refine Inst.pending_goOn ?_
    simp [todoOk, Inst.known] at h ⊢
    refine ⟨h.1, todoOk_transfer h.2 (by simp) ?_ (by simp) (by simp) (by simp)⟩
    simp_all
  case sendBitsLoop =>
    unfold Inst.doSendBitsLoop
    split
    · exact Inst.pending_goOn (by simpa [todoOk, Inst.known, *] using h)
    · exact Inst.pending_goOn (by simpa [todoOk, Inst.known] using h.2)
  case sendBitsNext =>
    refine Inst.pending_goOn ?_
    simp [todoOk, Inst.known] at h ⊢
    refine ⟨h.1.2, todoOk_transfer h.2 (by simp) ?_ (by simp) (by simp) (by simp)⟩
    simp_all
  case recvSync => exact Inst.pending_goOn (by simpa [todoOk, Inst.known] using h)
  case recvBit site =>
    exact Inst.pending_goOn (by simpa [todoOk, Inst.known, and_assoc, PollUse.fits, PollUse.ofBit] using h)
  case recvBits site =>
    refine Inst.pending_goOn ?_
    simp [todoOk, Inst.known, and_assoc] at h ⊢
    refine ⟨h.1, h.2.1, h.2.2.1, todoOk_transfer h.2.2.2 (by simp) ?_ (by simp) (by simp) (by simp)⟩
    simp_all
  case recvBitsLoop site =>
    unfold Inst.doRecvBitsLoop
    split
    · exact Inst.pending_goOn (by simpa [todoOk, Inst.known, and_assoc, *] using h)
    · exact Inst.pending_goOn h.2
  case sendAckPulse => exact Inst.pending_goOn (by simpa [todoOk, Inst.known] using h)
  case sendByte v site =>
    refine Inst.pending_goOn ?_
    simp only [todoOk, Inst.known, PollUse.fits, PollUse.ofBit, List.any_cons, Micro.inByte, h.1.1] at h ⊢
    simp_all
  case recvByte site => exact Inst.pending_goOn (by simpa [todoOk, Inst.known, and_assoc, Micro.inByte] using h)
  case arbitrate =>
    exact Inst.pending_goOn (by
      simp only [todoOk, Bool.and_eq_true]
      exact ⟨⟨by simp [Inst.known], h.1⟩, todoOk_transfer h.2 (by simp [Inst.known]) (fun _ h => h) (fun _ h => h) (fun _ h => h) (fun h => h)⟩)
  case arbLoop =>
    have hp : b.pin = .released := by simpa [Inst.known] using h.1.1
    unfold Inst.doArbLoop
    split
    · exact Inst.pending_goOn (by simpa [todoOk, Inst.known, and_assoc] using h)
    · split
      · exact Inst.pending_epilogue hp (by cases op <;> first | rfl | simp [SeqOp.isFrame] at h)
      · exact Inst.pending_goOn (by simpa [todoOk, Inst.known, and_assoc] using h)
  case arbConfirm =>
    have hp : b.pin = .released := by simpa [Inst.known] using h.1.1
    unfold Inst.doArbConfirm
    split
    · exact Inst.pending_epilogue hp (by cases op <;> first | rfl | simp [SeqOp.isFrame] at h)
    · exact Inst.pending_goOn h.2
  case startCondition =>
    unfold Inst.doStartCondition
    split <;> exact Inst.pending_goOn (by simpa [todoOk, Inst.known] using h)
  case gap =>
    unfold Inst.doGap
    split
    · exact Inst.pending_goOn h
    · exact Inst.pending_goOn (by simpa [todoOk, Inst.known] using h)
  case beginSend =>
    refine Inst.pending_goOn (todoOk_transfer h.2 ?_ ?_ ?_ ?_ ?_) <;> simp_all [Inst.known]
  case beginRecv => exact Inst.pending_goOn h
  case addrByte =>
    unfold Inst.doAddrByte
    split
    · exact Inst.pending_goOn h.2
    · refine Inst.pending_goOn (todoOk_gappedBytes ?_ (by simpa using h.1.2) (todoOk_transfer h.2 (by simp) (fun _ h => h) (fun _ h => h) (fun _ h => h) (fun h => h)) (by simp))
      cases op <;> simp_all [SeqOp.isFrame, Site.sends]
  case sendLength =>
    refine Inst.pending_goOn (todoOk_gappedBytes ?_ (by simpa using h.1.2) h.2 ?_)
    · cases op <;> simp_all [SeqOp.isFrame, Site.sends]
    · cases b.cfg.lenWidth <;> simp [lenBytes]
  case readRequest =>
    refine Inst.pending_goOn (todoOk_gappedBytes ?_ (by simpa using h.1.2) h.2 ?_)
    · cases op <;> simp_all [SeqOp.isFrame, Site.sends]
    · cases b.cfg.lenWidth <;> simp [requestBytes]
  case payload =>
    unfold Inst.doPayload
    split
    · refine Inst.pending_goOn ?_
      have hpass : (b.known op).passOpen = true := by simpa [Inst.known]
      simp only [todoOk, List.any_cons, Micro.inByte, Bool.false_or, Bool.and_eq_true]
      exact ⟨⟨⟨h.1.1.1.1, hpass⟩, h.1.1.2⟩, ⟨⟨⟨⟨h.1.1.1.1, hpass⟩, h.1.1.1.2⟩, h.1.1.2⟩, h.1.2⟩,
        todoOk_transfer h.2 (fun _ => rfl) (fun _ h => h) (fun _ h => h) (fun _ h => h) (fun h => h)⟩
    · exact Inst.pending_goOn h.2
  case payloadByte =>
    refine Inst.pending_goOn ?_
    simp only [todoOk, Bool.and_eq_true]
    exact ⟨⟨by rw [beq_iff_eq.mp h.1.1.1]; rfl, h.1.2⟩, h.2⟩
  case payloadNext =>
    refine Inst.pending_goOn ?_
    simp [todoOk, Inst.known] at h ⊢
    refine ⟨⟨⟨⟨h.1.1.1.1.1, h.1.1.1.2⟩, h.1.1.2⟩, h.1.2⟩, todoOk_transfer h.2 ?_ ?_ ?_ ?_ ?_⟩ <;> simp_all [Micro.inLoop]
  case checkAck =>
    have hp : b.pin = .released := by simpa [Inst.known] using h.1.1
    unfold Inst.doCheckAck
    split
    · exact Inst.pending_goOn h.2
    · exact Inst.pending_epilogue hp (by cases op <;> first | rfl | simp [SeqOp.isFrame] at h)
  case lenFirst =>
    have hk : k.any Micro.inPass = false := by
      simp [Micro.inLoop] at h ⊢; simp_all
    unfold Inst.doLenFirst
    split
    · refine Inst.pending_goOn (todoOk_transfer h.2 ?_ ?_ ?_ ?_ ?_) <;> simp_all [Inst.known]
    · refine Inst.pending_goOn ?_
      simp only [todoOk, List.any_cons, Micro.inByte, Bool.false_or, Bool.and_eq_true]
      exact ⟨⟨by rw [beq_iff_eq.mp h.1.1.1.2]; rfl, h.1.1.2⟩, ⟨⟨⟨trivial, h.1.1.1.2⟩, h.1.1.2⟩, h.1.2⟩,
        todoOk_transfer h.2 (fun _ => rfl) (fun _ h => h) (fun _ h => h) (fun _ h => h) (fun h => h)⟩
  case lenSecond b0 =>
    have hk : k.any Micro.inPass = false := by
      simp [Micro.inLoop] at h ⊢; simp_all
    refine Inst.pending_goOn (todoOk_transfer h.2 ?_ ?_ ?_ ?_ ?_) <;> simp_all [Inst.known]
  case checkLen =>
    have hp : b.pin = .released := by simpa [Inst.known] using h.1.1.1.1
    have hk : k.any Micro.inPass = false := by
      simp [Micro.inLoop] at h ⊢; simp_all
    unfold Inst.doCheckLen
    split
    · exact Inst.pending_epilogue hp (by cases op <;> first | rfl | simp at h)
    · refine Inst.pending_goOn ?_
      simp only [todoOk, Bool.and_eq_true]
      refine ⟨⟨⟨⟨⟨h.1.1.1.1, h.1.1.1.2⟩, ?_⟩, h.1.1.2⟩, h.1.2⟩, todoOk_transfer h.2 ?_ ?_ ?_ ?_ ?_⟩ <;> simp_all [Inst.known]
  case rxPayload =>
    unfold Inst.doRxPayload
    split
    · refine Inst.pending_goOn ?_
      have hpass : (b.known op).passOpen = true := by simpa [Inst.known]
      simp only [todoOk, List.any_cons, Micro.inByte, Bool.false_or, Bool.and_eq_true]
      exact ⟨⟨by rw [beq_iff_eq.mp h.1.1.1.1.2]; rfl, h.1.1.2⟩,
        ⟨⟨⟨⟨⟨trivial, h.1.1.1.1.2⟩, hpass⟩, h.1.1.1.2⟩, h.1.1.2⟩, h.1.2⟩,
        todoOk_transfer h.2 (fun _ => rfl) (fun _ h => h) (fun _ h => h) (fun _ h => h) (fun h => h)⟩
    · exact Inst.pending_goOn h.2
  case rxStore =>
    refine Inst.pending_goOn ?_
    simp [todoOk, Inst.known] at h ⊢
    refine ⟨⟨⟨⟨⟨h.1.1.1.1.1.1, h.1.1.1.1.1.2⟩, h.1.1.1.2⟩, h.1.1.2⟩, h.1.2⟩, todoOk_transfer h.2 ?_ ?_ ?_ ?_ ?_⟩ <;> simp_all [Micro.inLoop]
  case epilogue c st => exact Inst.pending_epilogue (by simpa [Inst.known] using h.1) h.2
  case finish c st => exact Inst.pending_finish (by simpa [Inst.known] using h.1) h.2
  case complete => exact absurd rfl hm

/-- What an operation but the last leaves of a running command: STATUS and RXLEN, which only the completion changes, the command, and the
ranges of the counters. -/
structure Inst.Running (b c : Inst) : Prop where
  status : c.status = b.status
  rxLen : c.rxLen = b.rxLen
  op : c.seq.op = b.seq.op
  bufWf : b.buf.wf = true → c.buf.wf = true
  bufInside : (∀ x ∈ b.buf, x.1 < b.cfg.maxFrame) → ∀ x ∈ c.buf, x.1 < c.cfg.maxFrame
  cursor : c.seq.cursor ≤ b.cfg.maxFrame
  bit : c.seq.bit ≤ 8

theorem Inst.perform_running {b : Inst} {op : SeqOp} {m : Micro} {k : List Micro}
    (h : todoOk op (b.known op) (m :: k) = true) (hm : m ≠ .complete) (hc : b.seq.cursor ≤ b.cfg.maxFrame) (hb : b.seq.bit ≤ 8) :
    b.Running (b.perform m k) := by
  have same : ∀ c : Inst, c.status = b.status → c.rxLen = b.rxLen → c.seq.op = b.seq.op → c.buf = b.buf → c.cfg = b.cfg →
      c.seq.cursor ≤ b.cfg.maxFrame → c.seq.bit ≤ 8 → b.Running c := fun c h1 h2 h3 h4 h5 h6 h7 =>
    ⟨h1, h2, h3, fun h => h4 ▸ h, fun h => by rw [h4, h5]; exact h, h6, h7⟩
  cases m <;> simp only [todoOk, Bool.and_eq_true, Bool.or_eq_true] at h <;> simp only [Inst.perform]
  case pollLoop lv bound use =>
    unfold Inst.doPollLoop
    split
    · cases use with
      | ack site => exact same _ rfl rfl rfl rfl rfl hc hb
      | bitHigh site => exact same _ rfl rfl rfl rfl rfl hc hb
      | bitLow site =>
        refine same _ rfl rfl rfl rfl rfl hc ?_
        have : b.seq.bit < 8 := by simpa [Inst.known, PollUse.ofBit] using h.1.1.2
        exact this
    · split
      · cases use with
        | _ site => cases site <;> exact same _ rfl rfl rfl rfl rfl hc hb
      · exact same _ rfl rfl rfl rfl rfl hc hb
  case sendBits => exact same _ rfl rfl rfl rfl rfl hc (Nat.zero_le _)
  case recvBits => exact same _ rfl rfl rfl rfl rfl hc (Nat.zero_le _)
  case sendBitsNext =>
    have h1 : b.seq.bit < 8 := by simpa [Inst.known] using h.1.1
    exact same _ rfl rfl rfl rfl rfl hc h1
  case beginSend => exact same _ rfl rfl rfl rfl rfl (Nat.zero_le _) hb
  case payloadNext =>
    refine same _ rfl rfl rfl rfl rfl ?_ hb
    have h1 : b.seq.cursor < b.seq.len.toNat := by simpa [Inst.known] using h.1.1.1.1.2
    have h2 : b.seq.len.toNat ≤ b.cfg.maxFrame := by simpa [Inst.known] using h.1.1.1.2
    exact Nat.lt_of_lt_of_le h1 h2
  case checkLen =>
    unfold Inst.doCheckLen
    split
    · exact same _ rfl rfl rfl rfl rfl hc hb
    · exact same _ rfl rfl rfl rfl rfl (Nat.zero_le _) hb
  case rxStore =>
    have h1 : b.seq.cursor < b.seq.len.toNat := by simpa [Inst.known] using h.1.1.1.1.2
    have h2 : b.seq.len.toNat ≤ b.cfg.maxFrame := by simpa [Inst.known] using h.1.1.1.2
    exact ⟨by simp [Inst.doRxStore], by simp [Inst.doRxStore], by simp [Inst.doRxStore], fun h => by simpa [Inst.doRxStore] using Inst.writeBuf_buf_wf _ _ h,
      fun h => by simpa [Inst.doRxStore] using Inst.writeBuf_inside _ _ h, by simp [Inst.doRxStore]; omega, by simp [Inst.doRxStore]; omega⟩
  case complete => exact absurd rfl hm
  case sendBit bit => unfold Inst.doSendBit; split <;> exact same _ rfl rfl rfl rfl rfl hc hb
  case sendBitsLoop => unfold Inst.doSendBitsLoop; split <;> exact same _ rfl rfl rfl rfl rfl hc hb
  case recvBitsLoop => unfold Inst.doRecvBitsLoop; split <;> exact same _ rfl rfl rfl rfl rfl hc hb
  case arbLoop =>
    unfold Inst.doArbLoop
    split
    · exact same _ rfl rfl rfl rfl rfl hc hb
    · split <;> exact same _ rfl rfl rfl rfl rfl hc hb
  case arbConfirm => unfold Inst.doArbConfirm; split <;> exact same _ rfl rfl rfl rfl rfl hc hb
  case startCondition => unfold Inst.doStartCondition; split <;> exact same _ rfl rfl rfl rfl rfl hc hb
  case gap => unfold Inst.doGap; split <;> exact same _ rfl rfl rfl rfl rfl hc hb
  case addrByte => unfold Inst.doAddrByte; split <;> exact same _ rfl rfl rfl rfl rfl hc hb
  case payload => unfold Inst.doPayload; split <;> exact same _ rfl rfl rfl rfl rfl hc hb
  case checkAck => unfold Inst.doCheckAck; split <;> exact same _ rfl rfl rfl rfl rfl hc hb
  case lenFirst => unfold Inst.doLenFirst; split <;> exact same _ rfl rfl rfl rfl rfl hc hb
  case rxPayload => unfold Inst.doRxPayload; split <;> exact same _ rfl rfl rfl rfl rfl hc hb
  all_goals exact same _ rfl rfl rfl rfl rfl hc hb

/-- Every operation due keeps the invariant of its instance. -/
theorem Inst.perform_inv {b : Inst} {m : Micro} {k : List Micro} (h : b.Inv) (hd : b.due = some (m, k)) : (b.perform m k).Inv := by
  obtain ⟨w, hp, hw⟩ := Inst.due_eq_some.mp hd
  have hbusy : b.status.busy = true := by
    cases hb : b.status.busy with
    | true => rfl
    | false => have := (h.idle hb).1; rw [hp] at this; cases this
  obtain ⟨he, hdone, hcode, hstage, hrx, op, w', todo, hop, hph, ht⟩ := h.busy hbusy
  rw [hp] at hph
  cases hph
  have hs := b.perform_sameOutside m k
  by_cases hm : m = .complete
  · subst hm
    simp only [todoOk, Bool.and_eq_true] at ht
    have hrel : b.pin = .released := by simpa [Inst.known] using ht.1
    have hleg : legalResult op b.seq.code b.seq.stage = true := ht.2
    refine ⟨h.cfg_wf, h.buf_wf, h.buf_inside, h.cursor_le, h.bit_le, ?_, fun _ => ⟨rfl, rfl, hrel⟩, fun hb => ?_⟩
    · simp only [Inst.perform, Inst.complete, legalStatus]
      cases op <;> revert hleg <;> cases b.seq.code <;> cases b.seq.stage <;> decide
    · simp [Inst.perform, Inst.complete] at hb
  · have hr := Inst.perform_running ht hm h.cursor_le h.bit_le
    obtain ⟨w', todo, hp', ht'⟩ := Inst.perform_pending ht hm
    refine ⟨by rw [hs.cfg]; exact h.cfg_wf, hr.bufWf h.buf_wf, hr.bufInside h.buf_inside, by rw [hs.cfg]; exact hr.cursor, hr.bit,
      by rw [hr.status]; exact h.status_legal, fun hb => ?_, fun _ => ?_⟩
    · rw [hr.status, hbusy] at hb; cases hb
    · rw [hr.status, hr.rxLen, hr.op]
      exact ⟨he, hdone, hcode, hstage, hrx, op, w', todo, hop, hp', ht'⟩

end Sys2Proof.Machine
end

