-- ==== Sys2Proof/Laws/Moves.lean ====
section
/-! SUPPORT. The run of an instance left to itself: moves compose, time never falls, a wait passes,
and every phase of its sequencer ends. -/

namespace Sys2Proof.Machine

/-! ## Moves -/

@[simp] theorem Inst.moves_zero (b : Inst) : b.moves 0 = b := rfl

theorem Inst.moves_succ (b : Inst) (n : Nat) : b.moves (n + 1) = b.auto.moves n := rfl

theorem Inst.moves_add (b : Inst) (m n : Nat) : b.moves (m + n) = (b.moves m).moves n := by
  induction m generalizing b with
  | zero => simp
  | succ m ih => rw [Nat.succ_add, Inst.moves_succ, ih, Inst.moves_succ]

/-- The last move first. -/
theorem Inst.moves_succ_last (b : Inst) (n : Nat) : b.moves (n + 1) = (b.moves n).auto := by
  rw [Inst.moves_add, Inst.moves_succ, Inst.moves_zero]

theorem Inst.auto_due {b : Inst} {m : Micro} {k : List Micro} (h : b.due = some (m, k)) : b.auto = b.perform m k := by
  unfold Inst.auto; rw [h]

theorem Inst.auto_tick {b : Inst} (h : b.due = none) : b.auto = b.tick := by
  unfold Inst.auto; rw [h]

/-- A move keeps the invariant. -/
theorem Inst.auto_inv {b : Inst} (h : b.Inv) : b.auto.Inv := by
  cases hd : b.due with
  | some mk => rw [Inst.auto_due (m := mk.1) (k := mk.2) hd]; exact Inst.perform_inv h hd
  | none => rw [Inst.auto_tick hd]; exact ⟨h.1, h.2, h.3, h.4, h.5, h.6, h.7, h.8⟩

theorem Inst.moves_inv {b : Inst} (n : Nat) (h : b.Inv) : (b.moves n).Inv := by
  induction n generalizing b with
  | zero => exact h
  | succ n ih => exact ih (Inst.auto_inv h)

/-- A move changes neither the configuration nor what the host has written, and time never falls by it. -/
theorem Inst.auto_outside (b : Inst) :
    b.auto.cfg = b.cfg ∧ b.auto.num = b.num ∧ b.auto.resets = b.resets ∧ b.auto.status.en = b.status.en ∧ b.now ≤ b.auto.now := by
  cases hd : b.due with
  | some mk =>
    rw [Inst.auto_due (m := mk.1) (k := mk.2) hd]
    have h := b.perform_sameOutside mk.1 mk.2
    exact ⟨h.cfg, h.num, h.resets, h.en, Nat.le_of_eq h.now.symm⟩
  | none => rw [Inst.auto_tick hd]; exact ⟨rfl, rfl, rfl, rfl, Nat.le_succ _⟩

@[simp] theorem Inst.moves_cfg (b : Inst) (n : Nat) : (b.moves n).cfg = b.cfg := by
  induction n generalizing b with
  | zero => rfl
  | succ n ih => rw [Inst.moves_succ, ih, b.auto_outside.1]

theorem Inst.now_le_moves (b : Inst) (n : Nat) : b.now ≤ (b.moves n).now := by
  induction n generalizing b with
  | zero => exact Nat.le_refl _
  | succ n ih => exact Nat.le_trans b.auto_outside.2.2.2.2 (ih _)

theorem Inst.moves_now_mono (b : Inst) {m n : Nat} (h : m ≤ n) : (b.moves m).now ≤ (b.moves n).now := by
  obtain ⟨d, rfl⟩ := Nat.exists_eq_add_of_le h
  rw [Inst.moves_add]
  exact Inst.now_le_moves _ _

/-! ## Time passing -/

@[simp] theorem Inst.after_zero (b : Inst) : b.after 0 = b := by cases b; simp [Inst.after]

theorem Inst.after_add (b : Inst) (d e : Nat) : (b.after d).after e = b.after (d + e) := by
  simp [Inst.after, Nat.add_assoc]

theorem Inst.tick_eq_after (b : Inst) : b.tick = b.after 1 := by
  simp [Inst.tick, Inst.after, ← List.drop_one]


/-- The peer's drive, seen from `d` ticks later. -/
theorem Inst.peerAt_after (b : Inst) (d j : Nat) : (b.after d).peerAt j = b.peerAt (d + j) := by
  simp [Inst.peerAt, Inst.after, Nat.add_assoc]

/-- The line `d` ticks later, with the pin as it is. -/
theorem Inst.lineAt_after (b : Inst) (d j : Nat) : (b.after d).lineAt j = b.lineAt (d + j) := by
  simp only [Inst.lineAt, Inst.after_pin, Inst.peerAt_after]

/-- An instance whose current primitive ends `d` ticks from now, or that is idle, only sees time pass until then. -/
theorem Inst.moves_wait {b : Inst} {w : Nat} {k : List Micro} {d : Nat} (h : b.seq.phase = .run w k) (hd : b.now + d ≤ w) :
    b.moves d = b.after d := by
  induction d generalizing b with
  | zero => simp
  | succ d ih =>
    have hn : b.due = none := Inst.due_waiting h (by omega)
    rw [Inst.moves_succ, Inst.auto_tick hn, Inst.tick_eq_after, ih (by exact h) (by simp only [Inst.after_now]; omega),
      Inst.after_add, Nat.add_comm 1 d]

theorem Inst.moves_idle {b : Inst} (h : b.seq.phase = .idle) (d : Nat) : b.moves d = b.after d := by
  induction d generalizing b with
  | zero => simp
  | succ d ih =>
    rw [Inst.moves_succ, Inst.auto_tick (Inst.due_idle h), Inst.tick_eq_after, ih (by exact h), Inst.after_add, Nat.add_comm 1 d]

/-! ## One run leading to another -/

/-- An instance left to itself comes to be `c`. -/
def Inst.Leads (b c : Inst) : Prop := ∃ n, b.moves n = c

theorem Inst.Leads.refl (b : Inst) : b.Leads b := ⟨0, rfl⟩

theorem Inst.Leads.trans {a b c : Inst} : a.Leads b → b.Leads c → a.Leads c := by
  rintro ⟨m, rfl⟩ ⟨n, rfl⟩
  exact ⟨m + n, Inst.moves_add _ _ _⟩

/-- An operation that is due is performed. -/
theorem Inst.leads_perform {b : Inst} {m : Micro} {k : List Micro} (h : b.due = some (m, k)) : b.Leads (b.perform m k) :=
  ⟨1, by rw [Inst.moves_succ, Inst.moves_zero, Inst.auto_due h]⟩

/-- A wait passes: the operations after it come due `d` ticks later. -/
theorem Inst.leads_wait {b : Inst} {d : Nat} {k : List Micro} (h : b.due = some (.wait d, k)) :
    b.Leads ((b.after d).atPhase (b.now + d) k) := by
  have e : (b.perform (.wait d) k).moves d = (b.perform (.wait d) k).after d :=
    Inst.moves_wait (w := b.now + d) (k := k) rfl (Nat.le_refl _)
  exact (Inst.leads_perform h).trans ⟨d, e⟩

/-! ## Every phase of the sequencer ends -/

/-- An instance left to itself comes to have nothing more due. -/
def Inst.Rests (b : Inst) : Prop := ∃ n, (b.moves n).due = none

theorem Inst.rests_of_due_none {b : Inst} (h : b.due = none) : b.Rests := ⟨0, h⟩

theorem Inst.rests_of_leads {b c : Inst} (h : b.Leads c) (hc : c.Rests) : b.Rests := by
  obtain ⟨m, rfl⟩ := h
  obtain ⟨n, hn⟩ := hc
  exact ⟨m + n, by rw [Inst.moves_add]; exact hn⟩

theorem Inst.rests_goOn {b : Inst} {m : Micro} {k : List Micro} (h : ((b.goOn (m :: k)).perform m k).Rests) :
    (b.goOn (m :: k)).Rests := Inst.rests_of_leads (Inst.leads_perform (Inst.goOn_due b m k)) h

theorem Params.timing_wf {c : Params} (h : c.wf = true) (p : Profile) : (c.timing p).wf = true := by
  simp only [Params.wf, Bool.and_eq_true] at h
  cases p
  · exact h.1.1.1.1.2
  · exact h.1.1.1.2

theorem Timing.pos {t : Timing} (h : t.wf = true) : 0 < t.tShort ∧ 0 < t.tLong ∧ 0 < t.tAck ∧ 0 < t.tStart ∧ 0 < t.tIbd ∧ 0 < t.tIfd := by
  simp only [Timing.wf, Bool.and_eq_true, decide_eq_true_iff] at h
  omega

theorem Params.tPoll_pos {c : Params} (h : c.wf = true) : 0 < c.tPoll := by
  simp only [Params.wf, Bool.and_eq_true, decide_eq_true_iff] at h
  omega

theorem Inst.wait_rests (b : Inst) {d : Nat} (k : List Micro) (h : 0 < d) : (b.goOn (.wait d :: k)).Rests :=
  Inst.rests_goOn (Inst.rests_of_due_none (Inst.due_waiting rfl (Nat.lt_add_of_pos_right h)))

theorem Inst.hold_rests (b : Inst) (v : Level) {d : Nat} (k : List Micro) (h : 0 < d) : (b.goOn (.hold v d :: k)).Rests :=
  Inst.rests_goOn (Inst.wait_rests _ k h)

theorem Inst.raiseAt_rests {b : Inst} (h : b.cfg.wf = true) (site : Site) (c : Code) : (b.raiseAt site c).Rests := by
  have hd : 0 < b.timing.tIfd := (Timing.pos (Params.timing_wf h _)).2.2.2.2.2
  cases site
  case addr => exact Inst.rests_goOn (Inst.rests_of_due_none (Inst.due_idle rfl))
  all_goals exact Inst.wait_rests _ _ hd

theorem Inst.pollTimeout_rests {b : Inst} (h : b.cfg.wf = true) (use : PollUse) : (b.pollTimeout use).Rests := by
  cases use <;> exact Inst.raiseAt_rests h _ _

/-- A poll whose level the line has. -/
theorem Inst.pollLoop_rests_at {b : Inst} (h : b.cfg.wf = true) {lv : Level} (hl : b.line = lv) (bound : Nat) (use : PollUse)
    (k : List Micro) : (b.goOn (.pollLoop lv bound use :: k)).Rests := by
  refine Inst.rests_goOn ?_
  have e : (b.goOn (.pollLoop lv bound use :: k)).line = lv := hl
  simp only [Inst.perform, Inst.doPollLoop, e, ne_eq, not_true_eq_false, if_false]
  split
  · exact Inst.pollTimeout_rests (by exact h) use
  · exact Inst.wait_rests _ _ (Params.tPoll_pos h)

theorem Inst.poll_rests_at {b : Inst} (h : b.cfg.wf = true) {lv : Level} (hl : b.line = lv) (bound : Nat) (use : PollUse)
    (k : List Micro) : (b.goOn (.poll lv bound use :: k)).Rests :=
  Inst.rests_goOn (Inst.pollLoop_rests_at (by exact h) (by exact hl) bound use k)

/-- The HIGH poll of a bit on a LOW line, whose LOW poll follows. -/
theorem Inst.bitHigh_rests_low {b : Inst} (h : b.cfg.wf = true) (hl : b.line = .low) (bound : Nat) (site : Site) (k : List Micro) :
    (b.goOn (.pollLoop .high bound (.bitHigh site) :: k)).Rests := by
  refine Inst.rests_goOn ?_
  have e : (b.goOn (.pollLoop .high bound (.bitHigh site) :: k)).line = .low := hl
  simp only [Inst.perform, Inst.doPollLoop, e, ne_eq, reduceCtorEq, not_false_eq_true, if_true, Inst.polled]
  exact Inst.poll_rests_at (by exact h) (by exact hl) _ _ _

/-- The operations `k` come to rest wherever they start, in a configuration within R7's constraints. -/
def RestsAnywhere (k : List Micro) : Prop := ∀ b : Inst, b.cfg.wf = true → (b.goOn k).Rests

theorem recvBit_rests (site : Site) (k : List Micro) : RestsAnywhere (.recvBit site :: k) := by
  intro b h
  refine Inst.rests_goOn ?_
  cases hl : b.line with
  | high => exact Inst.poll_rests_at (by exact h) (by exact hl) _ _ _
  | low => exact Inst.rests_goOn (Inst.bitHigh_rests_low (by exact h) (by exact hl) _ _ _)

theorem recvBitsLoop_rests (site : Site) {k : List Micro} (hk : RestsAnywhere k) : RestsAnywhere (.recvBitsLoop site :: k) := by
  intro b h
  refine Inst.rests_goOn ?_
  simp only [Inst.perform, Inst.doRecvBitsLoop]
  split
  · exact recvBit_rests site k _ h
  · exact hk _ h

/-- The LOW poll of a bit on a HIGH line, which ends the bit. -/
theorem Inst.bitLow_rests_high {b : Inst} {k : List Micro} (hk : RestsAnywhere k) (h : b.cfg.wf = true) (hl : b.line = .high)
    (bound : Nat) (site : Site) : (b.goOn (.pollLoop .low bound (.bitLow site) :: k)).Rests := by
  refine Inst.rests_goOn ?_
  have e : (b.goOn (.pollLoop .low bound (.bitLow site) :: k)).line = .high := hl
  simp only [Inst.perform, Inst.doPollLoop, e, ne_eq, reduceCtorEq, not_false_eq_true, if_true, Inst.polled]
  exact recvBitsLoop_rests site hk _ (by exact h)

theorem pollLoop_rests (lv : Level) (bound : Nat) (use : PollUse) {k : List Micro} (hk : RestsAnywhere k) :
    RestsAnywhere (.pollLoop lv bound use :: k) := by
  intro b h
  by_cases hl : b.line = lv
  · exact Inst.pollLoop_rests_at h hl _ _ _
  refine Inst.rests_goOn ?_
  rw [Inst.perform, Inst.doPollLoop, if_pos (by exact hl)]
  cases use with
  | ack site => exact hk _ h
  | bitLow site => exact recvBitsLoop_rests site hk _ h
  | bitHigh site =>
    refine Inst.rests_goOn (b := { b.goOn (.pollLoop lv bound (.bitHigh site) :: k) with
      seq := { (b.goOn (.pollLoop lv bound (.bitHigh site) :: k)).seq with h := b.seq.n } }) ?_
    cases hb : b.line with
    | low => exact Inst.pollLoop_rests_at (by exact h) (by exact hb) _ _ _
    | high => exact Inst.bitLow_rests_high hk (by exact h) (by exact hb) _ _

theorem sendByte_rests (v : Byte) (site : Site) (k : List Micro) : RestsAnywhere (.sendByte v site :: k) := fun _ h =>
  Inst.rests_goOn (Inst.rests_goOn (Inst.hold_rests _ _ _ (Timing.pos (Params.timing_wf h _)).1))

theorem recvByte_rests (site : Site) (k : List Micro) : RestsAnywhere (.recvByte site :: k) := fun _ h =>
  Inst.rests_goOn (Inst.rests_goOn (Inst.rests_goOn (Inst.hold_rests _ _ _ (Timing.pos (Params.timing_wf h _)).1)))

theorem gap_rests {k : List Micro} (hk : RestsAnywhere k) : RestsAnywhere (.gap :: k) := by
  intro b h
  refine Inst.rests_goOn ?_
  simp only [Inst.perform, Inst.doGap]
  split
  · exact hk _ h
  · exact Inst.wait_rests _ _ (Nat.add_pos_left (Timing.pos (Params.timing_wf h _)).2.2.2.2.1 _)

theorem gappedBytes_rests (site : Site) (vs : List Byte) {k : List Micro} (hk : RestsAnywhere k) :
    RestsAnywhere (gappedBytes site vs ++ k) := by
  cases vs with
  | nil => exact hk
  | cons v vs => exact gap_rests (sendByte_rests v site _)

theorem payload_rests {k : List Micro} (hk : RestsAnywhere k) : RestsAnywhere (.payload :: k) := by
  intro b h
  refine Inst.rests_goOn ?_
  simp only [Inst.perform, Inst.doPayload]
  split
  · exact gap_rests (fun c hc => Inst.rests_goOn (m := .payloadByte) (sendByte_rests _ _ _ _ (by exact hc))) _ h
  · exact hk _ h

theorem rxPayload_rests {k : List Micro} (hk : RestsAnywhere k) : RestsAnywhere (.rxPayload :: k) := by
  intro b h
  refine Inst.rests_goOn ?_
  simp only [Inst.perform, Inst.doRxPayload]
  split
  · exact gap_rests (recvByte_rests _ _) _ h
  · exact hk _ h

theorem sendBitsLoop_rests {k : List Micro} (hk : RestsAnywhere k) : RestsAnywhere (.sendBitsLoop :: k) := by
  intro b h
  obtain ⟨h1, h2, -⟩ := Timing.pos (Params.timing_wf h b.seq.p)
  refine Inst.rests_goOn ?_
  simp only [Inst.perform, Inst.doSendBitsLoop]
  split
  · refine Inst.rests_goOn ?_
    simp only [Inst.perform, Inst.doSendBit]
    split
    · exact Inst.hold_rests _ _ _ h2
    · exact Inst.hold_rests _ _ _ h1
  · exact Inst.rests_goOn (hk _ h)

theorem arbLoop_rests (k : List Micro) : RestsAnywhere (.arbLoop :: k) := by
  intro b h
  refine Inst.rests_goOn ?_
  simp only [Inst.perform, Inst.doArbLoop]
  split
  · exact Inst.wait_rests _ _ (Params.tPoll_pos h)
  · split
    · exact Inst.wait_rests _ _ (Timing.pos (Params.timing_wf h _)).2.2.2.2.2
    · exact Inst.wait_rests _ _ (Params.tPoll_pos h)

theorem wait_rests {k : List Micro} (hk : RestsAnywhere k) (d : Nat) : RestsAnywhere (.wait d :: k) := by
  intro b h
  cases d with
  | zero => exact Inst.rests_goOn (hk _ h)
  | succ d => exact Inst.wait_rests _ _ (Nat.succ_pos d)

/-- Whatever is pending comes to rest. -/
theorem rests_anywhere (k : List Micro) : RestsAnywhere k := by
  induction k with
  | nil => exact fun _ _ => Inst.rests_of_due_none rfl
  | cons m k ih =>
    intro b h
    have ht := fun p => Timing.pos (Params.timing_wf h p)
    cases m with
    | hold v d => exact Inst.rests_goOn (wait_rests ih d _ h)
    | release => exact Inst.rests_goOn (ih _ h)
    | wait d => exact wait_rests ih d b h
    | poll lv bound use => exact Inst.rests_goOn (pollLoop_rests lv bound use ih _ h)
    | pollLoop lv bound use => exact pollLoop_rests lv bound use ih b h
    | sendSync => exact Inst.rests_goOn (Inst.hold_rests _ _ _ (ht _).1)
    | sendBit bit =>
      refine Inst.rests_goOn ?_
      simp only [Inst.perform, Inst.doSendBit]
      split
      · exact Inst.hold_rests _ _ _ (ht _).2.1
      · exact Inst.hold_rests _ _ _ (ht _).1
    | sendBits v => exact Inst.rests_goOn (sendBitsLoop_rests ih _ h)
    | sendBitsLoop => exact sendBitsLoop_rests ih b h
    | sendBitsNext => exact Inst.rests_goOn (sendBitsLoop_rests ih _ h)
    | recvSync => exact Inst.rests_goOn (Inst.rests_goOn (Inst.hold_rests _ _ _ (ht _).1))
    | recvBit site => exact recvBit_rests site k b h
    | recvBits site => exact Inst.rests_goOn (recvBitsLoop_rests site ih _ h)
    | recvBitsLoop site => exact recvBitsLoop_rests site ih b h
    | sendAckPulse => exact Inst.rests_goOn (Inst.hold_rests _ _ _ (ht _).2.2.1)
    | sendByte v site => exact sendByte_rests v site k b h
    | recvByte site => exact recvByte_rests site k b h
    | arbitrate => exact Inst.rests_goOn (arbLoop_rests k _ h)
    | arbLoop => exact arbLoop_rests k b h
    | arbConfirm =>
      refine Inst.rests_goOn ?_
      simp only [Inst.perform, Inst.doArbConfirm]
      split
      · exact Inst.wait_rests _ _ (ht _).2.2.2.2.2
      · exact ih _ h
    | startCondition =>
      refine Inst.rests_goOn ?_
      simp only [Inst.perform, Inst.doStartCondition]
      split <;> exact Inst.hold_rests _ _ _ (ht _).2.2.2.1
    | gap => exact gap_rests ih b h
    | beginSend => exact Inst.rests_goOn (ih _ h)
    | beginRecv => exact Inst.rests_goOn (ih _ h)
    | addrByte =>
      refine Inst.rests_goOn ?_
      simp only [Inst.perform, Inst.doAddrByte]
      split
      · exact ih _ h
      · exact gappedBytes_rests _ _ ih _ h
    | sendLength => exact Inst.rests_goOn (gappedBytes_rests _ _ ih _ h)
    | payload => exact payload_rests ih b h
    | payloadByte => exact Inst.rests_goOn (sendByte_rests _ _ k _ h)
    | payloadNext => exact Inst.rests_goOn (payload_rests ih _ h)
    | readRequest => exact Inst.rests_goOn (gappedBytes_rests _ _ ih _ h)
    | checkAck =>
      refine Inst.rests_goOn ?_
      simp only [Inst.perform, Inst.doCheckAck]
      split
      · exact ih _ h
      · exact Inst.wait_rests _ _ (ht _).2.2.2.2.2
    | lenFirst =>
      refine Inst.rests_goOn ?_
      simp only [Inst.perform, Inst.doLenFirst]
      split
      · exact ih _ h
      · exact gap_rests (recvByte_rests _ _) _ h
    | lenSecond b0 => exact Inst.rests_goOn (ih _ h)
    | checkLen =>
      refine Inst.rests_goOn ?_
      simp only [Inst.perform, Inst.doCheckLen]
      split
      · exact Inst.wait_rests _ _ (ht _).2.2.2.2.2
      · exact rxPayload_rests ih _ h
    | rxPayload => exact rxPayload_rests ih b h
    | rxStore => exact Inst.rests_goOn (rxPayload_rests ih _ (by simpa using h))
    | epilogue c st => exact Inst.rests_goOn (Inst.wait_rests _ _ (ht _).2.2.2.2.2)
    | finish c st => exact Inst.rests_goOn (Inst.rests_goOn (Inst.rests_of_due_none (Inst.due_idle rfl)))
    | complete => exact Inst.rests_goOn (Inst.rests_of_due_none (Inst.due_idle rfl))

/-- What an operation does depends on nothing that `seq.phase` holds. -/
theorem Inst.perform_goOn (b : Inst) (m : Micro) (k : List Micro) : (b.goOn (m :: k)).perform m k = b.perform m k := by
  cases m with
  | pollLoop lv bound use =>
    simp only [Inst.perform, Inst.doPollLoop]
    rfl
  | rxStore =>
    by_cases hc : b.seq.cursor < b.cfg.maxFrame <;>
      simp only [Inst.perform, Inst.doRxStore, Inst.writeBuf, Inst.goOn, Inst.sleep, hc, if_true, if_false]
  | _ => rfl

/-- In a configuration within R7's constraints, an instance left to itself comes to have nothing more due: no phase of its sequencer
goes on for ever within one tick. -/
theorem Inst.comes_to_rest {b : Inst} (h : b.cfg.wf = true) : b.Rests := by
  cases hp : b.seq.phase with
  | idle => exact Inst.rests_of_due_none (Inst.due_idle hp)
  | run w k =>
    by_cases hw : b.now < w
    · exact Inst.rests_of_due_none (Inst.due_waiting hp hw)
    cases k with
    | nil => exact Inst.rests_of_due_none (by rw [Inst.due, hp])
    | cons m k =>
      have hd : b.due = some (m, k) := Inst.due_of_phase hp (Nat.le_of_not_lt hw)
      obtain ⟨n, hn⟩ := rests_anywhere (m :: k) b h
      cases n with
      | zero => rw [Inst.moves_zero, Inst.goOn_due] at hn; cases hn
      | succ n =>
        rw [Inst.moves_succ, Inst.auto_due (Inst.goOn_due b m k), Inst.perform_goOn] at hn
        exact ⟨n + 1, by rw [Inst.moves_succ, Inst.auto_due hd]; exact hn⟩

end Sys2Proof.Machine
end

