-- ==== Sys2Proof/Laws/PerInstr.lean ====
section
/-! SUPPORT. What holds of every command as syntax, one lemma per constructor: its word's OP field and SPEED bit, and its reserved bits
(30_encoding.md R68 to R71). -/

namespace Sys2Proof.Laws.CommandWord

/-- The OP code of a command (R69). -/
def opOf : Instr → BitVec 4
  | .init => 0x1#4
  | .deinit => 0x2#4
  | .sendFrame _ => 0x3#4
  | .recvFrame _ => 0x4#4
  | .wake _ => 0x5#4
  | .recover _ => 0x6#4
  | .reserved0 => 0x0#4
  | .reserved7 => 0x7#4
  | .reserved8F op => op

/-- The SPEED bit of a command's word: its profile's, and 0 where the command carries none (R160, R70). -/
def speedOf : Instr → Bool
  | .init => false
  | .deinit => false
  | .sendFrame p => p == .fast
  | .recvFrame p => p == .fast
  | .wake p => p == .fast
  | .recover p => p == .fast
  | .reserved0 => false
  | .reserved7 => false
  | .reserved8F _ => false

/-- The word of a command holds its OP code, its SPEED bit, and zero in the reserved bits. -/
def Statement (i : Instr) : Prop :=
  (encode i).extractLsb' 0 4 = opOf i ∧ (encode i).getLsbD 4 = speedOf i ∧ (encode i).extractLsb' 5 27 = 0#27

theorem init : Statement .init := by simp only [Statement]; decide
theorem deinit : Statement .deinit := by simp only [Statement]; decide
theorem sendFrame (p : Profile) : Statement (.sendFrame p) := by cases p <;> (simp only [Statement]; decide)
theorem recvFrame (p : Profile) : Statement (.recvFrame p) := by cases p <;> (simp only [Statement]; decide)
theorem wake (p : Profile) : Statement (.wake p) := by cases p <;> (simp only [Statement]; decide)
theorem recover (p : Profile) : Statement (.recover p) := by cases p <;> (simp only [Statement]; decide)
theorem reserved0 : Statement .reserved0 := by simp only [Statement]; decide
theorem reserved7 : Statement .reserved7 := by simp only [Statement]; decide
theorem reserved8F (op : BitVec 4) : Statement (.reserved8F op) := by
  revert op
  simp only [Statement]
  decide

end Sys2Proof.Laws.CommandWord
end

