-- ==== Sys2Proof/Tests/Slice0.lean ====
section
/-! SUPPORT. Tests of the model against spec/95_test_vectors.md and the encodings of spec/30_encoding.md, the smoke test of the
well-formedness checks, and for every statement with hypotheses a concrete state and operands that meet all of them together. -/

open Sys2Proof Sys2Proof.Machine

namespace Sys2Proof.Tests

/-! ## Parameter set E and small states -/

/-- The Fast table of parameter set E (95_test_vectors.md S2). -/
def fastE : Timing where
  tLong := 4
  tShort := 2
  tAck := 3
  tStart := 5
  tIbd := 3
  tIfd := 10
  tIdle := 8
  nRxto := 20

/-- The Slow table of parameter set E. -/
def slowE : Timing where
  tLong := 8
  tShort := 4
  tAck := 6
  tStart := 10
  tIbd := 6
  tIfd := 20
  tIdle := 16
  nRxto := 40

/-- Parameter set E, with R7's defaults for MAX_FRAME, N_ACK, RX_LEN_HIGH_MASK and IBD_JITTER_MAX. -/
def setE (w : LenWidth) : Params where
  base := 0x40000000
  lenWidth := w
  ticksPerUs := 1
  tPoll := 1
  slow := slowE
  fast := fastE
  tWakeLow := 2
  tWakeSettle := 6

/-- An instance right after reset. -/
def fresh (w : LenWidth) : Inst := Inst.initial (setE w) 0 0

/-- An instance after INIT and `clr_done`: STATUS = 0x00000004. -/
def enabled (w : LenWidth) : Inst := { fresh w with status := { Status.initial with en := true } }

/-- An instance that runs `op`, at `todo`, with the peer's drive scripted. -/
def running (op : SeqOp) (peer : List Bool) (todo : List Micro) : Inst :=
  { enabled .one with
    status := { Status.initial with en := true, busy := true }
    peer := peer
    seq := { Seq.initial with op := some op, p := .fast, phase := .run 0 todo } }

/-- A machine of one instance, in its host phase, with the host's script. -/
def alone (b : Inst) (ops : List HostOp) : State where
  inst := b
  lower := []
  upper := []
  turn := .host
  host := ops
  seen := []

/-- A machine of one instance, in its sequencer phase. -/
def sequencing (b : Inst) : State := { alone b [] with turn := .sequencer }

/-- A machine of two instances, whose register blocks stand one after the other. -/
def pair (ops : List HostOp) : State :=
  { alone (fresh .one) ops with upper := [Inst.initial { setE .two with base := 0x40001000 } 1 0] }

/-- STATUS of the marked instance after a step. -/
def statusAfter (o : Result) : Option Word :=
  match o with
  | .next t => some t.inst.status.word
  | _ => none

/-- The last value the host read. -/
def readAfter (o : Result) : Option Word :=
  match o with
  | .next t => t.seen.head?
  | _ => none

/-! ## Well-formedness: one ill-formed term for each check -/

theorem test_wf_reserved8F_low_code : (Instr.reserved8F 0x7#4).wf = false := by decide
theorem test_wf_reserved8F : (Instr.reserved8F 0x8#4).wf = true ∧ (Instr.reserved8F 0xF#4).wf = true := by decide
theorem test_wf_setE : (setE .one).wf = true ∧ (setE .two).wf = true := by decide
/-- The defaults of R7. -/
theorem test_defaults : (setE .one).maxFrame = 752 ∧ (setE .one).nAck = 255 ∧ (setE .one).rxLenHighMask = .low3 ∧
    (setE .one).ibdJitterMax = 0 := by decide
theorem test_wf_maxFrame_zero : { setE .one with maxFrame := 0 }.wf = false := by decide
theorem test_wf_maxFrame_large : { setE .one with maxFrame := 2048 }.wf = false := by decide
theorem test_wf_ticksPerUs : { setE .one with ticksPerUs := 0 }.wf = false := by decide
theorem test_wf_tPoll : { setE .one with tPoll := 0 }.wf = false := by decide
theorem test_wf_nAck : { setE .one with nAck := 0 }.wf = false := by decide
theorem test_wf_tWakeLow : { setE .one with tWakeLow := 0 }.wf = false := by decide
theorem test_wf_tWakeSettle : { setE .one with tWakeSettle := 2 }.wf = false := by decide
theorem test_wf_slow : { setE .one with slow := { slowE with tLong := 4 } }.wf = false := by decide
theorem test_wf_fast : { setE .one with fast := { fastE with tShort := 0 } }.wf = false := by decide
theorem test_wf_timing_tShort : { fastE with tShort := 0 }.wf = false := by decide
theorem test_wf_timing_tLong : { fastE with tLong := 2 }.wf = false := by decide
theorem test_wf_timing_tAck : { fastE with tAck := 0 }.wf = false := by decide
theorem test_wf_timing_tStart : { fastE with tStart := 0 }.wf = false := by decide
theorem test_wf_timing_tIbd : { fastE with tIbd := 0 }.wf = false := by decide
theorem test_wf_timing_tIfd : { fastE with tIfd := 0 }.wf = false := by decide
theorem test_wf_timing_tIdle : { fastE with tIdle := 0 }.wf = false := by decide
theorem test_wf_timing_nRxto : { fastE with nRxto := 0 }.wf = false := by decide

theorem bounded_timing_wf (t : Timing) : t.bounded.wf = true := by
  unfold Timing.bounded Timing.wf
  simp only [Bool.and_eq_true, decide_eq_true_iff]
  omega

/-- The configuration the model starts from meets R7's constraints, whatever the integrator chose. -/
theorem params_wf (n : Nat) : (Config.params n).wf = true := by
  unfold Config.params Params.bounded Params.wf
  simp only [Bool.and_eq_true, decide_eq_true_iff, bounded_timing_wf, and_true]
  omega

/-! ## Decoding: words written out from the encoding of R68 and the codes of R69 -/

theorem test_decode_init : decode 0b00000000000000000000000000000001#32 = .init := by decide
theorem test_decode_deinit : decode 0b00000000000000000000000000000010#32 = .deinit := by decide
theorem test_decode_sendFrame_slow : decode 0b00000000000000000000000000000011#32 = .sendFrame .slow := by decide
theorem test_decode_sendFrame_fast : decode 0b00000000000000000000000000010011#32 = .sendFrame .fast := by decide
theorem test_decode_recvFrame_slow : decode 0b00000000000000000000000000000100#32 = .recvFrame .slow := by decide
theorem test_decode_recvFrame_fast : decode 0b00000000000000000000000000010100#32 = .recvFrame .fast := by decide
theorem test_decode_wake_slow : decode 0b00000000000000000000000000000101#32 = .wake .slow := by decide
theorem test_decode_wake_fast : decode 0b00000000000000000000000000010101#32 = .wake .fast := by decide
theorem test_decode_recover_slow : decode 0b00000000000000000000000000000110#32 = .recover .slow := by decide
theorem test_decode_recover_fast : decode 0b00000000000000000000000000010110#32 = .recover .fast := by decide
theorem test_decode_reserved0 : decode 0b00000000000000000000000000000000#32 = .reserved0 := by decide
theorem test_decode_reserved7 : decode 0b00000000000000000000000000000111#32 = .reserved7 := by decide
theorem test_decode_reserved8F : decode 0b00000000000000000000000000001111#32 = .reserved8F 0xF#4 := by decide
/-- D6: bits 31:5 are ignored. -/
theorem test_decode_ignored_bits : decode 0xFFFFFFF5#32 = .wake .fast := by decide
theorem test_decode_rejects_two_words : decodeBits 64 3 = .error (.notOneWord 64) := rfl
theorem test_decodeTableWord :
    decodeTableWord 8 0x13 = some (.sendFrame .fast) ∧ decodeTableWord 32 0xFFFFFFE4 = some (.recvFrame .slow)
      ∧ decodeTableWord 64 0x13 = none := by decide

/-! ## Commands: the STATUS vectors of 95_test_vectors.md (D1 to D14), from State.reset where they start there -/

/-- D2: INIT after reset. -/
theorem test_init_after_reset : statusAfter (step (State.reset.withFetchWord 8 0x01)) = some 0x00000006#32 := by decide
/-- D1: SEND_FRAME while disabled. -/
theorem test_sendFrame_disabled : statusAfter (step (State.reset.withFetchWord 8 0x13)) = some 0x00000052#32 := by decide
/-- D5: SEND_FRAME with a length out of range. -/
theorem test_sendFrame_overlong :
    statusAfter (step ((alone { enabled .one with txLen := 0xFFFF#16 } []).withFetchWord 8 0x03)) = some 0x00000046#32 := by decide
/-- F1: SEND_FRAME within the range is launched. -/
theorem test_sendFrame_launch :
    statusAfter (step ((alone { enabled .one with txLen := 255#16 } []).withFetchWord 8 0x13)) = some 0x00000005#32 := by decide
/-- D12 and D13: DEINIT, and DEINIT again. -/
theorem test_deinit : statusAfter (step ((alone (enabled .one) []).withFetchWord 8 0x02)) = some 0x00000002#32 := by decide
theorem test_deinit_again : statusAfter (step (State.reset.withFetchWord 8 0x02)) = some 0x00000002#32 := by decide
/-- D3 and D4: the reserved codes. -/
theorem test_reserved0 : statusAfter (step ((alone (enabled .one) []).withFetchWord 8 0x00)) = some 0x00000056#32 := by decide
theorem test_reserved7 : statusAfter (step ((alone (enabled .one) []).withFetchWord 8 0x07)) = some 0x00000056#32 := by decide
theorem test_reserved8F : statusAfter (step ((alone (enabled .one) []).withFetchWord 8 0x0F)) = some 0x00000056#32 := by decide
/-- D6: WAKE is launched; D7: DEINIT while it runs only sets CMD_LOST. -/
theorem test_wake_launch :
    statusAfter (step ((alone (enabled .one) []).withFetchWord 32 0xFFFFFFF5)) = some 0x00000005#32 := by decide
theorem test_deinit_while_busy :
    statusAfter (step ((alone (running .wake [] [.complete]) []).withFetchWord 8 0x02)) = some 0x0000000D#32 := by decide
/-- R160 case 6: WAKE copies SPEED; W1: its sequence is the same for either. -/
theorem test_wake_copies_speed : (match exec (.wake .fast) (alone (enabled .one) []) with
    | .next t => some (t.inst.seq.p, t.inst.seq.phase)
    | _ => none) = some (.fast, .run 1 (wakeSteps (setE .one))) := by decide
/-- R1: RECV_FRAME is launched whatever LEN holds. -/
theorem test_recvFrame_launch :
    statusAfter (step ((alone { enabled .one with txLen := 0xFFFF#16 } []).withFetchWord 8 0x14)) = some 0x00000005#32 := by decide
theorem test_recvFrame_disabled : statusAfter (step (State.reset.withFetchWord 8 0x04)) = some 0x00000052#32 := by decide
/-- W2 and W3: RECOVER is launched. -/
theorem test_recover_launch :
    statusAfter (step ((alone (enabled .one) []).withFetchWord 8 0x16)) = some 0x00000005#32 := by decide
theorem test_recover_slow_holds : recoverSteps (setE .one) .slow =
    [.hold .low 100000, .hold .high 100000, .release, .finish .ok .none] := by decide

/-! ## Registers: D9 to D11 and D20 to D26 -/

theorem test_clr_lost : statusAfter (step (alone
    { enabled .one with status := { Status.initial with en := true, done := true, cmdLost := true } } [clrLost 0]))
      = some 0x00000006#32 := by decide
theorem test_status_write_sets_nothing : statusAfter (step (alone
    { enabled .one with status := { Status.initial with en := true, done := true } } [wr 0 0x014 0xFFFFFFFD#32]))
      = some 0x00000006#32 := by decide
theorem test_clr_done : statusAfter (step (alone
    { enabled .one with status := { Status.initial with en := true, done := true } } [clrDone 0])) = some 0x00000004#32 := by decide
theorem test_irq_is_a_level :
    ({ enabled .one with status := { Status.initial with en := true, done := true } }.writeReg .ctrl 1#32).irq = true
      ∧ ((enabled .one).writeReg .ctrl 1#32).irq = false := by decide
theorem test_read_cmd : readAfter (step (alone (enabled .one) [rd 0 0x008])) = some 0#32 := by decide
theorem test_read_config : readAfter (step (alone (fresh .two) [rd 0 0x000])) = some 0x02F00001#32 := by decide
/-- R26: the second instance's CONFIG by its host address; an address no register block holds. -/
theorem test_read_config_by_address : readAfter (step (pair [.bus (.read 0x40001000 32)])) = some 0x02F00001#32 := by decide
theorem test_read_outside : step (pair [.bus (.read 0x40002000 32)]) = .fault (.noRegisterBlock 0x40002000) := rfl
theorem test_read_reserved : readAfter (step (alone (enabled .one) [rd 0 0x020])) = some 0#32 := by decide
theorem test_read_buf_while_busy : step (alone (running .wake [] [.complete]) [rdb 0 0])
    = .refused (.bufWhileBusy (.read 0x100 8)) := rfl
theorem test_read_of_16_bits : step (alone (enabled .one) [.access 0 (.read 0x014 16)])
    = .refused (.illegalAccess (.read 0x014 16)) := rfl

/-! ## The sequencer: P7, C3, L1, L13, F5, R5 and R13 -/

theorem test_timeout :
    { ({ fresh .one with now := 1 } : Inst).timeoutStart 8 with now := 8 }.timeoutExpired = false
      ∧ { ({ fresh .one with now := 1 } : Inst).timeoutStart 8 with now := 9 }.timeoutExpired = true := by decide
theorem test_decodeBit_tie : decodeBit 3 3 = false ∧ decodeBit 4 2 = true ∧ decodeBit 2 4 = false := by decide
theorem test_prefix_0141 : lenBytes .two 0x0141#16 = [0x01#8, 0x41#8] ∧ lenBytes .one 0x00FF#16 = [0xFF#8] := by decide
theorem test_rxLength_mask : rxLength .low3 0xF8#8 0x02#8 = 2#16 ∧ rxLength .all8 0xF8#8 0x02#8 = 63490#16 := by decide
theorem test_status_word_F4 :
    { Status.initial with done := true, en := true, code := .ackError, stage := .payload }.word = 0x00000426#32 := by decide
/-- R133, program P1: a received byte is stored where the cursor stands. -/
theorem test_rxStore : (({ running .recvFrame [] [] with
    seq := { (running .recvFrame [] []).seq with cursor := 1, shift := 0xCD#8 } } : Inst).doRxStore []).buf = [(1, 0xCD#8)] := by decide

/-! ## Witnesses: states of the invariant -/

theorem enabled_inv (w : LenWidth) : (enabled w).Inv := by
  refine ⟨by cases w <;> decide, rfl, fun c hc => ?_, Nat.zero_le _, Nat.zero_le _, rfl, fun _ => ⟨rfl, rfl, rfl⟩, fun h => ?_⟩
  · cases hc
  · cases h

theorem running_inv (op : SeqOp) (peer : List Bool) (todo : List Micro)
    (h : todoOk op ((running op peer todo).known op) todo = true) : (running op peer todo).Inv := by
  refine ⟨rfl, rfl, fun c hc => ?_, Nat.zero_le _, Nat.zero_le _, rfl, fun h => ?_, fun _ => ?_⟩
  · cases hc
  · cases h
  · exact ⟨rfl, rfl, rfl, rfl, rfl, op, 0, todo, rfl, rfl, h⟩

theorem alone_inv {b : Inst} (ops : List HostOp) (h : b.Inv) (hn : b.num = 0) : (alone b ops).Inv := by
  constructor
  · intro c hc
    have hc : c = b := by simpa [State.insts, alone] using hc
    exact hc ▸ h
  · simp [State.insts, alone, hn]

theorem sequencing_inv {b : Inst} (h : b.Inv) (hn : b.num = 0) : (sequencing b).Inv :=
  ⟨(alone_inv [] h hn).1, (alone_inv [] h hn).2⟩

/-- An access that is next on the host's script. -/
theorem alone_accesses (b : Inst) (a : Access) : (alone b [.access 0 a]).Accesses 0 a (alone b []) := ⟨rfl, [], rfl, rfl⟩

/-! ## Witnesses: encoding, reset and the step -/

theorem witness_DecodeOfEncodeIsIdentity : Instr.wf (.reserved8F 0x8#4) = true ∧ Instr.wf (.recover .fast) = true := by decide
theorem witness_EncodeOfDecodeKeepsReadBits : (0x00000013#32).extractLsb' 0 5 = (0xFFFFFFF3#32).extractLsb' 0 5 := by decide
theorem witness_LengthPrefixAssembly :
    (fresh .one).cfg.lenWidth = .one ∧ (fresh .two).cfg.lenWidth = .two ∧
      (255#16).toNat ≤ 255 ∧ (2047#16).toNat ≤ 2047 ∧ (0#16).toNat ≤ 255 := by decide
theorem witness_ResetInputRestoresTableValues :
    (alone (running .wake [] [.complete]) [.reset 0]).turn = .host ∧
      (alone (running .wake [] [.complete]) [.reset 0]).host = [.reset 0] ∧
      (alone (running .wake [] [.complete]) []).focus 0 = some (alone (running .wake [] [.complete]) []) := ⟨rfl, rfl, rfl⟩
theorem witness_StepRunsDecodedCommand :
    (alone (enabled .one) [.access 0 (.write 0x008 32 (encode (.sendFrame .fast)))]).Accesses 0
      (.write 0x008 32 (encode (.sendFrame .fast))) (alone (enabled .one) []) ∧ Instr.wf (.sendFrame .fast) = true :=
  ⟨alone_accesses _ _, rfl⟩
theorem witness_FetchWordRunsNext :
    decodeTableWord 32 0xFFFFFFFF = some (.reserved8F 0xF#4) ∧ decodeTableWord 0 0 = some .reserved0 := by decide
theorem witness_TickAdvancesEveryInstance :
    ((alone (enabled .one) []).turn = .host ∧ (alone (enabled .one) []).host = []) ∧
      ((pair [.tick]).turn = .host ∧ ∃ ops, (pair [.tick]).host = .tick :: ops) := ⟨⟨rfl, rfl⟩, rfl, [], rfl⟩
/-- An instance whose sequencer waits for the next tick. -/
def waiting : Inst := (running .wake [] []).atPhase 1 [.complete]

/-- A machine of one instance, and one of two that both run a command, with the second in turn. -/
theorem witness_SilentRunFollowsMoves :
    let s := { sequencing (running .wake [] [.complete]) with lower := [waiting] }
    (sequencing (running .wake [] [.complete])).Alone ∧ (alone (enabled .one) []).Alone ∧
      s.Silent ∧ (∀ c ∈ s.insts, c.cfg.wf = true) ∧ s.turn = .sequencer ∧ s.insts[0]? = some waiting ∧ 0 ≠ s.lower.length :=
  ⟨⟨rfl, rfl, rfl, .inl rfl⟩, ⟨rfl, rfl, rfl, .inr rfl⟩, ⟨rfl, by decide, .inl rfl⟩, by decide, rfl, rfl, by decide⟩

/-! ## Witnesses: commands -/

theorem witness_BusyCommandOnlySetsCmdLost : (alone (running .wake [] [.complete]) []).inst.status.busy = true := rfl
theorem witness_InitAndDeinitCompleteAtOnce : (alone (enabled .one) []).inst.status.busy = false := rfl
theorem witness_ReservedCommandIsRejected :
    (Instr.reserved8F 0xF#4 = .reserved0 ∨ Instr.reserved8F 0xF#4 = .reserved7 ∨ ∃ op, Instr.reserved8F 0xF#4 = .reserved8F op) ∧
      (alone (fresh .one) []).inst.status.busy = false := ⟨.inr (.inr ⟨_, rfl⟩), rfl⟩
theorem witness_DisabledBlockRejectsSequencedCommand :
    ((∃ p, Instr.wake .slow = .sendFrame p) ∨ (∃ p, Instr.wake .slow = .recvFrame p) ∨ (∃ p, Instr.wake .slow = .wake p) ∨
      (∃ p, Instr.wake .slow = .recover p)) ∧
      (alone (fresh .one) []).inst.status.busy = false ∧ (alone (fresh .one) []).inst.status.en = false :=
  ⟨.inr (.inr (.inl ⟨_, rfl⟩)), rfl, rfl⟩
/-- F12 and F13: the first length out of range, for either prefix. -/
theorem witness_OverlongSendOverrunsAtLaunch :
    let s := alone { enabled .one with txLen := 256#16 } []
    let t := alone { enabled .two with txLen := 753#16 } []
    (s.inst.status.busy = false ∧ s.inst.status.en = true ∧
      min s.inst.cfg.maxFrame (if s.inst.cfg.lenWidth = .one then 255 else 2047) < s.inst.txLen.toNat) ∧
    (t.inst.status.busy = false ∧ t.inst.status.en = true ∧
      min t.inst.cfg.maxFrame (if t.inst.cfg.lenWidth = .one then 255 else 2047) < t.inst.txLen.toNat) := by decide
/-- The last length in range, for either prefix. -/
theorem witness_SendFrameLaunches :
    let s := alone { enabled .one with txLen := 255#16 } []
    let t := alone { enabled .two with txLen := 752#16 } []
    (s.inst.status.busy = false ∧ s.inst.status.en = true ∧
      s.inst.txLen.toNat ≤ min s.inst.cfg.maxFrame (if s.inst.cfg.lenWidth = .one then 255 else 2047)) ∧
    (t.inst.status.busy = false ∧ t.inst.status.en = true ∧
      t.inst.txLen.toNat ≤ min t.inst.cfg.maxFrame (if t.inst.cfg.lenWidth = .one then 255 else 2047)) := by decide
/-- For RECV_FRAME, WAKE and RECOVER. -/
theorem witness_RecvFrameLaunches :
    (alone (enabled .one) []).inst.status.busy = false ∧ (alone (enabled .one) []).inst.status.en = true := ⟨rfl, rfl⟩
theorem witness_WakeLaunches :
    (alone (enabled .two) []).inst.status.busy = false ∧ (alone (enabled .two) []).inst.status.en = true := ⟨rfl, rfl⟩
theorem witness_RecoverLaunches :
    (alone (enabled .one) []).inst.status.busy = false ∧ (alone (enabled .one) []).inst.status.en = true := ⟨rfl, rfl⟩
theorem witness_CommandFrame : (∃ t, exec (.sendFrame .fast) (alone (enabled .one) []) = .next t) ∧
    (Instr.sendFrame .fast ≠ .init ∧ Instr.sendFrame .fast ≠ .deinit) ∧ (alone (enabled .one) []).inst.status.busy = false :=
  ⟨⟨_, rfl⟩, by decide, rfl⟩

/-! ## Witnesses: host accesses -/

theorem witness_ProtocolViolationIsRefused :
    (alone (enabled .one) []).inst.cfg.wf = true ∧
    (Access.read 0x014 16).legal = false ∧ (Access.write 0x100 32 0#32).legal = false ∧ (Access.read 0x002 32).legal = false ∧
    (Access.read 0x1000 8).legal = false ∧ (Access.read 0x0FF 8).legal = false ∧
    ((Access.read 0x100 8).legal = true ∧ (running .wake [] [.complete]).status.busy = true ∧
      (Access.read 0x100 8).inBuf (setE .one) = true) ∧
    ((Access.write 0x3EF 8 0#32).legal = true ∧ (Access.write 0x3EF 8 0#32).inBuf (setE .one) = true) ∧
    ((Access.read 0x0FC 32).legal = true ∧ (Access.read 0x0FC 32).inBuf (setE .one) = false) ∧
    ((Access.read 0xFFF 8).legal = true ∧ (Access.read 0x3F0 8).inBuf (setE .one) = false) := by decide
theorem witness_ProtocolViolationIsRefused_access :
    (alone (enabled .one) [.access 0 (.read 0x014 16)]).Accesses 0 (.read 0x014 16) (alone (enabled .one) []) := alone_accesses _ _
/-- By number: the first and the last instance of two. -/
theorem witness_HostAccessReachesItsInstance_number :
    (pair [rd 1 0x014]).turn = .host ∧ (pair [rd 1 0x014]).host = .access 1 (.read 0x014 32) :: [] ∧
      (pair [rd 1 0x014]).insts[1]? = some (Inst.initial { setE .two with base := 0x40001000 } 1 0) ∧
      (∃ t, step (pair [rd 1 0x014]) = .next t) ∧ (pair [rd 0 0x014]).insts[0]? = some (fresh .one) :=
  ⟨rfl, rfl, rfl, ⟨_, rfl⟩, rfl⟩
/-- The address of STATUS of instance 1 of two, and the first and the last address of its register block. -/
theorem witness_HostAccessReachesItsInstance :
    ((alone (enabled .one) [rd 1 0x014]).turn = .host ∧ (alone (enabled .one) [rd 1 0x014]).host = .access 1 (.read 0x014 32) :: [] ∧
      (alone (enabled .one) [rd 1 0x014]).insts.length ≤ 1) ∧
    ((pair [.bus (.read 0x40001014 32)]).turn = .host ∧
      (pair [.bus (.read 0x40001014 32)]).host = .bus (.read 0x40001014 32) :: [] ∧
      ((pair []).insts.map fun b => (decide (b.cfg.base ≤ 0x40001014) && decide (0x40001014 < b.cfg.base + 4096))) = [false, true] ∧
      ((pair []).insts.map fun b => (decide (b.cfg.base ≤ 0x40001000) && decide (0x40001000 < b.cfg.base + 4096))) = [false, true] ∧
      ((pair []).insts.map fun b => (decide (b.cfg.base ≤ 0x40001FFF) && decide (0x40001FFF < b.cfg.base + 4096))) = [false, true] ∧
      ((pair []).insts.map fun b => (decide (b.cfg.base ≤ 0x40002000) && decide (0x40002000 < b.cfg.base + 4096))) = [false, false]) :=
  ⟨⟨rfl, rfl, by decide⟩, rfl, rfl, by decide, by decide, by decide, by decide⟩
/-- Two register blocks at one address. -/
theorem witness_HostAccessReachesItsInstance_overlap :
    let s := { alone (fresh .one) [.bus (.read 0x40000014 32)] with upper := [Inst.initial (setE .one) 1 0] }
    s.turn = .host ∧ s.host = .bus (.read 0x40000014 32) :: [] ∧ 0 ≠ 1 ∧ s.insts[0]? = some (fresh .one) ∧
      s.insts[1]? = some (Inst.initial (setE .one) 1 0) ∧ (fresh .one).cfg.base ≤ 0x40000014 ∧
      0x40000014 < (fresh .one).cfg.base + 4096 := ⟨rfl, rfl, by decide, rfl, rfl, by decide, by decide⟩
theorem witness_ReadsAnswerAndChangeNothing :
    ((0x000 < 0x100 ∧ 0x000 % 4 = 0) ∧ (0x0FC < 0x100 ∧ 0x0FC % 4 = 0)) ∧
    (alone (enabled .one) [rd 0 0x0FC]).Accesses 0 (.read 0x0FC 32) (alone (enabled .one) []) ∧
    ((0x100 ≤ 0x100 ∧ 0x100 ≤ 0xFFF) ∧ (0x100 ≤ 0xFFF ∧ 0xFFF ≤ 0xFFF)) ∧ (alone (enabled .one) []).inst.status.busy = false ∧
    (alone (enabled .one) [rdb 0 0]).Accesses 0 (.read 0x100 8) (alone (enabled .one) []) ∧
    (alone (enabled .one) [.access 0 (.read 0xFFF 8)]).Accesses 0 (.read 0xFFF 8) (alone (enabled .one) []) ∧
    (0x100 + (alone (running .wake [] [.complete]) []).inst.cfg.maxFrame ≤ 0x3F0 ∧ 0x3F0 ≤ 0xFFF ∧
      (alone (running .wake [] [.complete]) [.access 0 (.read 0x3F0 8)]).Accesses 0 (.read 0x3F0 8)
        (alone (running .wake [] [.complete]) [])) :=
  ⟨by decide, alone_accesses _ _, by decide, rfl, alone_accesses _ _, alone_accesses _ _, by decide, by decide, alone_accesses _ _⟩
theorem witness_RegisterWritesStoreOrAreIgnored :
    (alone (enabled .one) [wr 0 0x004 1#32]).Accesses 0 (.write 0x004 32 1#32) (alone (enabled .one) []) ∧
    (alone (enabled .one) [wr 0 0x00C 0x151#32]).Accesses 0 (.write 0x00C 32 0x151#32) (alone (enabled .one) []) ∧
    (alone (enabled .one) [wr 0 0x010 0x12345#32]).Accesses 0 (.write 0x010 32 0x12345#32) (alone (enabled .one) []) ∧
    ((0x018 < 0x100 ∧ 0x018 % 4 = 0 ∧ 0x018 ≤ 0x018) ∧
      (alone (enabled .one) [wr 0 0x018 7#32]).Accesses 0 (.write 0x018 32 7#32) (alone (enabled .one) [])) ∧
    ((0x000 < 0x100 ∧ 0x000 % 4 = 0) ∧
      (alone (enabled .one) [wr 0 0x000 7#32]).Accesses 0 (.write 0x000 32 7#32) (alone (enabled .one) [])) ∧
    (0x100 + (alone (enabled .one) []).inst.cfg.maxFrame ≤ 0x3F0 ∧ 0x3F0 ≤ 0xFFF ∧
      (alone (enabled .one) [.access 0 (.write 0x3F0 8 7#32)]).Accesses 0 (.write 0x3F0 8 7#32) (alone (enabled .one) [])) :=
  ⟨alone_accesses _ _, alone_accesses _ _, alone_accesses _ _, ⟨by decide, alone_accesses _ _⟩, ⟨by decide, alone_accesses _ _⟩,
    by decide, by decide, alone_accesses _ _⟩
theorem witness_StatusWriteOnlyClears :
    (alone (running .wake [] [.complete]) [clrLost 0]).Accesses 0 (.write 0x014 32 8#32) (alone (running .wake [] [.complete]) []) :=
  alone_accesses _ _
theorem witness_BufWriteStoresOneByte :
    (alone (enabled .one) []).inst.status.busy = false ∧ 751 < (alone (enabled .one) []).inst.cfg.maxFrame ∧
      0 < (alone (enabled .one) []).inst.cfg.maxFrame ∧ (alone (enabled .one) []).inst.cfg.maxFrame ≤ 2047 ∧
      (alone (enabled .one) []).inst.buf.wf = true ∧
      (alone (enabled .one) [wrb 0 751 5#8]).Accesses 0 (.write (0x100 + 751) 8 5#32) (alone (enabled .one) []) :=
  ⟨rfl, by decide, by decide, by decide, rfl, alone_accesses _ _⟩
theorem witness_InterruptFollowsCompletion :
    let done := { enabled .one with ie := true, status := { Status.initial with en := true, done := true } }
    ((alone done []).inst.status.done = true ∧ (1#32).getLsbD 0 = true ∧
      (alone done [wr 0 0x004 1#32]).Accesses 0 (.write 0x004 32 1#32) (alone done [])) ∧
    ((2#32).getLsbD 1 = true ∧ (alone done [clrDone 0]).Accesses 0 (.write 0x014 32 2#32) (alone done [])) ∧
    ((alone done []).inst.status.busy = false ∧ (alone done []).inst.status.en = true ∧
      (alone done []).inst.txLen.toNat ≤ min (alone done []).inst.cfg.maxFrame (if (alone done []).inst.cfg.lenWidth = .one then 255 else 2047) ∧
      (∃ t, exec (.sendFrame .slow) (alone done []) = .next t) ∧ (∃ t, exec (.recvFrame .slow) (alone done []) = .next t) ∧
      (∃ t, exec (.wake .slow) (alone done []) = .next t) ∧ ∃ t, exec (.recover .slow) (alone done []) = .next t) :=
  ⟨⟨rfl, by decide, alone_accesses _ _⟩, ⟨by decide, alone_accesses _ _⟩, rfl, rfl, by decide, ⟨_, rfl⟩, ⟨_, rfl⟩, ⟨_, rfl⟩, _, rfl⟩
/-- P3: completions inside the CMD write, enabled and disabled, and a lost command. -/
theorem witness_InterruptFollowsCompletion_at_once :
    let off := alone { fresh .one with ie := true, txLen := 256#16 } []
    let on := alone { enabled .one with ie := true, txLen := 256#16 } []
    (off.inst.status.busy = false ∧ off.inst.status.en = false) ∧
    (on.inst.status.busy = false ∧
      min on.inst.cfg.maxFrame (if on.inst.cfg.lenWidth = .one then 255 else 2047) < on.inst.txLen.toNat) ∧
    (alone (running .wake [] [.complete]) []).inst.status.busy = true := by decide
theorem witness_HostAccessKeepsRunningCommand :
    let b := running .wake [] [.complete]
    (alone b [wr 0 0x00C 1#32]).Accesses 0 (.write 0x00C 32 1#32) (alone b []) ∧ (alone b []).inst.status.busy = true ∧
      ∃ t, step (alone b [wr 0 0x00C 1#32]) = .next t := ⟨alone_accesses _ _, rfl, _, rfl⟩
theorem witness_AccessesLeaveOtherInstancesAlone :
    ((pair [cmd 1 0x1#4 .slow]).turn = .host ∧ (∃ a, (pair [cmd 1 0x1#4 .slow]).host = .access 1 a :: []) ∧
      (∃ t, step (pair [cmd 1 0x1#4 .slow]) = .next t) ∧ 0 ≠ 1) ∧
    ((pair [.reset 1]).host = .reset 1 :: [] ∧ ∃ t, step (pair [.reset 1]) = .next t) :=
  ⟨⟨rfl, ⟨_, rfl⟩, ⟨_, rfl⟩, by decide⟩, rfl, _, rfl⟩

/-! ## Witnesses: primitives, the codec and the byte transceiver -/

/-- The peer's drive of P2: HIGH at 3 samples, then LOW at `k`. -/
def highThenLow (h l : Nat) : List Bool := List.replicate h false ++ List.replicate l true ++ List.replicate 4 false

theorem witness_HoldKeepsLevelForItsTicks :
    (running .wake [] [.hold .low 3, .complete]).due = some (.hold .low 3, [.complete]) ∧
      (running .wake [] [.hold .high 0, .complete]).due = some (.hold .high 0, [.complete]) := by decide
/-- P2 and P3, and the counts 0 and N - 1. -/
theorem witness_PollWhileCountsOrTimesOut :
    let b (peer : List Bool) := running .recvFrame peer [.poll .high 5 (.bitHigh .recvAck), .complete]
    ((b []).due = some (.poll .high 5 (.bitHigh .recvAck), [.complete]) ∧ 1 ≤ (b []).cfg.tPoll) ∧
    ((∀ i, i < 4 → (b (highThenLow 4 1)).lineAt (i * (b []).cfg.tPoll) = .high) ∧
      (b (highThenLow 4 1)).lineAt (4 * (b []).cfg.tPoll) ≠ .high) ∧
    (b (highThenLow 0 1)).lineAt (0 * (b []).cfg.tPoll) ≠ .high ∧
    (∀ i, i < 5 → (b (highThenLow 5 1)).lineAt (i * (b []).cfg.tPoll) = .high) := by decide
theorem witness_SentByteWaveform :
    (running .sendFrame [] [.sendByte 0xA5#8 .payload, .complete]).cfg.wf = true ∧
      (running .sendFrame [] [.sendByte 0xA5#8 .payload, .complete]).due = some (.sendByte 0xA5#8 .payload, [.complete]) := by decide
/-- B1 and B2: acknowledged after 1 sample, and at once. -/
theorem witness_AcknowledgedByteGoesOn :
    let b (peer : List Bool) := running .sendFrame peer [.sendByte 0xA5#8 .payload, .complete]
    (b []).cfg.wf = true ∧ (b []).due = some (.sendByte 0xA5#8 .payload, [.complete]) ∧ 1 < (b []).cfg.nAck ∧ 2 < (b []).cfg.nAck ∧
    ((∀ i, i < 1 → (b (highThenLow 55 2)).peerAt (9 * symbolTicks (b []).timing + i * (b []).cfg.tPoll) = false) ∧
      (∀ i, i < 2 → (b (highThenLow 55 2)).peerAt (9 * symbolTicks (b []).timing + (1 + i) * (b []).cfg.tPoll) = true) ∧
      (b (highThenLow 55 2)).peerAt (9 * symbolTicks (b []).timing + (1 + 2) * (b []).cfg.tPoll) = false) ∧
    ((∀ i, i < 2 → (b (highThenLow 54 2)).peerAt (9 * symbolTicks (b []).timing + (0 + i) * (b []).cfg.tPoll) = true) ∧
      (b (highThenLow 54 2)).peerAt (9 * symbolTicks (b []).timing + (0 + 2) * (b []).cfg.tPoll) = false) := by decide

/-- A configuration in which a byte is given up after 2 samples. -/
def twoPolls (peer : List Bool) (todo : List Micro) : Inst :=
  { running .sendFrame peer todo with cfg := { setE .one with nAck := 2, fast := { fastE with nRxto := 2 } } }

theorem witness_UnacknowledgedByteFails :
    let b (peer : List Bool) := twoPolls peer [.sendByte 0x5A#8 .addr, .complete]
    (b []).cfg.wf = true ∧ (b []).due = some (.sendByte 0x5A#8 .addr, [.complete]) ∧
    ((Site.addr = .addr ∧ Stage.addr = .addr) ∨ (Site.addr = .len ∧ Stage.addr = .len) ∨
      (Site.addr = .payload ∧ Stage.addr = .payload)) ∧
    (∀ i, i < (b []).cfg.nAck →
      (b (highThenLow 56 0)).peerAt (9 * symbolTicks (b []).timing + i * (b []).cfg.tPoll) = false) ∧
    (1 < (b []).cfg.nAck ∧
      (∀ i, i < 1 → (b (highThenLow 55 2)).peerAt (9 * symbolTicks (b []).timing + i * (b []).cfg.tPoll) = false) ∧
      (∀ i, i < (b []).cfg.nAck →
        (b (highThenLow 55 2)).peerAt (9 * symbolTicks (b []).timing + (1 + i) * (b []).cfg.tPoll) = true)) := by decide
theorem witness_SilentPeerTimesOut :
    let b := twoPolls (highThenLow 8 0) [.recvByte .sendAck, .complete]
    b.cfg.wf = true ∧ b.due = some (.recvByte .sendAck, [.complete]) ∧
      ((Site.sendAck = .sendAck ∧ Code.ackError = .ackError ∧ Stage.frameAck = .frameAck) ∨
        (Site.sendAck = .recvAck ∧ Code.ackError = .receiveTimeout ∧ Stage.frameAck = .frameAck) ∨
        (Site.sendAck = .rxLen ∧ Code.ackError = .receiveTimeout ∧ Stage.frameAck = .rxLen) ∨
        (Site.sendAck = .rxPayload ∧ Code.ackError = .receiveTimeout ∧ Stage.frameAck = .rxPayload)) ∧
      ∀ i, i < b.timing.nRxto → b.peerAt (symbolTicks b.timing + i * b.cfg.tPoll) = false := by decide
/-- B7: the reply 0x20 with phases of 4 and 2 ticks, after the 6 ticks of the sync symbol. -/
theorem witness_ReceivedByteIsTheSentByte :
    let b := running .recvFrame (List.replicate 6 false ++ (List.range 48).map (replyLow 4 2 0x20#8) ++ [false])
      [.recvByte .recvAck, .complete]
    b.cfg.wf = true ∧ b.due = some (.recvByte .recvAck, [.complete]) ∧
      b.cfg.tPoll ≤ 2 ∧ 2 + 2 * b.cfg.tPoll ≤ 4 + 1 ∧ 4 ≤ (b.timing.nRxto - 1) * b.cfg.tPoll ∧
      (∀ j, j < 8 * (4 + 2) → b.peerAt (symbolTicks b.timing + j) = replyLow 4 2 0x20#8 j) ∧
      (∀ j, j < b.cfg.tPoll → b.peerAt (symbolTicks b.timing + 8 * (4 + 2) + j) = false) := by decide

/-! ## Witnesses: the frame engine -/

/-- A3, A5 and A2: HIGH at once, HIGH at the last sample before the timeout's and LOW up to the timeout. -/
theorem witness_ArbitrationOutcome :
    let b (peer : List Bool) := running .sendFrame peer [.arbitrate, .complete]
    (b []).cfg.wf = true ∧ (b []).due = some (.arbitrate, [.complete]) ∧
    (b (highThenLow 2 0)).peerAt (0 * (b []).cfg.tPoll) = false ∧
    ((∀ i, i < 8 → (b (highThenLow 0 8)).peerAt (i * (b []).cfg.tPoll) = true ∧ i * (b []).cfg.tPoll < (b []).timing.tIdle) ∧
      (b (highThenLow 0 8)).peerAt (8 * (b []).cfg.tPoll) = false) ∧
    (∀ i, i < 9 → i * (b []).cfg.tPoll ≤ idleTicks (b []).cfg (b []).seq.p → (b (highThenLow 0 9)).peerAt (i * (b []).cfg.tPoll) = true) ∧
    idleTicks (b []).cfg (b []).seq.p < 9 * (b []).cfg.tPoll := by decide
theorem witness_StartConditionWaveform :
    (running .sendFrame [] [.startCondition, .complete]).due = some (.startCondition, [.complete]) := by decide
theorem witness_GapSeparatesBytes :
    let b := running .sendFrame [] [.gap, .complete]
    b.due = some (.gap, [.complete]) ∧ b.seq.first = false ∧ (fresh .two).cfg.lenWidth = .two ∧
      ({ b with seq := { b.seq with first := true } } : Inst).due = some (.gap, [.complete]) ∧
      ({ b with seq := { b.seq with first := true } } : Inst).seq.first = true := by decide
theorem witness_CompletionIsOneUpdate :
    (sequencing (running .wake [] [.complete])).turn = .sequencer ∧
      (sequencing (running .wake [] [.complete])).inst.due = some (.complete, []) ∧
      (sequencing (running .wake [] [.complete])).inst.Inv :=
  ⟨rfl, rfl, running_inv .wake [] [.complete] (by decide)⟩
theorem witness_FrameEndsWithItsDelay :
    (running .sendFrame [] [.epilogue .ok .none]).due = some (.epilogue .ok .none, []) ∧
      (running .wake [] [.finish .ok .none]).due = some (.finish .ok .none, []) ∧
      (Site.rxLen = .rxLen ∧ Code.receiveTimeout = .receiveTimeout ∧ Stage.rxLen = .rxLen) := by decide
/-- The sentinel and a neighbour, MAX_FRAME and one more. -/
theorem witness_FrameValueChecks :
    let b (v : Byte) (l : Half) := { running .recvFrame [] [] with seq := { (running .recvFrame [] []).seq with shift := v, len := l } }
    (b 0x20#8 0#16).seq.shift = 0x20#8 ∧ (b 0x21#8 0#16).seq.shift ≠ 0x20#8 ∧
      (b 0#8 753#16).cfg.maxFrame < (b 0#8 753#16).seq.len.toNat ∧ (b 0#8 752#16).seq.len.toNat ≤ (b 0#8 752#16).cfg.maxFrame := by decide
theorem witness_ReceivedPayloadByteIsStored :
    let b := { running .recvFrame [] [] with seq := { (running .recvFrame [] []).seq with cursor := 751 } }
    b.buf.wf = true ∧ b.seq.cursor < b.cfg.maxFrame := by decide
/-- Within the payload and at its end. -/
theorem witness_SendFrameOnlyReadsBuf :
    let b (cursor : Nat) := { running .sendFrame [] [] with seq := { (running .sendFrame [] []).seq with cursor := cursor, len := 2#16 } }
    ((b 1).seq.cursor < (b 1).seq.len.toNat ∧ (b 2).seq.len.toNat ≤ (b 2).seq.cursor) ∧
    (running .sendFrame [] sendFrameSteps).Inv ∧ (running .sendFrame [] sendFrameSteps).seq.op = some .sendFrame :=
  ⟨by decide, running_inv .sendFrame [] sendFrameSteps (by decide), rfl⟩
/-- A2: the peer holds the line LOW at every tick up to the timeout. -/
theorem witness_NeverIdleLineFailsSilently :
    let s := alone { enabled .one with txLen := 255#16, peer := List.replicate 10 true } []
    ((Instr.sendFrame .fast = .sendFrame .fast ∧ s.inst.txLen.toNat ≤ lmaxTx s.inst.cfg) ∨ Instr.sendFrame .fast = .recvFrame .fast) ∧
      s.inst.Inv ∧ s.inst.status.busy = false ∧ s.inst.status.en = true ∧ (∃ t, exec (.sendFrame .fast) s = .next t) ∧
      (∀ j, 1 ≤ j → j ≤ 1 + idleTicks s.inst.cfg .fast → s.inst.peerAt j = true) := by
  have inv := enabled_inv .one
  refine ⟨.inl ⟨rfl, by decide⟩, ⟨inv.1, inv.2, inv.3, inv.4, inv.5, inv.6, inv.7, fun h => nomatch h⟩, rfl, rfl, ⟨_, rfl⟩, ?_⟩
  have h : ∀ j, j < 10 → ({ enabled .one with txLen := 255#16, peer := List.replicate 10 true } : Inst).peerAt j = true := by decide
  intro j _ hj
  exact h j (Nat.lt_of_le_of_lt hj (by decide))

/-! ## Witnesses: WAKE, RECOVER and the whole machine -/

theorem witness_WakeRunsItsPulse :
    (alone (enabled .one) []).inst.Inv ∧ (alone (enabled .one) []).inst.status.busy = false ∧
      (alone (enabled .one) []).inst.status.en = true ∧ ∃ t, exec (.wake .fast) (alone (enabled .one) []) = .next t :=
  ⟨enabled_inv .one, rfl, rfl, _, rfl⟩
theorem witness_RecoverRunsItsPulse :
    (alone (enabled .one) []).inst.Inv ∧ (alone (enabled .one) []).inst.status.busy = false ∧
      (alone (enabled .one) []).inst.status.en = true ∧ ∃ t, exec (.recover .slow) (alone (enabled .one) []) = .next t :=
  ⟨enabled_inv .one, rfl, rfl, _, rfl⟩
theorem witness_StepKeepsInvariant :
    (sequencing (running .recvFrame [] recvFrameSteps)).Inv ∧
      ∃ t, step (sequencing (running .recvFrame [] recvFrameSteps)) = .next t :=
  ⟨sequencing_inv (running_inv .recvFrame [] recvFrameSteps (by decide)) rfl, _, rfl⟩
theorem witness_SamplesOnlyReleasedLine :
    let s := sequencing (running .sendFrame [] [.arbLoop, .complete])
    s.Inv ∧ Sys2Proof.core.run 0 s = .next s ∧ s.inst.due = some (.arbLoop, [.complete]) ∧ Micro.samples .arbLoop = true :=
  ⟨sequencing_inv (running_inv .sendFrame [] [.arbLoop, .complete] (by decide)) rfl, rfl, rfl, rfl⟩
theorem witness_IdleInstanceDrivesNothing :
    let s := alone (enabled .one) []
    s.Inv ∧ Sys2Proof.core.run 0 s = .next s ∧ enabled .one ∈ s.insts ∧ (enabled .one).status.busy = false :=
  ⟨alone_inv [] (enabled_inv .one) rfl, rfl, by simp [State.insts, alone], rfl⟩
theorem witness_IdleInstanceDrivesNothing_busy :
    let s := sequencing (running .wake [] [.complete])
    s.Inv ∧ Sys2Proof.core.run 0 s = .next s ∧ running .wake [] [.complete] ∈ s.insts ∧
      (running .wake [] [.complete]).status.busy = true :=
  ⟨sequencing_inv (running_inv .wake [] [.complete] (by decide)) rfl, rfl, by simp [State.insts, sequencing, alone], rfl⟩
theorem witness_CompletedResultsAreLegal :
    let s := sequencing (running .recvFrame [] [.complete])
    s.Inv ∧ Sys2Proof.core.run 0 s = .next s ∧ s.turn = .sequencer ∧ s.inst.due = some (.complete, []) ∧
      s.inst.seq.op = some .recvFrame :=
  ⟨sequencing_inv (running_inv .recvFrame [] [.complete] (by decide)) rfl, rfl, rfl, rfl, rfl⟩
/-- Also for SendFrameCompletesInBound. -/
theorem witness_SendFrameSendsItsBytesInOrder :
    (alone (enabled .one) []).inst.Inv ∧ (alone (enabled .one) []).inst.status.busy = false ∧
      (alone (enabled .one) []).inst.status.en = true ∧
      (alone (enabled .one) []).inst.txLen.toNat ≤ lmaxTx (alone (enabled .one) []).inst.cfg ∧
      ∃ t, exec (.sendFrame .slow) (alone (enabled .one) []) = .next t :=
  ⟨enabled_inv .one, rfl, rfl, by decide, _, rfl⟩
theorem witness_SendFrameCompletesInBound :
    (alone (enabled .two) []).inst.Inv ∧ (alone (enabled .two) []).inst.status.busy = false ∧
      (alone (enabled .two) []).inst.status.en = true ∧
      (alone (enabled .two) []).inst.txLen.toNat ≤ lmaxTx (alone (enabled .two) []).inst.cfg ∧
      ∃ t, exec (.sendFrame .fast) (alone (enabled .two) []) = .next t :=
  ⟨enabled_inv .two, rfl, rfl, by decide, _, rfl⟩
theorem witness_RecvFrameStoresWhatItReceives :
    (alone (enabled .one) []).inst.Inv ∧ (alone (enabled .one) []).inst.status.busy = false ∧
      (alone (enabled .one) []).inst.status.en = true ∧ ∃ t, exec (.recvFrame .slow) (alone (enabled .one) []) = .next t :=
  ⟨enabled_inv .one, rfl, rfl, _, rfl⟩
theorem witness_RecvFrameCompletesInBound :
    (alone (enabled .two) []).inst.Inv ∧ (alone (enabled .two) []).inst.status.busy = false ∧
      (alone (enabled .two) []).inst.status.en = true ∧ ∃ t, exec (.recvFrame .fast) (alone (enabled .two) []) = .next t :=
  ⟨enabled_inv .two, rfl, rfl, _, rfl⟩

end Sys2Proof.Tests
end

section
/-! PROOFS. Host accesses reach the instances they name (O23): which instances a host address selects, what the host phase does with an
access at the head of its script, and that it leaves the instances beside the addressed one alone. -/

namespace Sys2Proof.Machine

/-! ## The instances that hold a host address -/

/-- The block at INSTANCE_BASE(n) is the 4096 addresses from its base on (R26). -/
theorem Inst.holds_iff {b : Inst} {addr : Nat} :
    b.holds addr = true ↔ b.cfg.base ≤ addr ∧ addr < b.cfg.base + 4096 := by
  simp [Inst.holds]

theorem State.mem_holders {s : State} {addr n base : Nat} :
    (n, base) ∈ s.holders addr ↔ ∃ b, s.insts[n]? = some b ∧ b.holds addr = true ∧ b.cfg.base = base := by
  simp only [State.holders, List.mem_filterMap, Prod.exists, List.mk_mem_zipIdx_iff_getElem?, Option.ite_none_right_eq_some,
    Option.some.injEq, Prod.mk.injEq]
  constructor
  · rintro ⟨b, _, hget, hholds, rfl, hbase⟩
    exact ⟨b, hget, hholds, hbase⟩
  · rintro ⟨b, hget, hholds, hbase⟩
    exact ⟨b, n, hget, hholds, rfl, hbase⟩

/-- `holders` names the instances in the order of their numbers, so none of them twice. -/
theorem State.holders_nodup (s : State) (addr : Nat) : (s.holders addr).Nodup := by
  have hnums : s.insts.zipIdx.Pairwise fun c d => c.2 < d.2 := by
    rw [← List.pairwise_map (f := Prod.snd), List.zipIdx_map_snd]
    exact List.pairwise_lt_range'
  rw [State.holders, List.Nodup, List.pairwise_filterMap]
  refine hnums.imp fun {c d} hlt x hx y hy => ?_
  simp only [Option.ite_none_right_eq_some, Option.some.injEq] at hx hy
  obtain ⟨-, rfl⟩ := hx
  obtain ⟨-, rfl⟩ := hy
  exact fun heq => Nat.ne_of_lt hlt (congrArg Prod.fst heq)

/-- Where exactly one register block holds an address, `holders` is its number with its base. -/
theorem State.holders_eq_singleton {s : State} {addr n : Nat} {b : Inst} (hb : s.insts[n]? = some b)
    (hholds : b.holds addr = true) (only : ∀ m c, s.insts[m]? = some c → m ≠ n → ¬c.holds addr = true) :
    s.holders addr = [(n, b.cfg.base)] := by
  rw [← List.perm_singleton, List.perm_ext_iff_of_nodup (s.holders_nodup addr) (List.pairwise_singleton _ _)]
  rintro ⟨m, base⟩
  rw [State.mem_holders, List.mem_singleton, Prod.mk.injEq]
  constructor
  · rintro ⟨c, hc, hcholds, rfl⟩
    have hmn : m = n := Decidable.byContradiction fun hne => only m c hc hne hcholds
    subst hmn
    rw [hb, Option.some.injEq] at hc
    exact ⟨rfl, hc ▸ rfl⟩
  · rintro ⟨rfl, rfl⟩
    exact ⟨b, hb, hholds, rfl⟩

/-! ## An access by its host address -/

theorem State.accessBus_of_unique_holder {s : State} {a : Access} {n : Nat} {b : Inst} (hb : s.insts[n]? = some b)
    (hholds : b.holds a.off = true) (only : ∀ m c, s.insts[m]? = some c → m ≠ n → ¬c.holds a.off = true) :
    s.accessBus a = s.accessTo n (a.moveTo (a.off - b.cfg.base)) := by
  simp only [State.accessBus, State.holders_eq_singleton hb hholds only]

theorem State.accessBus_of_no_holder {s : State} {a : Access} (hnone : ∀ c ∈ s.insts, ¬c.holds a.off = true) :
    s.accessBus a = .fault (.noRegisterBlock a.off) := by
  rcases s.accessBus_cases a with hfault | ⟨n, base, hone, -⟩
  · exact hfault
  · have hmem : (n, base) ∈ s.holders a.off := by simp [hone]
    obtain ⟨c, hc, hholds, -⟩ := State.mem_holders.mp hmem
    exact absurd hholds (hnone c (List.mem_of_getElem? hc))

theorem State.accessBus_of_two_holders {s : State} {a : Access} {m n : Nat} {c d : Inst} (hne : m ≠ n)
    (hc : s.insts[m]? = some c) (hd : s.insts[n]? = some d) (hcholds : c.holds a.off = true)
    (hdholds : d.holds a.off = true) : s.accessBus a = .fault (.noRegisterBlock a.off) := by
  rcases s.accessBus_cases a with hfault | ⟨k, base, hone, -⟩
  · exact hfault
  · have hm : (m, c.cfg.base) ∈ s.holders a.off := State.mem_holders.mpr ⟨c, hc, hcholds, rfl⟩
    have hn : (n, d.cfg.base) ∈ s.holders a.off := State.mem_holders.mpr ⟨d, hd, hdholds, rfl⟩
    simp only [hone, List.mem_singleton, Prod.mk.injEq] at hm hn
    exact absurd (hm.1.trans hn.1.symm) hne

/-! ## The host phase with an access at the head of its script -/

theorem State.hostMove_of_access {s : State} {n : Nat} {a : Access} {ops : List HostOp} (h : s.host = .access n a :: ops) :
    s.hostMove = { s with host := ops }.accessTo n a := by
  simp only [State.hostMove, h]

theorem State.hostMove_of_bus {s : State} {a : Access} {ops : List HostOp} (h : s.host = .bus a :: ops) :
    s.hostMove = { s with host := ops }.accessBus a := by
  simp only [State.hostMove, h]

theorem State.Accesses.hostMove {s s' : State} {n : Nat} {a : Access} (h : s.Accesses n a s') :
    s.hostMove = s'.access a := by
  obtain ⟨-, ops, hops, hfocus⟩ := h
  simp only [State.hostMove_of_access hops, State.accessTo, hfocus]

theorem State.accessTo_of_no_instance {s : State} {n : Nat} (a : Access) (h : s.insts.length ≤ n) :
    s.accessTo n a = .fault (.noInstance n) := by
  simp only [State.accessTo, (s.focus_spec n).1.mpr h]

/-- A step of the host phase depends on the state only through the host's move. -/
theorem step_congr_hostMove {s t : State} (hs : s.turn = .host) (ht : t.turn = .host) (h : s.hostMove = t.hostMove) :
    step s = step t := by
  simp only [step, hs, ht, h]

theorem step_of_hostMove_fault {s : State} {r : Fault} (hs : s.turn = .host) (h : s.hostMove = .fault r) :
    step s = .fault r := by
  simp only [step, hs, h]

/-! ## What an access leaves alone -/

/-- An access to one of the NBUS instances is to it as it stands, with nothing else changed but the script. -/
theorem State.accesses_of_getElem? {s : State} {n : Nat} {a : Access} {ops : List HostOp} {b : Inst} (ht : s.turn = .host)
    (hops : s.host = .access n a :: ops) (hb : s.insts[n]? = some b) :
    ∃ s', s.Accesses n a s' ∧ s'.inst = b ∧ s'.lower.length = n ∧ s'.insts = s.insts ∧ s'.turn = .host ∧ s'.host = ops ∧
      s'.seen = s.seen := by
  obtain ⟨hnone, hsome⟩ := State.focus_spec { s with host := ops } n
  have hlt : n < s.insts.length := (List.getElem?_eq_some_iff.mp hb).1
  obtain ⟨s', hfocus⟩ := Option.ne_none_iff_exists'.mp fun hn => absurd (hnone.mp hn) (Nat.not_le.mpr hlt)
  obtain ⟨hinsts, hinst, hlower, hturn, hhost, hseen⟩ := hsome s' hfocus
  exact ⟨s', ⟨ht, ops, hops, hfocus⟩, Option.some.inj (hinst.symm.trans hb), hlower, hinsts, hturn.trans ht, hhost, hseen⟩

/-- A step that is a host access leaves the instances beside the marked one as they were. -/
theorem State.Accesses.step_neighbours {s s' t : State} {n : Nat} {a : Access} (h : s.Accesses n a s')
    (hstep : step s = .next t) : t.lower = s'.lower ∧ t.upper = s'.upper := by
  have ht : s.turn = .host := h.1
  simp only [step, ht, h.hostMove] at hstep
  cases hmove : s'.access a with
  | command i u =>
    obtain ⟨rfl, -⟩ := State.access_command hmove
    simp only [hmove, exec_eq] at hstep
    cases hstep
    exact ⟨rfl, rfl⟩
  | go u =>
    simp only [hmove] at hstep
    cases hstep
    rcases State.access_go hmove with ⟨v, rfl⟩ | ⟨r, w, -, rfl⟩ | ⟨-, k, v, rfl⟩ | rfl <;> exact ⟨rfl, rfl⟩
  | fault r => simp [hmove] at hstep
  | refuse r => simp [hmove] at hstep

/-- With the same neighbours of the mark, the instances differ at the mark at most. -/
theorem State.insts_eq_set {s t : State} (hl : t.lower = s.lower) (hu : t.upper = s.upper) :
    t.insts = s.insts.set s.lower.length t.inst := by
  simp [State.insts, hl, hu]

/-- Settles O23: by number through `focus`, by host address through `holders`, which is a singleton exactly when one register block
holds the address. -/
theorem hostAccessReachesItsInstance : Obligations.HostAccessReachesItsInstance := by
  unfold Obligations.HostAccessReachesItsInstance
  intro s a ops ht
  simp only [← Inst.holds_iff]
  refine ⟨fun n b hops hb => ?number, fun n hops hn => ?noInstance, fun n b hops hb hlo hhi only => ?address,
    fun hops hnone => ?noBlock, fun m n c d hops hne hc hd hclo hchi hdlo hdhi => ?twoBlocks⟩
  case number =>
    obtain ⟨s', hacc, hinst, hlower, hinsts, hrest⟩ := State.accesses_of_getElem? ht hops hb
    refine ⟨⟨s', hacc, hinst, hlower, hinsts, hrest⟩, fun t hstep => ?_⟩
    obtain ⟨hl, hu⟩ := hacc.step_neighbours hstep
    exact ⟨hl ▸ hlower, hinsts ▸ hlower ▸ State.insts_eq_set hl hu⟩
  case noInstance =>
    exact step_of_hostMove_fault ht ((State.hostMove_of_access hops).trans (State.accessTo_of_no_instance a hn))
  case address =>
    have hbus : { s with host := ops }.accessBus a = { s with host := ops }.accessTo n (a.moveTo (a.off - b.cfg.base)) :=
      State.accessBus_of_unique_holder hb (Inst.holds_iff.mpr ⟨hlo, hhi⟩) only
    refine step_congr_hostMove ht ht ?_
    rw [State.hostMove_of_bus hops, hbus]
    cases a <;> rfl
  case noBlock =>
    exact step_of_hostMove_fault ht ((State.hostMove_of_bus hops).trans (State.accessBus_of_no_holder hnone))
  case twoBlocks =>
    have hcholds : c.holds a.off = true := Inst.holds_iff.mpr ⟨hclo, hchi⟩
    have hdholds : d.holds a.off = true := Inst.holds_iff.mpr ⟨hdlo, hdhi⟩
    exact step_of_hostMove_fault ht
      ((State.hostMove_of_bus hops).trans (State.accessBus_of_two_holders hne hc hd hcholds hdholds))

end Sys2Proof.Machine
end

section
/-! PROOFS. The invariant (O53): which updates of an `Inst` keep it, and that every command, every host access, the reset input and the
end of a tick are such updates. -/

namespace Sys2Proof.Machine

/-! ## Updates that keep `Inst.Inv` -/

/-- An update that writes nothing the sequencer works on and sets no bit of STATUS but CMD_LOST keeps the invariant. -/
theorem Inst.Inv.of_same_work {b c : Inst} (h : b.Inv) (cfg : c.cfg = b.cfg) (pin : c.pin = b.pin) (seq : c.seq = b.seq)
    (buf : c.buf = b.buf) (rxLen : c.rxLen = b.rxLen) (busy : c.status.busy = b.status.busy)
    (en : c.status.en = b.status.en) (done : b.status.done = false → c.status.done = false)
    (code : c.status.code = b.status.code) (stage : c.status.stage = b.status.stage) : c.Inv where
  cfg_wf := cfg ▸ h.cfg_wf
  buf_wf := buf ▸ h.buf_wf
  buf_inside := by rw [buf, cfg]; exact h.buf_inside
  cursor_le := by rw [seq, cfg]; exact h.cursor_le
  bit_le := seq ▸ h.bit_le
  status_legal := by rw [code, stage]; exact h.status_legal
  idle := by rw [busy, seq, pin]; exact h.idle
  busy := by
    intro hc
    obtain ⟨hen, hdone, hcode, hstage, hrx, op, w, todo, hop, hphase, htodo⟩ := h.busy (busy ▸ hc)
    have hknown : c.known op = b.known op := by simp only [Inst.known, cfg, pin, seq]
    exact ⟨en.trans hen, done hdone, code.trans hcode, stage.trans hstage, rxLen.trans hrx, op, w, todo,
      by rw [seq]; exact hop, by rw [seq]; exact hphase, hknown ▸ htodo⟩

/-- While no command runs the pin is released (R196). -/
theorem Inst.Inv.pin_released {b : Inst} (h : b.Inv) (free : b.status.busy = false) : b.pin = .released := by
  obtain ⟨-, -, hpin⟩ := h.idle free
  exact hpin

/-- While no command runs, an update that starts none and leaves the sequencer idle and the pin released keeps the invariant. -/
theorem Inst.Inv.of_idle {b c : Inst} (h : b.Inv) (free : b.status.busy = false) (cfg : c.cfg = b.cfg)
    (pin : c.pin = .released) (seq : c.seq = b.seq) (bufWf : c.buf.wf = true) (bufInside : ∀ x ∈ c.buf, x.1 < b.cfg.maxFrame)
    (legal : legalStatus c.status.code c.status.stage = true) (busy : c.status.busy = false) : c.Inv where
  cfg_wf := cfg ▸ h.cfg_wf
  buf_wf := bufWf
  buf_inside := cfg ▸ bufInside
  cursor_le := by rw [seq, cfg]; exact h.cursor_le
  bit_le := seq ▸ h.bit_le
  status_legal := legal
  idle := by
    obtain ⟨hphase, hop, -⟩ := h.idle free
    rw [seq]
    exact fun _ => ⟨hphase, hop, pin⟩
  busy := fun hc => absurd (busy.symm.trans hc) Bool.false_ne_true

theorem Inst.tick_inv {b : Inst} (h : b.Inv) : b.tick.Inv :=
  h.of_same_work rfl rfl rfl rfl rfl rfl rfl id rfl rfl

theorem Inst.writeReg_inv {b : Inst} (h : b.Inv) (r : Reg) (w : Word) : (b.writeReg r w).Inv := by
  cases r with
  | status =>
    have hdone (hd : b.status.done = false) : (b.writeReg .status w).status.done = false := by
      simp [Inst.writeReg, Status.hostWrite, Status.clear, hd]
    exact h.of_same_work rfl rfl rfl rfl rfl rfl rfl hdone rfl rfl
  | config | ctrl | cmd | addr | len | rxLen | reserved => exact h.of_same_work rfl rfl rfl rfl rfl rfl rfl id rfl rfl

/-- The host writes BUF while no command runs (R222). -/
theorem Inst.writeBuf_inv {b : Inst} (h : b.Inv) (free : b.status.busy = false) (k : Nat) (v : Byte) : (b.writeBuf k v).Inv :=
  h.of_idle free (by simp) (by simpa using h.pin_released free) (by simp) (Inst.writeBuf_buf_wf k v h.buf_wf)
    (Inst.writeBuf_inside k v h.buf_inside) (by simpa using h.status_legal) (by simpa using free)

/-! ## Reset -/

theorem Inst.initial_inv {c : Params} (h : c.wf = true) (num resets : Nat) : (Inst.initial c num resets).Inv where
  cfg_wf := h
  buf_wf := rfl
  buf_inside := fun _ hx => absurd hx List.not_mem_nil
  cursor_le := Nat.zero_le _
  bit_le := Nat.zero_le _
  status_legal := rfl
  idle := fun _ => ⟨rfl, rfl, rfl⟩
  busy := fun hb => absurd hb Bool.false_ne_true

theorem Inst.reset_inv {b : Inst} (h : b.Inv) : b.reset.Inv :=
  (Inst.initial_inv h.cfg_wf b.num (b.resets + 1)).of_same_work rfl rfl rfl rfl rfl rfl rfl id rfl rfl

/-! ## Commands -/

/-- SEND_FRAME's sequence is one its rule leads to from an idle line on, once its length fits BUF (R162). -/
theorem todoOk_sendFrameSteps {g : Known} (h : g.lenFits = true) : todoOk .sendFrame g sendFrameSteps = true := by
  simp [sendFrameSteps, todoOk, h, legalResult, SeqOp.isFrame, Site.receives, Micro.inByte, Micro.inPass, Micro.inLoop]

theorem todoOk_recvFrameSteps (g : Known) : todoOk .recvFrame g recvFrameSteps = true := by
  simp [recvFrameSteps, todoOk, legalResult, SeqOp.isFrame, Site.receives, Micro.inByte, Micro.inLoop, Micro.inPass]

theorem todoOk_wakeSteps (g : Known) (c : Params) : todoOk .wake g (wakeSteps c) = true := by
  simp [wakeSteps, todoOk, legalResult]

/-- RECOVER's Fast form touches no pin (R152), so the pin is released at its start. -/
theorem todoOk_recoverSteps {g : Known} (h : g.released = true) (c : Params) (p : Profile) :
    todoOk .recover g (recoverSteps c p) = true := by
  cases p <;> simp [recoverSteps, todoOk, legalResult, h]

/-- The length R162 lets SEND_FRAME launch with fits BUF. -/
theorem lmaxTx_le_maxFrame (c : Params) : lmaxTx c ≤ c.maxFrame := Nat.min_le_left _ _

/-- An accepted command starts from the results of the last one cleared (R160). -/
def Inst.cleared (b : Inst) : Inst :=
  { b with status := { b.status with done := false, code := .ok, stage := .none }, rxLen := 0#16 }

theorem Inst.accept_eq_go_cleared {b : Inst} (go : Inst → Inst) (free : b.status.busy = false) : b.accept go = go b.cleared :=
  Inst.accept_free go free

theorem Inst.cleared_inv {b : Inst} (h : b.Inv) (free : b.status.busy = false) : b.cleared.Inv :=
  h.of_idle free rfl (h.pin_released free) rfl h.buf_wf h.buf_inside rfl free

/-- A completion inside the CMD write keeps the invariant. -/
theorem Inst.completeNow_inv {b : Inst} (h : b.Inv) (free : b.status.busy = false) {c : Code} (legal : legalStatus c .none = true) :
    (b.completeNow c).Inv :=
  h.of_idle free rfl (h.pin_released free) rfl h.buf_wf h.buf_inside legal free

/-- INIT and DEINIT before their completion. -/
theorem Inst.release_setEn_inv {b : Inst} (h : b.Inv) (free : b.status.busy = false) (en : Bool) :
    { b.release with status := { b.status with en := en } }.Inv :=
  h.of_idle free rfl rfl rfl h.buf_wf h.buf_inside h.status_legal free

/-- A launch from cleared results, where the sequence is one the command's rule leads to. -/
theorem Inst.launch_inv {b : Inst} (h : b.cleared.Inv) (en : b.status.en = true) {op : SeqOp} {p : Profile} {steps : List Micro}
    (hsteps : todoOk op ((b.cleared.launch op p steps).known op) steps = true) : (b.cleared.launch op p steps).Inv where
  cfg_wf := h.cfg_wf
  buf_wf := h.buf_wf
  buf_inside := h.buf_inside
  cursor_le := h.cursor_le
  bit_le := h.bit_le
  status_legal := rfl
  idle := fun hb => absurd hb.symm Bool.false_ne_true
  busy := fun _ => ⟨en, rfl, rfl, rfl, rfl, op, _, steps, rfl, rfl, hsteps⟩

theorem Inst.runCommand_cleared_inv {b : Inst} (h : b.Inv) (free : b.status.busy = false) (i : Instr) :
    (b.cleared.runCommand i).Inv := by
  have hc : b.cleared.Inv := Inst.cleared_inv h free
  cases b.cleared.accepted i with
  | init _ heq | deinit _ heq => exact heq ▸ Inst.completeNow_inv (Inst.release_setEn_inv hc free _) free rfl
  | rejected heq | overrun heq => exact heq ▸ Inst.completeNow_inv hc free rfl
  | send p _ en len heq =>
    exact heq ▸ Inst.launch_inv hc en
      (todoOk_sendFrameSteps (decide_eq_true (Nat.le_trans len (lmaxTx_le_maxFrame _))))
  | recv p _ en heq => exact heq ▸ Inst.launch_inv hc en (todoOk_recvFrameSteps _)
  | wake p _ en heq => exact heq ▸ Inst.launch_inv hc en (todoOk_wakeSteps _ _)
  | recover p _ en heq =>
    exact heq ▸ Inst.launch_inv hc en (todoOk_recoverSteps (decide_eq_true (h.pin_released free)) _ _)

/-- A CMD write keeps the invariant: while BUSY it only sets CMD_LOST (R165), else its command runs (R160). -/
theorem Inst.accept_runCommand_inv {b : Inst} (h : b.Inv) (i : Instr) : (b.accept fun b => b.runCommand i).Inv := by
  cases hb : b.status.busy with
  | true => exact Inst.accept_busy _ hb ▸ h.of_same_work rfl rfl rfl rfl rfl rfl rfl id rfl rfl
  | false => exact Inst.accept_eq_go_cleared _ hb ▸ Inst.runCommand_cleared_inv h hb i

/-! ## `Inst.num`, which no operation changes -/

theorem Inst.writeReg_num (b : Inst) (r : Reg) (w : Word) : (b.writeReg r w).num = b.num := by
  cases r <;> rfl

theorem Inst.accept_runCommand_num (b : Inst) (i : Instr) : (b.accept fun b => b.runCommand i).num = b.num := by
  cases hb : b.status.busy with
  | true => exact Inst.accept_busy _ hb ▸ rfl
  | false =>
    rw [Inst.accept_eq_go_cleared _ hb]
    cases b.cleared.accepted i with
    | init _ heq | deinit _ heq | rejected heq | overrun heq | send _ _ _ _ heq | recv _ _ _ heq | wake _ _ _ heq
    | recover _ _ _ heq => exact heq ▸ rfl

/-! ## The machine -/

theorem State.Inv.of_insts_eq {s t : State} (h : s.Inv) (heq : t.insts = s.insts) : t.Inv :=
  ⟨heq ▸ h.insts, heq ▸ h.nums⟩

theorem State.inst_mem_insts (s : State) : s.inst ∈ s.insts := by simp [State.insts]

/-- Moving the mark changes none of the instances, so the invariant stays. -/
theorem State.Inv.of_focus {s f : State} {n : Nat} {ops : List HostOp} (h : s.Inv)
    (hf : { s with host := ops }.focus n = some f) : f.Inv :=
  h.of_insts_eq ((State.focus_spec _ n).2 f hf).1

/-- An update at the mark that keeps `Inst.Inv` and the number keeps the invariant of the machine. -/
theorem State.Inv.onInst {s : State} {f : Inst → Inst} (h : s.Inv) (hf : (f s.inst).Inv) (num : (f s.inst).num = s.inst.num) :
    (s.onInst f).Inv := by
  constructor
  · intro b hb
    rw [State.onInst_insts] at hb
    rcases List.mem_or_eq_of_mem_set hb with hb | rfl
    · exact h.insts b hb
    · exact hf
  · have hmap : (s.onInst f).insts.map Inst.num = s.insts.map Inst.num := by simp [State.insts, num]
    rw [hmap, h.nums, State.onInst_insts, List.length_set]

theorem State.Inv.endTick {s : State} (h : s.Inv) : s.endTick.Inv := by
  constructor
  · rw [State.endTick_insts]
    intro b hb
    obtain ⟨c, hc, rfl⟩ := List.mem_map.mp hb
    exact Inst.tick_inv (h.insts c hc)
  · have hnum : Inst.num ∘ Inst.tick = Inst.num := rfl
    rw [State.endTick_insts, List.map_map, List.length_map, hnum, h.nums]

theorem State.Inv.sequencerMove {s : State} (h : s.Inv) : s.sequencerMove.Inv := by
  rcases s.sequencerMove_cases with ⟨m, k, hdue, heq⟩ | ⟨-, a, upper, hup, heq⟩ | ⟨-, -, heq⟩
  · exact heq ▸ h.onInst (Inst.perform_inv (h.insts _ s.inst_mem_insts) hdue) (s.inst.perform_sameOutside m k).num
  · exact heq ▸ h.of_insts_eq (by simp [State.insts, hup])
  · exact heq ▸ h.of_insts_eq rfl

/-- Settles O53: each way a step can go (`StepTo`) is a move of the sequencer, the end of a tick, a change of the host's script alone, or
an update at the mark that keeps `Inst.Inv` and the number. -/
theorem stepKeepsInvariant : Obligations.StepKeepsInvariant := by
  unfold Obligations.StepKeepsInvariant
  intro s t h hstep
  cases step_cases hstep with
  | sequencer => exact h.sequencerMove
  | tick _ ops seen => exact State.Inv.endTick (h.of_insts_eq rfl)
  | expand => exact h.of_insts_eq rfl
  | ignored _ n ops f hf => exact h.of_focus hf
  | answer _ n ops f v hf => exact (h.of_focus hf).of_insts_eq rfl
  | command _ n ops f i hf =>
    have hfi := h.of_focus hf
    exact hfi.onInst (Inst.accept_runCommand_inv (hfi.insts _ f.inst_mem_insts) i) (f.inst.accept_runCommand_num i)
  | writeReg _ n ops f r w hf =>
    have hfi := h.of_focus hf
    exact hfi.onInst (Inst.writeReg_inv (hfi.insts _ f.inst_mem_insts) r w) (f.inst.writeReg_num r w)
  | writeBuf _ n ops f k v hf free =>
    have hfi := h.of_focus hf
    exact hfi.onInst (Inst.writeBuf_inv (hfi.insts _ f.inst_mem_insts) free k v) (f.inst.writeBuf_num k v)
  | reset _ n ops f hf =>
    have hfi := h.of_focus hf
    exact hfi.onInst (Inst.reset_inv (hfi.insts _ f.inst_mem_insts)) rfl

end Sys2Proof.Machine
end

section
/-! PROOFS. Reset (O5, O7) and the end of a tick (O10). -/

namespace Sys2Proof.Machine

/-! ## Right after reset -/

/-- The instances right after reset, in the order of their numbers. -/
theorem State.reset_insts :
    State.reset.insts = (List.range Config.nbus).map fun n => Inst.initial (Config.params n) n 0 := by
  simp [State.insts, State.reset, Config.nbus, List.range_succ_eq_map, Function.comp_def]

theorem State.reset_nums : State.reset.insts.map Inst.num = List.range Config.nbus := by
  simp [State.reset_insts, Inst.initial, Function.comp_def]

theorem State.reset_insts_length : State.reset.insts.length = Config.nbus := by
  simp [State.reset_insts]

theorem State.mem_reset_insts {b : Inst} (h : b ∈ State.reset.insts) : ∃ n, Inst.initial (Config.params n) n 0 = b := by
  rw [State.reset_insts] at h
  obtain ⟨n, -, hn⟩ := List.mem_map.mp h
  exact ⟨n, hn⟩

/-- `Params.bounded` brings every configuration within the constraints of R7 (log entry 2). -/
theorem Params.bounded_wf (c : Params) : c.bounded.wf = true := by
  unfold Params.bounded Params.wf Timing.bounded Timing.wf
  simp only [Bool.and_eq_true, decide_eq_true_iff]
  omega

/-- A byte of BUF that nothing has written since reset reads as its free value (R36). -/
theorem Inst.readBuf_initial (c : Params) (num resets k : Nat) :
    (Inst.initial c num resets).readBuf k = Config.bufDraw num resets k := rfl

/-- After reset every register but CONFIG reads as zero (R42). -/
theorem Inst.readReg_initial (c : Params) (num resets : Nat) {r : Reg} (h : r ≠ .config) :
    (Inst.initial c num resets).readReg r = 0#32 := by
  cases r with
  | config => exact absurd rfl h
  | status => exact (by decide : Status.initial.word = 0#32)
  | ctrl | cmd | addr | len | rxLen | reserved =>
    simp [Inst.readReg, ctrlWord, addrWord, lenWord, rxLenWord, Inst.initial]

/-- Settles O5: the instances are `Inst.initial`, whose fields are the values of R42's table. -/
theorem resetLeavesTableValues : Obligations.ResetLeavesTableValues := by
  unfold Obligations.ResetLeavesTableValues
  refine ⟨State.reset_insts_length, State.reset_nums, fun b hb => ?_⟩
  obtain ⟨n, rfl⟩ := State.mem_reset_insts hb
  have zero {r : Reg} (h : r ≠ .config) := Inst.readReg_initial (Config.params n) n 0 h
  exact ⟨rfl, rfl, rfl, zero nofun, zero nofun, zero nofun, zero nofun, zero nofun, zero nofun,
    Inst.readBuf_initial _ n 0, rfl, rfl⟩

/-- Settles O7: every `Inst.initial` meets the invariant whose configuration is within R7's constraints. -/
theorem resetMeetsInvariant : Obligations.ResetMeetsInvariant := by
  unfold Obligations.ResetMeetsInvariant
  constructor
  · intro b hb
    obtain ⟨n, rfl⟩ := State.mem_reset_insts hb
    exact Inst.initial_inv (Params.bounded_wf _) n 0
  · rw [State.reset_nums, State.reset_insts_length]

/-! ## The end of a tick -/

/-- In the host's turn, an empty script and `tick` end the tick. -/
theorem State.hostMove_endTick {s : State} (h : s.host = [] ∨ ∃ ops, s.host = .tick :: ops) :
    s.hostMove = .go { s with host := s.host.tail }.endTick := by
  rcases h with h | ⟨ops, h⟩
  · cases s; subst h; rfl
  · simp only [State.hostMove, h, List.tail_cons]

theorem step_of_hostMove_go {s t : State} (hs : s.turn = .host) (h : s.hostMove = .go t) : step s = .next t := by
  simp only [step, hs, h]

/-- Settles O10: the host's turn ends with `State.endTick`, which is `Inst.tick` on all instances. -/
theorem tickAdvancesEveryInstance : Obligations.TickAdvancesEveryInstance := by
  unfold Obligations.TickAdvancesEveryInstance
  intro s hturn hhost
  exact ⟨_, step_of_hostMove_go hturn (State.hostMove_endTick hhost), rfl, rfl, rfl, rfl, State.endTick_insts _⟩

end Sys2Proof.Machine
end

section
/-! PROOFS. Host accesses to the registers and to BUF: reads (O24), writes (O25, O26, O27), and the layout of STATUS (O28). -/

namespace Sys2Proof.Machine

/-! ## What an access addresses (R54) -/

theorem target_register (c : Params) {off : Nat} (hlt : off < 0x100) (halign : off % 4 = 0) :
    target c off 32 = .reg (regAt off) := if_pos ⟨rfl, hlt, halign⟩

theorem target_byte (c : Params) {off : Nat} (hlo : 0x100 ≤ off) (hhi : off ≤ 0xFFF) :
    target c off 8 = if off < 0x100 + c.maxFrame then .buf (off - 0x100) else .hole := by
  have hiff : off - 0x100 < c.maxFrame ↔ off < 0x100 + c.maxFrame := by omega
  simp [target, hlo, hhi, hiff]

theorem target_hole {c : Params} {off : Nat} (hlo : 0x100 + c.maxFrame ≤ off) (hhi : off ≤ 0xFFF) :
    target c off 8 = .hole := by
  rw [target_byte c (Nat.le_trans (Nat.le_add_right _ _) hlo) hhi, if_neg (Nat.not_lt.mpr hlo)]

theorem target_buf {c : Params} {k : Nat} (hk : k < c.maxFrame) (hmax : c.maxFrame ≤ 2047) :
    target c (0x100 + k) 8 = .buf k := by
  rw [target_byte c (Nat.le_add_right _ _) (by omega), if_pos (Nat.add_lt_add_left hk _), Nat.add_sub_cancel_left]

/-! ## What an access does, by what it addresses -/

theorem State.access_read_reg {s : State} {off width : Nat} {r : Reg} (h : target s.inst.cfg off width = .reg r) :
    s.access (.read off width) = .go (s.answer (s.inst.readReg r)) := by
  simp only [State.access, h]

theorem State.access_read_buf {s : State} {off width k : Nat} (h : target s.inst.cfg off width = .buf k)
    (free : s.inst.status.busy = false) : s.access (.read off width) = .go (s.answer (0#24 ++ s.inst.readBuf k)) := by
  simp [State.access, h, free]

theorem State.access_read_hole {s : State} {off width : Nat} (h : target s.inst.cfg off width = .hole) :
    s.access (.read off width) = .go (s.answer 0#32) := by
  simp only [State.access, h]

theorem State.access_write_reg {s : State} {off width : Nat} {r : Reg} (w : Word) (h : target s.inst.cfg off width = .reg r)
    (hr : r ≠ .cmd) : s.access (.write off width w) = .go (s.onInst fun b => b.writeReg r w) := by
  simp only [State.access, h]

theorem State.access_write_buf {s : State} {off width k : Nat} (w : Word) (h : target s.inst.cfg off width = .buf k)
    (free : s.inst.status.busy = false) :
    s.access (.write off width w) = .go (s.onInst fun b => b.writeBuf k (w.extractLsb' 0 8)) := by
  simp [State.access, h, free]

theorem State.access_write_hole {s : State} {off width : Nat} (w : Word) (h : target s.inst.cfg off width = .hole) :
    s.access (.write off width w) = .go s := by
  simp only [State.access, h]

/-- A step whose access goes on is that access. -/
theorem State.Accesses.step_of_go {s s' t : State} {n : Nat} {a : Access} (h : s.Accesses n a s') (hgo : s'.access a = .go t) :
    step s = .next t :=
  step_of_hostMove_go h.1 (h.hostMove.trans hgo)

/-- A 32-bit write to a register other than CMD is the write of its field. -/
theorem State.Accesses.step_writeReg {s s' : State} {n off : Nat} {w : Word} (h : s.Accesses n (.write off 32 w) s')
    (hlt : off < 0x100) (halign : off % 4 = 0) (hcmd : regAt off ≠ .cmd) :
    step s = .next (s'.onInst fun b => b.writeReg (regAt off) w) :=
  h.step_of_go (State.access_write_reg w (target_register _ hlt halign) hcmd)

/-! ## Reads -/

/-- The registers by their offsets (R26 to R37). -/
theorem Inst.readReg_regAt (b : Inst) (off : Nat) :
    b.readReg (regAt off) =
      if off = 0x000 then configWord b.cfg else if off = 0x004 then ctrlWord b else if off = 0x00C then addrWord b
      else if off = 0x010 then lenWord b else if off = 0x014 then b.status.word else if off = 0x018 then rxLenWord b
      else 0#32 := by
  simp only [regAt, apply_ite b.readReg]
  by_cases hcmd : off = 0x008
  · simp [hcmd, Inst.readReg]
  · simp only [hcmd, Inst.readReg, if_false]

/-- Settles O24: by what the offset addresses, a register, a byte of BUF or a byte beyond it. -/
theorem readsAnswerAndChangeNothing : Obligations.ReadsAnswerAndChangeNothing := by
  unfold Obligations.ReadsAnswerAndChangeNothing
  intro s s' n off
  have hole (hlo : 0x100 + s'.inst.cfg.maxFrame ≤ off) (hhi : off ≤ 0xFFF) (hacc : s.Accesses n (.read off 8) s') :
      step s = .next (s'.answer 0#32) := hacc.step_of_go (State.access_read_hole (target_hole hlo hhi))
  refine ⟨fun hlt halign hacc => ?register, fun hlo hhi free hacc => ?byte, hole⟩
  case register =>
    rw [hacc.step_of_go (State.access_read_reg (target_register _ hlt halign)), Inst.readReg_regAt]
    rfl
  case byte =>
    by_cases hin : off < 0x100 + s'.inst.cfg.maxFrame
    · have htarget : target s'.inst.cfg off 8 = .buf (off - 0x100) := (target_byte _ hlo hhi).trans (if_pos hin)
      rw [if_pos hin]
      exact hacc.step_of_go (State.access_read_buf htarget free)
    · rw [if_neg hin]
      exact hole (Nat.not_lt.mp hin) hhi hacc

/-! ## Writes -/

/-- CONFIG, and the offsets from RXLEN on, hold nothing a host write changes (R27, R35, R37). -/
theorem regAt_readOnly {off : Nat} (h : off = 0x000 ∨ 0x018 ≤ off) :
    regAt off = .config ∨ regAt off = .rxLen ∨ regAt off = .reserved := by
  rcases h with rfl | hle
  · exact .inl rfl
  · rcases Nat.eq_or_lt_of_le hle with rfl | hlt
    · exact .inr (.inl rfl)
    · refine .inr (.inr ?_)
      unfold regAt
      repeat rw [if_neg (by omega)]

theorem Inst.writeReg_readOnly (b : Inst) {r : Reg} (h : r = .config ∨ r = .rxLen ∨ r = .reserved) (w : Word) :
    b.writeReg r w = b := by
  rcases h with rfl | rfl | rfl <;> rfl

/-- Settles O25: `writeReg` at the register of each offset, and a byte beyond BUF. -/
theorem registerWritesStoreOrAreIgnored : Obligations.RegisterWritesStoreOrAreIgnored := by
  unfold Obligations.RegisterWritesStoreOrAreIgnored
  intro s s' n off w
  refine ⟨fun hacc => hacc.step_writeReg (by decide) rfl nofun, fun hacc => hacc.step_writeReg (by decide) rfl nofun,
    fun hacc => hacc.step_writeReg (by decide) rfl nofun, fun hlt halign hoff hacc => ?readOnly, fun hlo hhi hacc => ?hole⟩
  case readOnly =>
    have hreg := regAt_readOnly hoff
    have hcmd : regAt off ≠ .cmd := by rcases hreg with h | h | h <;> rw [h] <;> exact nofun
    rw [hacc.step_writeReg hlt halign hcmd, State.onInst, Inst.writeReg_readOnly _ hreg]
  case hole => exact hacc.step_of_go (State.access_write_hole w (target_hole hlo hhi))

/-- Settles O26: a STATUS write is `Status.clear` at bits 1 and 3. -/
theorem statusWriteOnlyClears : Obligations.StatusWriteOnlyClears := by
  unfold Obligations.StatusWriteOnlyClears
  intro s s' n w hacc
  have hclear (old bit : Bool) : (if bit then false else old) = (old && !bit) := by cases bit <;> simp
  rw [hacc.step_writeReg (by decide) rfl nofun, hclear, hclear]
  rfl

theorem Inst.writeBuf_of_lt {b : Inst} {k : Nat} (v : Byte) (hk : k < b.cfg.maxFrame) :
    b.writeBuf k v = { b with buf := b.buf.write k v } := if_pos hk

/-- Settles O27: the memory is `Memory.write`, with `Memory.write_wf` and the read law of BUF. -/
theorem bufWriteStoresOneByte : Obligations.BufWriteStoresOneByte := by
  unfold Obligations.BufWriteStoresOneByte
  intro s s' n k w free hk hmax hwf hacc
  have hwrite := Inst.writeBuf_of_lt (w.extractLsb' 0 8) hk
  refine ⟨s'.inst.buf.write k (w.extractLsb' 0 8), ?_, Memory.write_wf k _ hwf, fun j => ?_⟩
  · rw [hacc.step_of_go (State.access_write_buf w (target_buf hk hmax) free), State.onInst, hwrite]
  · rw [← hwrite, Inst.readBuf_writeBuf _ j hk hwf]

/-! ## The layout of STATUS (R32) -/

/-- The bits of the STATUS word, from the field that holds each (R32). -/
theorem Status.word_getLsbD (s : Status) (i : Nat) :
    s.word.getLsbD i =
      if i < 1 then (BitVec.ofBool s.busy).getLsbD i else if i < 2 then (BitVec.ofBool s.done).getLsbD (i - 1)
      else if i < 3 then (BitVec.ofBool s.en).getLsbD (i - 2) else if i < 4 then (BitVec.ofBool s.cmdLost).getLsbD (i - 3)
      else if i < 8 then s.code.num.getLsbD (i - 4) else if i < 11 then s.stage.num.getLsbD (i - 8)
      else false := by
  have below (a c : Nat) : i - a < c + 1 ↔ i < a + c + 1 := by omega
  change BitVec.getLsbD (w := 21 + 3 + 4 + 1 + 1 + 1 + 1) s.word i = _
  rw [Status.word]
  iterate 6 rw [BitVec.getLsbD_append]
  simp only [BitVec.getLsbD_zero, Nat.sub_sub, below _ 0, below _ 2, below _ 3, Nat.reduceAdd]

theorem Status.word_code (s : Status) : s.word.extractLsb' 4 4 = s.code.num := by
  ext i hi
  rw [BitVec.getElem_extractLsb', Status.word_getLsbD]
  iterate 4 rw [if_neg (by omega)]
  rw [if_pos (by omega), Nat.add_sub_cancel_left, BitVec.getLsbD_eq_getElem hi]

theorem Status.word_stage (s : Status) : s.word.extractLsb' 8 3 = s.stage.num := by
  ext i hi
  rw [BitVec.getElem_extractLsb', Status.word_getLsbD]
  iterate 5 rw [if_neg (by omega)]
  rw [if_pos (by omega), Nat.add_sub_cancel_left, BitVec.getLsbD_eq_getElem hi]

theorem Status.word_reserved (s : Status) : s.word.extractLsb' 11 21 = 0#21 := by
  ext i hi
  rw [BitVec.getElem_extractLsb', Status.word_getLsbD, BitVec.getElem_zero]
  iterate 6 rw [if_neg (by omega)]

/-- Settles O28: bits 0 to 3 one by one, the fields by their numbers. -/
theorem statusWordLayout : Obligations.StatusWordLayout := by
  unfold Obligations.StatusWordLayout
  intro s
  refine ⟨?busy, ?done, ?en, ?cmdLost, s.word_code.trans ?code, s.word_stage.trans ?stage, s.word_reserved⟩
  case code => cases s.code <;> rfl
  case stage => cases s.stage <;> rfl
  all_goals rw [Status.word_getLsbD]; simp

end Sys2Proof.Machine
end

section
/-! PROOFS. The interrupt output (O29): IRQ wherever a command ends or starts, and after the host's writes to CTRL and STATUS. -/

namespace Sys2Proof.Machine

@[simp] theorem Inst.complete_irq (b : Inst) : b.complete.irq = b.ie := Bool.and_true _

@[simp] theorem Inst.completeNow_irq (b : Inst) (c : Code) : (b.completeNow c).irq = b.ie := Bool.and_true _

@[simp] theorem Inst.launch_irq (b : Inst) (op : SeqOp) (p : Profile) (steps : List Micro) :
    (b.launch op p steps).irq = b.irq := rfl

@[simp] theorem Inst.cleared_irq (b : Inst) : b.cleared.irq = false := Bool.and_false _

/-- LMAX_TX, written out (R9). -/
theorem lmaxTx_eq (c : Params) : lmaxTx c = min c.maxFrame (if c.lenWidth = .one then 255 else 2047) := by
  cases h : c.lenWidth <;> simp [lmaxTx, lmaxPrefix, h]

/-! ## A command, accepted or lost -/

theorem exec_of_free {s : State} (i : Instr) (free : s.inst.status.busy = false) :
    exec i s = .next { s with inst := s.inst.cleared.runCommand i } := by
  rw [exec_eq, State.onInst, Inst.accept_eq_go_cleared _ free]

theorem exec_of_busy {s : State} (i : Instr) (busy : s.inst.status.busy = true) :
    exec i s = .next { s with inst := { s.inst with status := { s.inst.status with cmdLost := true } } } := by
  rw [exec_eq, State.onInst, Inst.accept_busy _ busy]

/-- A sequenced command while EN = 0 is rejected (R160 case 3, R169). -/
theorem Inst.runCommand_of_disabled {b : Inst} {i : Instr} {p : Profile} (off : b.status.en = false)
    (hi : i = .sendFrame p ∨ i = .recvFrame p ∨ i = .wake p ∨ i = .recover p) :
    b.runCommand i = b.completeNow .commandRejected := by
  rcases hi with rfl | rfl | rfl | rfl <;> rw [Inst.runCommand, Inst.whenEnabled_off _ off]

/-- An overlong SEND_FRAME is rejected while EN = 0, and else overruns (R160 cases 3 and 4, R162). -/
theorem Inst.runCommand_of_overlong {b : Inst} (p : Profile) (long : lmaxTx b.cfg < b.txLen.toNat) :
    ∃ c, b.runCommand (.sendFrame p) = b.completeNow c := by
  cases en : b.status.en with
  | false => exact ⟨_, Inst.runCommand_of_disabled en (.inl rfl)⟩
  | true => exact ⟨.bufferOverrun, by rw [Inst.runCommand, Inst.whenEnabled_on _ en, if_pos long]⟩

/-- A sequenced command while EN = 1 is launched, SEND_FRAME where its length is within LMAX_TX (R160 case 6). -/
theorem Inst.runCommand_of_enabled {b : Inst} {i : Instr} {p : Profile} (on : b.status.en = true)
    (hi : (i = .sendFrame p ∧ b.txLen.toNat ≤ lmaxTx b.cfg) ∨ i = .recvFrame p ∨ i = .wake p ∨ i = .recover p) :
    ∃ op steps, b.runCommand i = b.launch op p steps := by
  rcases hi with ⟨rfl, len⟩ | rfl | rfl | rfl
  · exact ⟨.sendFrame, sendFrameSteps, by rw [Inst.runCommand, Inst.whenEnabled_on _ on, if_neg (Nat.not_lt.mpr len)]⟩
  · exact ⟨.recvFrame, recvFrameSteps, by rw [Inst.runCommand, Inst.whenEnabled_on _ on]⟩
  · exact ⟨.wake, wakeSteps b.cfg, by rw [Inst.runCommand, Inst.whenEnabled_on _ on]⟩
  · exact ⟨.recover, recoverSteps b.cfg p, by rw [Inst.runCommand, Inst.whenEnabled_on _ on]⟩

/-- Settles O29: IRQ is IE after whatever completes a command, 0 after a launch, which clears DONE, and follows IE and DONE where the
host writes them. -/
theorem interruptFollowsCompletion : Obligations.InterruptFollowsCompletion := by
  unfold Obligations.InterruptFollowsCompletion
  simp only [← lmaxTx_eq]
  refine ⟨fun b _ => b.complete_irq, fun s i p free hi => ⟨_, exec_of_free i free, ?atOnce⟩,
    fun s i busy => ⟨_, exec_of_busy i busy, rfl⟩,
    fun s s' n w hdone hie hacc => ⟨_, hacc.step_writeReg (by decide) rfl nofun, ?enableIE⟩,
    fun s s' n w hclr hacc => ⟨_, hacc.step_writeReg (by decide) rfl nofun, ?clearDone⟩,
    fun s t i p hi free on hexec => ?launch⟩
  case atOnce =>
    show (s.inst.cleared.runCommand i).irq = s.inst.ie
    rcases hi with (rfl | rfl) | (rfl | rfl | ⟨op, rfl⟩) | ⟨off, hi⟩ | ⟨rfl, long⟩
    case inr.inr.inl =>
      have hreject := Inst.runCommand_of_disabled (b := s.inst.cleared) off hi
      exact (congrArg Inst.irq hreject).trans (Inst.completeNow_irq _ _)
    case inr.inr.inr =>
      obtain ⟨c, hc⟩ := Inst.runCommand_of_overlong (b := s.inst.cleared) p long
      exact (congrArg Inst.irq hc).trans (Inst.completeNow_irq _ c)
    all_goals exact Inst.completeNow_irq _ _
  case enableIE => exact Bool.and_eq_true_iff.mpr ⟨hie, hdone⟩
  case clearDone =>
    show (s'.inst.ie && (s'.inst.status.done && !w.getLsbD 1)) = false
    simp [hclr]
  case launch =>
    obtain ⟨op, steps, hlaunch⟩ := Inst.runCommand_of_enabled (b := s.inst.cleared) on hi
    rw [exec_of_free i free, hlaunch] at hexec
    cases hexec
    exact (s.inst.cleared.launch_irq op p steps).trans s.inst.cleared_irq

end Sys2Proof.Machine
end

section
/-! PROOFS. What every command leaves unchanged (O21). -/

namespace Sys2Proof.Machine

/-- An accepted command ends inside the CMD write, INIT and DEINIT with EN written and the pin released, or it is launched. -/
theorem Inst.runCommand_cases (b : Inst) (i : Instr) :
    (∃ en c, (i = .init ∨ i = .deinit) ∧
      b.runCommand i = { b.release with status := { b.status with en := en } }.completeNow c) ∨
    (∃ c, b.runCommand i = b.completeNow c) ∨ ∃ op p steps, b.runCommand i = b.launch op p steps := by
  cases b.accepted i with
  | init hi heq => exact .inl ⟨true, .ok, .inl hi, heq⟩
  | deinit hi heq => exact .inl ⟨false, .ok, .inr hi, heq⟩
  | rejected heq | overrun heq => exact .inr (.inl ⟨_, heq⟩)
  | send _ _ _ _ heq | recv _ _ _ heq | wake _ _ _ heq | recover _ _ _ heq => exact .inr (.inr ⟨_, _, _, heq⟩)

/-- A command writes nothing but the pin, STATUS, RXLEN and the sequencer's state at the mark; a command other than INIT and DEINIT,
which release the pin, keeps the pin and EN. -/
theorem exec_writes {i : Instr} {s t : State} (h : exec i s = .next t) :
    ∃ pin status rxLen seq,
      t = { s with inst := { s.inst with pin := pin, status := status, rxLen := rxLen, seq := seq } } ∧
      (pin = s.inst.pin ∧ status.en = s.inst.status.en ∨ (i = .init ∨ i = .deinit) ∧ pin = .released) ∧
      (s.inst.status.busy = false → status.cmdLost = s.inst.status.cmdLost) := by
  cases hbusy : s.inst.status.busy with
  | true =>
    cases (exec_of_busy i hbusy).symm.trans h
    exact ⟨_, _, _, _, rfl, .inl ⟨rfl, rfl⟩, nofun⟩
  | false =>
    cases (exec_of_free i hbusy).symm.trans h
    rcases s.inst.cleared.runCommand_cases i with ⟨en, c, hi, heq⟩ | ⟨c, heq⟩ | ⟨op, p, steps, heq⟩ <;> rw [heq]
    · exact ⟨_, _, _, _, rfl, .inr ⟨hi, rfl⟩, fun _ => rfl⟩
    · exact ⟨_, _, _, _, rfl, .inl ⟨rfl, rfl⟩, fun _ => rfl⟩
    · exact ⟨_, _, _, _, rfl, .inl ⟨rfl, rfl⟩, fun _ => rfl⟩

/-- Settles O21: from `exec_writes`, since a released pin does not drive LOW. -/
theorem commandFrame : Obligations.CommandFrame := by
  unfold Obligations.CommandFrame
  intro i s t hexec
  obtain ⟨pin, status, rxLen, seq, rfl, hpin, hlost⟩ := exec_writes hexec
  refine ⟨rfl, rfl, rfl, rfl, rfl, rfl, rfl, rfl, rfl, rfl, rfl, fun _ => rfl, rfl, rfl, rfl,
    fun hinit hdeinit => ?pinAndEn, hlost, fun hlow => ?drivesLow⟩
  case pinAndEn => exact hpin.resolve_right fun h => h.1.elim hinit hdeinit
  case drivesLow =>
    rcases hpin with ⟨rfl, -⟩ | ⟨-, rfl⟩
    · exact hlow
    · exact absurd hlow Bool.false_ne_true

end Sys2Proof.Machine
end

section
/-! PROOFS. Which host accesses are refused (O22), and that an access or a reset leaves the other instances alone (O31). -/

namespace Sys2Proof.Machine

/-! ## Which accesses R54 lists, and what they address -/

theorem Access.legal_iff {a : Access} :
    a.legal = true ↔ (a.width = 32 ∧ a.off < 0x100 ∧ a.off % 4 = 0) ∨ (a.width = 8 ∧ 0x100 ≤ a.off ∧ a.off ≤ 0xFFF) := by
  simp [Access.legal, and_assoc]

theorem Access.inBuf_iff {a : Access} {c : Params} : a.inBuf c = true ↔ 0x100 ≤ a.off ∧ a.off < 0x100 + c.maxFrame := by
  simp [Access.inBuf]

theorem target_of_not_legal (c : Params) {a : Access} (h : a.legal = false) : target c a.off a.width = .illegal := by
  have hnot := mt Access.legal_iff.mpr (Bool.eq_false_iff.mp h)
  rw [not_or] at hnot
  rw [target, if_neg hnot.1, if_neg hnot.2]

theorem target_of_inBuf {c : Params} {a : Access} (legal : a.legal = true) (h : a.inBuf c = true) :
    target c a.off a.width = .buf (a.off - 0x100) := by
  obtain ⟨hlo, hhi⟩ := Access.inBuf_iff.mp h
  rcases Access.legal_iff.mp legal with ⟨-, hreg, -⟩ | ⟨hwidth, -, hmax⟩
  · exact absurd hreg (Nat.not_lt.mpr hlo)
  · rw [hwidth, target_byte c hlo hmax, if_pos hhi]

theorem target_of_not_inBuf {c : Params} {a : Access} (legal : a.legal = true) (h : a.inBuf c = false) :
    (∃ r, target c a.off a.width = .reg r) ∨ target c a.off a.width = .hole := by
  rcases Access.legal_iff.mp legal with ⟨hwidth, hlt, halign⟩ | ⟨hwidth, hlo, hmax⟩
  · exact .inl ⟨_, hwidth ▸ target_register c hlt halign⟩
  · have hhi : ¬a.off < 0x100 + c.maxFrame := fun hlt => Bool.eq_false_iff.mp h (Access.inBuf_iff.mpr ⟨hlo, hlt⟩)
    exact .inr (by rw [hwidth, target_byte c hlo hmax, if_neg hhi])

/-! ## An access that is refused, and one that goes on -/

theorem State.access_illegal {s : State} {a : Access} (h : target s.inst.cfg a.off a.width = .illegal) :
    s.access a = .refuse (.illegalAccess a) := by
  cases a <;> simp only [Access.off, Access.width] at h <;> simp only [State.access, h]

theorem State.access_buf_busy {s : State} {a : Access} {k : Nat} (h : target s.inst.cfg a.off a.width = .buf k)
    (busy : s.inst.status.busy = true) : s.access a = .refuse (.bufWhileBusy a) := by
  cases a <;> simp only [Access.off, Access.width] at h <;> simp [State.access, h, busy]

theorem State.access_write_cmd {s : State} {off width : Nat} (w : Word) (h : target s.inst.cfg off width = .reg .cmd) :
    s.access (.write off width w) = .command (decode w) s := by
  simp only [State.access, h]

/-- An access that is neither refused nor a fault. -/
def HostMove.GoesOn (m : HostMove) : Prop := (∃ t, m = .go t) ∨ ∃ i t, m = .command i t

theorem State.access_reg_goesOn {s : State} {a : Access} {r : Reg} (h : target s.inst.cfg a.off a.width = .reg r) :
    (s.access a).GoesOn := by
  cases a with
  | read off width => exact .inl ⟨_, State.access_read_reg h⟩
  | write off width w =>
    by_cases hr : r = .cmd
    · exact .inr ⟨_, _, State.access_write_cmd w (hr ▸ h)⟩
    · exact .inl ⟨_, State.access_write_reg w h hr⟩

theorem State.access_buf_goesOn {s : State} {a : Access} {k : Nat} (h : target s.inst.cfg a.off a.width = .buf k)
    (free : s.inst.status.busy = false) : (s.access a).GoesOn := by
  cases a with
  | read off width => exact .inl ⟨_, State.access_read_buf h free⟩
  | write off width w => exact .inl ⟨_, State.access_write_buf w h free⟩

theorem State.access_hole_goesOn {s : State} {a : Access} (h : target s.inst.cfg a.off a.width = .hole) :
    (s.access a).GoesOn := by
  cases a with
  | read off width => exact .inl ⟨_, State.access_read_hole h⟩
  | write off width w => exact .inl ⟨_, State.access_write_hole w h⟩

theorem State.access_legal_goesOn {s : State} {a : Access} (legal : a.legal = true)
    (h : s.inst.status.busy = false ∨ a.inBuf s.inst.cfg = false) : (s.access a).GoesOn := by
  cases hin : a.inBuf s.inst.cfg with
  | true => exact State.access_buf_goesOn (target_of_inBuf legal hin) (h.resolve_right (by simp [hin]))
  | false =>
    rcases target_of_not_inBuf legal hin with ⟨r, hreg⟩ | hhole
    · exact State.access_reg_goesOn hreg
    · exact State.access_hole_goesOn hhole

/-! ## The step -/

theorem State.Accesses.step_of_refuse {s s' : State} {n : Nat} {a : Access} {r : Refusal} (h : s.Accesses n a s')
    (hr : s'.access a = .refuse r) : step s = .refused r := by
  simp only [step, h.1, h.hostMove, hr]

theorem State.Accesses.step_of_command {s s' u : State} {n : Nat} {a : Access} {i : Instr} (h : s.Accesses n a s')
    (hcmd : s'.access a = .command i u) : step s = exec i u := by
  simp only [step, h.1, h.hostMove, hcmd]

theorem State.Accesses.step_of_goesOn {s s' : State} {n : Nat} {a : Access} (h : s.Accesses n a s')
    (hgo : (s'.access a).GoesOn) : ∃ t, step s = .next t := by
  rcases hgo with ⟨t, ht⟩ | ⟨i, t, ht⟩
  · exact ⟨t, h.step_of_go ht⟩
  · exact ⟨_, (h.step_of_command ht).trans (exec_eq i t)⟩

/-- Settles O22: by what the access addresses (`target`). -/
theorem protocolViolationIsRefused : Obligations.ProtocolViolationIsRefused := by
  unfold Obligations.ProtocolViolationIsRefused
  intro s s' n a hacc _
  exact ⟨fun illegal => hacc.step_of_refuse (State.access_illegal (target_of_not_legal _ illegal)),
    fun legal busy hin => hacc.step_of_refuse (State.access_buf_busy (target_of_inBuf legal hin) busy),
    fun legal h => hacc.step_of_goesOn (State.access_legal_goesOn legal h)⟩

/-! ## The other instances -/

/-- The reset input changes only the one of the instances that it names. -/
theorem step_reset_insts {s t : State} {n : Nat} {ops : List HostOp} (hturn : s.turn = .host) (hops : s.host = .reset n :: ops)
    (hstep : step s = .next t) : ∃ b, t.insts = s.insts.set n b := by
  cases hfocus : { s with host := ops }.focus n with
  | none =>
    have hmove : s.hostMove = .fault (.noInstance n) := by simp only [State.hostMove, hops, hfocus]
    exact absurd ((step_of_hostMove_fault hturn hmove).symm.trans hstep) nofun
  | some f =>
    obtain ⟨hinsts, -, hlower, -⟩ := (State.focus_spec _ n).2 f hfocus
    have hmove : s.hostMove = .go (f.onInst Inst.reset) := by simp only [State.hostMove, hops, hfocus]
    cases (step_of_hostMove_go hturn hmove).symm.trans hstep
    exact ⟨_, by rw [State.onInst_insts, hinsts, hlower]; rfl⟩

/-- An access by number changes only the one of the instances that it names. -/
theorem step_access_insts {s t : State} {n : Nat} {a : Access} {ops : List HostOp} (hturn : s.turn = .host)
    (hops : s.host = .access n a :: ops) (hstep : step s = .next t) : ∃ b, t.insts = s.insts.set n b := by
  obtain ⟨hreaches, hnone, -⟩ := hostAccessReachesItsInstance s a ops hturn
  cases hget : s.insts[n]? with
  | none => exact absurd ((hnone n hops (List.getElem?_eq_none_iff.mp hget)).symm.trans hstep) nofun
  | some b => exact ⟨_, ((hreaches n b hops hget).2 t hstep).2⟩

/-- Settles O31: an access by number and a reset set one entry of the instances, the one they name. -/
theorem accessesLeaveOtherInstancesAlone : Obligations.AccessesLeaveOtherInstancesAlone := by
  unfold Obligations.AccessesLeaveOtherInstancesAlone
  intro s t n m ops hturn hops hstep hne
  obtain ⟨b, hset⟩ : ∃ b, t.insts = s.insts.set n b := by
    rcases hops with ⟨a, hacc⟩ | hreset
    · exact step_access_insts hturn hacc hstep
    · exact step_reset_insts hturn hreset hstep
  rw [hset, List.getElem?_set_ne hne.symm]

end Sys2Proof.Machine
end

section
/-! PROOFS. The run of the machine under a silent host, and the moves of its instances (O11). -/

namespace Sys2Proof.Machine

/-! ## Runs of the machine -/

/-- Some number of steps leads from `s` to `t`. -/
def State.Reaches (s t : State) : Prop := ∃ k, Sys2Proof.core.run k s = .next t

theorem run_succ_of_step {s u : State} (h : step s = .next u) (k : Nat) :
    Sys2Proof.core.run (k + 1) s = Sys2Proof.core.run k u := by
  have hcore : Sys2Proof.core.step s = .next u := h
  simp only [Host.Core.run, hcore]

theorem State.Reaches.refl (s : State) : s.Reaches s := ⟨0, rfl⟩

theorem State.Reaches.head {s u t : State} (h : step s = .next u) : u.Reaches t → s.Reaches t := by
  rintro ⟨k, hk⟩
  exact ⟨k + 1, (run_succ_of_step h k).trans hk⟩

theorem State.Reaches.of_step {s t : State} (h : step s = .next t) : s.Reaches t := .head h (.refl t)

/-- A run that goes on for `k + 1` steps is a step that goes on, and a run of `k` steps. -/
theorem step_of_run_succ {s t : State} {k : Nat} (h : Sys2Proof.core.run (k + 1) s = .next t) :
    ∃ u, step s = .next u ∧ Sys2Proof.core.run k u = .next t := by
  simp only [Host.Core.run] at h
  split at h
  next u hstep => exact ⟨u, hstep, h⟩
  next => cases h
  next => cases h

theorem State.Reaches.trans {s u t : State} : s.Reaches u → u.Reaches t → s.Reaches t := by
  rintro ⟨k, hk⟩ hu
  induction k generalizing s with
  | zero => cases hk; exact hu
  | succ k ih =>
    obtain ⟨v, hv, hrun⟩ := step_of_run_succ hk
    exact .head hv (ih hrun)

/-! ## One step under a silent host -/

theorem step_sequencer {s : State} (h : s.turn = .sequencer) : step s = .next s.sequencerMove := by
  simp only [step, h]

/-- From `s` to `t` each of the instances stays where it is or makes one of its own moves, and the host stays silent. -/
structure State.Advances (s t : State) : Prop where
  silent : t.Silent
  seen : t.seen = s.seen
  length : t.insts.length = s.insts.length
  insts : ∀ (i : Nat) (b : Inst), s.insts[i]? = some b → t.insts[i]? = some b ∨ t.insts[i]? = some b.auto

/-- An operation of the sequencer phase is the next move of the `Inst` in turn. -/
theorem State.sequencerMove_of_due {s : State} {m : Micro} {k : List Micro} (h : s.inst.due = some (m, k)) :
    s.sequencerMove = s.onInst Inst.auto := by
  simp only [State.sequencerMove, h, State.onInst, Inst.auto]

/-- Handing over the turn moves only the mark. -/
theorem State.sequencerMove_insts {s : State} (h : s.inst.due = none) : s.sequencerMove.insts = s.insts := by
  cases hupper : s.upper with
  | nil => simp [State.sequencerMove, State.insts, h, hupper]
  | cons a upper => simp [State.sequencerMove, State.insts, h, hupper]

theorem State.Silent.sequencerMove {s : State} (h : s.Silent) (hturn : s.turn = .sequencer) : s.sequencerMove.Silent := by
  rcases s.sequencerMove_cases with ⟨m, k, -, heq⟩ | ⟨hdue, a, upper, -, heq⟩ | ⟨hdue, hupper, heq⟩ <;> rw [heq]
  · exact ⟨h.host, h.passed, .inl hturn⟩
  · exact ⟨h.host, List.forall_mem_cons.mpr ⟨hdue, h.passed⟩, .inl hturn⟩
  · have hall : ∀ b ∈ s.insts, b.due = none := by
      simpa [State.insts, hupper, or_imp, forall_and, hdue] using h.passed
    exact ⟨h.host, h.passed, .inr hall⟩

@[simp] theorem State.sequencerMove_seen (s : State) : s.sequencerMove.seen = s.seen := by
  rcases s.sequencerMove_cases with ⟨m, k, -, heq⟩ | ⟨-, a, upper, -, heq⟩ | ⟨-, -, heq⟩ <;> exact heq ▸ rfl

/-- A move of the sequencer phase changes no entry of the instances but the one in turn. -/
theorem State.sequencerMove_others (s : State) :
    s.sequencerMove.insts.length = s.insts.length ∧
      ∀ j, j ≠ s.lower.length → s.sequencerMove.insts[j]? = s.insts[j]? := by
  cases hdue : s.inst.due with
  | none => exact State.sequencerMove_insts hdue ▸ ⟨rfl, fun _ _ => rfl⟩
  | some mk =>
    rw [State.sequencerMove_of_due hdue, State.onInst_insts]
    exact ⟨List.length_set, fun j hj => List.getElem?_set_ne hj.symm⟩

theorem State.sequencerMove_getElem? {s : State} {i : Nat} {b : Inst} (h : s.insts[i]? = some b) :
    s.sequencerMove.insts[i]? = some b ∨ s.sequencerMove.insts[i]? = some b.auto := by
  by_cases hi : i = s.lower.length
  · subst hi
    cases hdue : s.inst.due with
    | none => exact .inl (State.sequencerMove_insts hdue ▸ h)
    | some mk =>
      have hb : s.inst = b := Option.some.inj (s.insts_getElem_lower.symm.trans h)
      rw [State.sequencerMove_of_due hdue]
      exact .inr (hb ▸ (s.onInst Inst.auto).insts_getElem_lower)
  · exact .inl ((s.sequencerMove_others.2 i hi).trans h)

theorem State.endTick_getElem? {s : State} {i : Nat} {b : Inst} (hdue : ∀ c ∈ s.insts, c.due = none)
    (h : s.insts[i]? = some b) : s.endTick.insts[i]? = some b.auto := by
  rw [State.endTick_insts, List.getElem?_map, h, Inst.auto_tick (hdue b (List.mem_of_getElem? h))]
  rfl

/-- In the turn of a silent host nothing is due, and the tick ends. -/
theorem State.Silent.host_step {s : State} (h : s.Silent) (hturn : s.turn = .host) :
    step s = .next s.endTick ∧ ∀ b ∈ s.insts, b.due = none := by
  refine ⟨step_of_hostMove_go hturn (by simp only [State.hostMove, h.host]), h.turn.resolve_left fun hseq => ?_⟩
  rw [hturn] at hseq
  cases hseq

/-- Under a silent host every step goes on. -/
theorem State.Silent.step_advances {s : State} (h : s.Silent) : ∃ t, step s = .next t ∧ s.Advances t := by
  cases hturn : s.turn with
  | sequencer =>
    exact ⟨_, step_sequencer hturn, h.sequencerMove hturn, s.sequencerMove_seen, s.sequencerMove_others.1,
      fun _ _ => State.sequencerMove_getElem?⟩
  | host =>
    obtain ⟨hstep, hdue⟩ := h.host_step hturn
    exact ⟨_, hstep, ⟨h.host, fun _ hb => absurd hb List.not_mem_nil, .inl rfl⟩, rfl,
      by rw [State.endTick_insts, List.length_map], fun _ _ hb => .inr (State.endTick_getElem? hdue hb)⟩

/-! ## A run under a silent host -/

/-- From `s` to `t` each of the instances makes some number of its own moves, and the host stays silent. -/
structure State.Follows (s t : State) : Prop where
  silent : t.Silent
  seen : t.seen = s.seen
  length : t.insts.length = s.insts.length
  insts : ∀ (i : Nat) (b : Inst), s.insts[i]? = some b → ∃ n, t.insts[i]? = some (b.moves n)

theorem State.Advances.trans_follows {s u t : State} (h : s.Advances u) (hu : u.Follows t) : s.Follows t where
  silent := hu.silent
  seen := hu.seen.trans h.seen
  length := hu.length.trans h.length
  insts i b hb := by
    rcases h.insts i b hb with hstay | hmove
    · exact hu.insts i b hstay
    · obtain ⟨n, hn⟩ := hu.insts i b.auto hmove
      exact ⟨n + 1, hn⟩

theorem State.Silent.run_follows {s t : State} {k : Nat} (h : s.Silent) (hrun : Sys2Proof.core.run k s = .next t) :
    s.Follows t := by
  induction k generalizing s with
  | zero => cases hrun; exact ⟨h, rfl, rfl, fun _ _ hb => ⟨0, hb⟩⟩
  | succ k ih =>
    obtain ⟨u, hstep, hadv⟩ := h.step_advances
    exact hadv.trans_follows (ih hadv.silent ((run_succ_of_step hstep k).symm.trans hrun))

/-- The configurations of the instances stay. -/
theorem State.Follows.cfg_wf {s t : State} (h : s.Follows t) (wf : ∀ c ∈ s.insts, c.cfg.wf = true) :
    ∀ c ∈ t.insts, c.cfg.wf = true := by
  intro c hc
  obtain ⟨i, hi⟩ := List.mem_iff_getElem?.mp hc
  have hlt : i < s.insts.length := h.length ▸ (List.getElem?_eq_some_iff.mp hi).1
  obtain ⟨n, hn⟩ := h.insts i _ (List.getElem?_eq_getElem hlt)
  have hmoves : c = (s.insts[i]).moves n := Option.some.inj (hi.symm.trans hn)
  rw [hmoves, Inst.moves_cfg]
  exact wf _ (List.getElem_mem hlt)

/-! ## Every move is reached -/

/-- The `Inst` in turn performs what it has due until nothing is. -/
theorem State.reaches_rest {s : State} (hturn : s.turn = .sequencer) (hrests : s.inst.Rests) :
    ∃ c, c.due = none ∧ s.Reaches { s with inst := c } := by
  obtain ⟨n, hn⟩ := hrests
  induction n generalizing s with
  | zero => exact ⟨s.inst, hn, .refl s⟩
  | succ n ih =>
    cases hdue : s.inst.due with
    | none => exact ⟨s.inst, hdue, .refl s⟩
    | some mk =>
      have hstep : step s = .next (s.onInst Inst.auto) := State.sequencerMove_of_due hdue ▸ step_sequencer hturn
      obtain ⟨c, hc, hreach⟩ := ih (s := s.onInst Inst.auto) hturn hn
      exact ⟨c, hc, .head hstep hreach⟩

/-- The `Inst` in turn then hands over the turn. -/
theorem State.reaches_handOver {s : State} (hturn : s.turn = .sequencer) (hrests : s.inst.Rests) :
    ∃ c, c.due = none ∧ s.Reaches { s with inst := c }.sequencerMove := by
  obtain ⟨c, hdue, hreach⟩ := State.reaches_rest hturn hrests
  exact ⟨c, hdue, hreach.trans (.of_step (step_sequencer hturn))⟩

/-- The sequencer phase of a tick ends: the host's turn comes. -/
theorem State.reaches_host {s : State} (hturn : s.turn = .sequencer) (wf : ∀ c ∈ s.inst :: s.upper, c.cfg.wf = true) :
    ∃ t, s.Reaches t ∧ t.turn = .host := by
  induction hupper : s.upper generalizing s with
  | nil =>
    obtain ⟨c, hdue, hreach⟩ := State.reaches_handOver hturn (Inst.comes_to_rest (wf _ List.mem_cons_self))
    simp only [State.sequencerMove, hdue, hupper] at hreach
    exact ⟨_, hreach, rfl⟩
  | cons a upper ih =>
    obtain ⟨c, hdue, hreach⟩ := State.reaches_handOver hturn (Inst.comes_to_rest (wf _ List.mem_cons_self))
    simp only [State.sequencerMove, hdue, hupper] at hreach
    obtain ⟨t, ht, hhost⟩ := ih (s := { s with inst := a, lower := c :: s.lower, upper := upper }) hturn
      (fun d hd => wf d (List.mem_cons_of_mem _ (hupper ▸ hd))) rfl
    exact ⟨t, hreach.trans ht, hhost⟩

/-- Along a run each of the instances stays where it is or comes by its next move, since no step makes two. -/
theorem State.Silent.run_stays_or_passes {s t : State} {k i : Nat} {b : Inst} (h : s.Silent) (hb : s.insts[i]? = some b)
    (hrun : Sys2Proof.core.run k s = .next t) :
    t.insts[i]? = some b ∨ ∃ u, s.Reaches u ∧ u.insts[i]? = some b.auto := by
  induction k generalizing s with
  | zero => cases hrun; exact .inl hb
  | succ k ih =>
    obtain ⟨u, hstep, hadv⟩ := h.step_advances
    rcases hadv.insts i b hb with hstay | hmove
    · rcases ih hadv.silent hstay ((run_succ_of_step hstep k).symm.trans hrun) with ht | ⟨v, hv, hauto⟩
      · exact .inl ht
      · exact .inr ⟨v, .head hstep hv, hauto⟩
    · exact .inr ⟨u, .of_step hstep, hmove⟩

/-- Each of the instances comes by its next move, at the latest in the end of the tick. -/
theorem State.Silent.reaches_auto {s : State} {i : Nat} {b : Inst} (h : s.Silent) (wf : ∀ c ∈ s.insts, c.cfg.wf = true)
    (hb : s.insts[i]? = some b) : ∃ t, s.Reaches t ∧ t.insts[i]? = some b.auto := by
  obtain ⟨t, ⟨k, hrun⟩, hhost⟩ : ∃ t, s.Reaches t ∧ t.turn = .host := by
    cases hturn : s.turn with
    | sequencer => exact State.reaches_host hturn fun c hc => wf c (List.mem_append_right _ hc)
    | host => exact ⟨s, .refl s, hturn⟩
  rcases h.run_stays_or_passes hb hrun with hstay | hpass
  · obtain ⟨hstep, hdue⟩ := (h.run_follows hrun).silent.host_step hhost
    exact ⟨_, State.Reaches.trans ⟨k, hrun⟩ (.of_step hstep), State.endTick_getElem? hdue hstay⟩
  · exact hpass

theorem State.Silent.reaches_moves {s : State} {i : Nat} {b : Inst} (h : s.Silent) (wf : ∀ c ∈ s.insts, c.cfg.wf = true)
    (hb : s.insts[i]? = some b) (n : Nat) : ∃ t, s.Reaches t ∧ t.insts[i]? = some (b.moves n) := by
  induction n generalizing s b with
  | zero => exact ⟨s, .refl s, hb⟩
  | succ n ih =>
    obtain ⟨u, ⟨k, hrun⟩, hauto⟩ := h.reaches_auto wf hb
    have hfollows := h.run_follows hrun
    obtain ⟨t, hreach, ht⟩ := ih hfollows.silent (hfollows.cfg_wf wf) hauto
    exact ⟨t, State.Reaches.trans ⟨k, hrun⟩ hreach, ht⟩

/-! ## A machine of one `Inst` (`State.Alone`) -/

theorem State.Alone.insts {s : State} (h : s.Alone) : s.insts = [s.inst] := by
  simp [State.insts, h.lower, h.upper]

theorem State.Alone.silent {s : State} (h : s.Alone) : s.Silent where
  host := h.host
  passed := by simp [h.lower]
  turn := by simpa [h.insts] using h.turn

theorem State.Alone.run_moves {s t : State} {k : Nat} (h : s.Alone) (hrun : Sys2Proof.core.run k s = .next t) :
    ∃ n, t.inst = s.inst.moves n := by
  have hfollows := h.silent.run_follows hrun
  obtain ⟨n, hn⟩ := hfollows.insts 0 s.inst (by rw [h.insts]; rfl)
  have hlen : t.insts.length = 1 := by rw [hfollows.length, h.insts]; rfl
  obtain ⟨c, hc⟩ := List.length_eq_one_iff.mp hlen
  have hinst : t.inst = c := by simpa [hc] using t.inst_mem_insts
  exact ⟨n, by simpa [hc, hinst] using hn⟩

/-- The end of the tick is the next move of the one `Inst`. -/
theorem State.Alone.endTick {s : State} (h : s.Alone) (hturn : s.turn = .host) :
    step s = .next s.endTick ∧ s.endTick.inst = s.inst.auto ∧ s.endTick.Alone := by
  obtain ⟨hstep, hdue⟩ := h.silent.host_step hturn
  have hone : s.endTick = { s with inst := s.inst.tick, turn := .sequencer } := by
    simp [State.endTick, State.rewound_of_lower_nil h.lower, h.upper]
  rw [hone] at hstep ⊢
  exact ⟨hstep, (Inst.auto_tick (hdue s.inst s.inst_mem_insts)).symm, h.lower, h.upper, h.host, .inl rfl⟩

/-- The one `Inst` comes by its next move, in any configuration. -/
theorem State.Alone.reaches_auto {s : State} (h : s.Alone) :
    ∃ t, s.Reaches t ∧ t.inst = s.inst.auto ∧ t.seen = s.seen ∧ t.Alone := by
  cases hturn : s.turn with
  | host =>
    obtain ⟨hstep, hinst, halone⟩ := h.endTick hturn
    exact ⟨_, .of_step hstep, hinst, rfl, halone⟩
  | sequencer =>
    cases hdue : s.inst.due with
    | some mk =>
      have hstep : step s = .next (s.onInst Inst.auto) := State.sequencerMove_of_due hdue ▸ step_sequencer hturn
      exact ⟨_, .of_step hstep, rfl, rfl, h.lower, h.upper, h.host, .inl hturn⟩
    | none =>
      have hmove : s.sequencerMove = { s with turn := .host } := by simp only [State.sequencerMove, hdue, h.upper]
      have hhost : State.Alone { s with turn := .host } := ⟨h.lower, h.upper, h.host, .inr hdue⟩
      obtain ⟨hstep, hinst, halone⟩ := hhost.endTick rfl
      exact ⟨_, .head (hmove ▸ step_sequencer hturn) (.of_step hstep), hinst, rfl, halone⟩

theorem State.Alone.reaches_moves {s : State} (h : s.Alone) (n : Nat) :
    ∃ t, s.Reaches t ∧ t.inst = s.inst.moves n ∧ t.seen = s.seen ∧ t.Alone := by
  induction n generalizing s with
  | zero => exact ⟨s, .refl s, rfl, rfl, h⟩
  | succ n ih =>
    obtain ⟨u, hu, hauto, huseen, hualone⟩ := h.reaches_auto
    obtain ⟨t, ht, hmoves, hseen, halone⟩ := ih hualone
    exact ⟨t, hu.trans ht, hmoves.trans (congrArg _ hauto), hseen.trans huseen, halone⟩

/-- Settles O11: `Follows` holds along every run, and every move is reached since the sequencer phase of every tick ends. -/
theorem silentRunFollowsMoves : Obligations.SilentRunFollowsMoves := by
  unfold Obligations.SilentRunFollowsMoves
  refine ⟨fun s t k h hrun => ?follows, fun s i n b h wf hb => ?reached, fun s hturn => ?others,
    fun s h => ⟨fun k t => h.run_moves, fun n => ?alone⟩⟩
  case follows =>
    obtain ⟨silent, seen, length, insts⟩ := h.run_follows hrun
    exact ⟨silent.host, seen, silent.passed, silent.turn, length, insts⟩
  case reached =>
    obtain ⟨t, ⟨k, hrun⟩, ht⟩ := h.reaches_moves wf hb n
    exact ⟨k, t, hrun, ht⟩
  case others => exact ⟨_, step_sequencer hturn, s.sequencerMove_others⟩
  case alone =>
    obtain ⟨t, ⟨k, hrun⟩, ht⟩ := h.reaches_moves n
    exact ⟨k, t, hrun, ht⟩

end Sys2Proof.Machine
end

section
/-! PROOFS. The line (O32), Hold and PollWhile (O33, O34), the bit two polls measure (O36), and that the line is sampled only while the
pin is released (O54). -/

namespace Sys2Proof.Machine

/-! ## The line -/

theorem Pin.drivesLow_iff {p : Pin} : p.drivesLow = true ↔ p.dir = .output ∧ p.out = .low := by
  obtain ⟨dir, out⟩ := p
  cases dir <;> cases out <;> decide

theorem Inst.line_eq_high_iff {b : Inst} : b.line = .high ↔ b.pin.drivesLow ≠ true ∧ b.peerLow = false := by
  cases hpin : b.pin.drivesLow <;> cases hpeer : b.peerLow <;> simp [Inst.line, hpin, hpeer]

/-- The line read `d` ticks later is the line foreseen for then. -/
theorem Inst.line_after (b : Inst) (d : Nat) : (b.after d).line = b.lineAt d := by
  have h : (b.after d).line = (b.after d).lineAt 0 := rfl
  rw [h, Inst.lineAt_after, Nat.add_zero]

/-- Settles O32: `Inst.line` is LOW exactly when one of its two drivers is. -/
theorem lineIsWiredAnd : Obligations.LineIsWiredAnd := by
  unfold Obligations.LineIsWiredAnd
  intro b
  rw [Inst.line_eq_high_iff, Ne, Pin.drivesLow_iff]
  exact ⟨Iff.rfl, rfl, b.line_after⟩

/-! ## Hold -/

/-- The moves of a wait, up to its end. -/
theorem Inst.moves_of_wait {b : Inst} {d j : Nat} {k : List Micro} (h : b.due = some (.wait d, k)) (hj : j ≤ d) :
    b.moves (j + 1) = (b.after j).atPhase (b.now + d) k := by
  rw [Inst.moves_succ, Inst.auto_due h]
  exact Inst.moves_wait (b := b.sleep d k) rfl (Nat.add_le_add_left hj _)

/-- The moves of a Hold, up to its end: two pin writes, and a wait with the pin so driven. -/
theorem Inst.moves_of_hold {b : Inst} {v : Level} {d j : Nat} {k : List Micro} (h : b.due = some (.hold v d, k)) (hj : j ≤ d) :
    b.moves (j + 2) = ((b.drive v).after j).atPhase (b.now + d) k := by
  rw [Inst.moves_succ, Inst.auto_due h]
  exact Inst.moves_of_wait (Inst.goOn_due (b.drive v) _ _) hj

/-- Until the Hold ends, the pin has its level in every move but the one that is the Hold itself. -/
theorem Inst.hold_pin {b : Inst} {v : Level} {d n : Nat} {k : List Micro} (h : b.due = some (.hold v d, k))
    (hrest : (b.moves n).due = none) (hbefore : (b.moves n).now < b.now + d) :
    (b.moves n).pin = { dir := .output, out := v } := by
  match n with
  | 0 => exact absurd (h.symm.trans hrest) nofun
  | 1 => rw [Inst.moves_succ, Inst.auto_due h]; rfl
  | j + 2 =>
    by_cases hj : j ≤ d
    · rw [Inst.moves_of_hold h hj]; rfl
    · have hend : (b.moves (d + 2)).now = b.now + d := by rw [Inst.moves_of_hold h (Nat.le_refl d)]; rfl
      have hmono : (b.moves (d + 2)).now ≤ (b.moves (j + 2)).now := b.moves_now_mono (by omega)
      omega

/-- Settles O33: the moves of a Hold are counted one by one. -/
theorem holdKeepsLevelForItsTicks : Obligations.HoldKeepsLevelForItsTicks := by
  unfold Obligations.HoldKeepsLevelForItsTicks
  intro b v d k h
  exact ⟨fun n => Inst.hold_pin h, d + 2, Inst.moves_of_hold h (Nat.le_refl d)⟩

/-! ## PollWhile -/

/-- One more sample counted, as a pass of the loop of PollWhile does (`Inst.doPollLoop`). -/
def Inst.counted (b : Inst) : Inst := { b with seq := { b.seq with n := b.seq.n + 1 } }

/-- A PollWhile that began in `b`, at the head of its loop for the poll time of index `c`, where it has counted `c` samples. -/
def Inst.pollingAt (b : Inst) (lv : Level) (bound : Nat) (use : PollUse) (k : List Micro) (c : Nat) : Inst :=
  { b.after (c * b.cfg.tPoll) with seq := { b.seq with n := c } }.atPhase (b.now + c * b.cfg.tPoll) (.pollLoop lv bound use :: k)

/-- One pass of the loop of PollWhile, by the sample that it takes. -/
theorem Inst.pollingAt_pass (b : Inst) (lv : Level) (bound : Nat) (use : PollUse) (k : List Micro) (c : Nat) :
    (b.pollingAt lv bound use k c).Leads
      (if b.lineAt (c * b.cfg.tPoll) ≠ lv then (b.pollingAt lv bound use k c).polled use c k
      else if bound ≤ c + 1 then (b.pollingAt lv bound use k c).counted.pollTimeout use
      else (b.pollingAt lv bound use k c).counted.goOn (.wait b.cfg.tPoll :: .pollLoop lv bound use :: k)) := by
  have hline : (b.pollingAt lv bound use k c).line = b.lineAt (c * b.cfg.tPoll) := b.line_after _
  have hdue : (b.pollingAt lv bound use k c).due = some (.pollLoop lv bound use, k) := Inst.due_of_phase rfl (Nat.le_refl _)
  rw [← hline]
  exact Inst.leads_perform hdue

/-- The end of a poll writes `seq.phase` anew, whatever it held. -/
theorem Inst.polled_atPhase (b : Inst) (w : Nat) (todo : List Micro) (use : PollUse) (c : Nat) (k : List Micro) :
    (b.atPhase w todo).polled use c k = b.polled use c k := by
  cases use <;> rfl

theorem Inst.pollTimeout_atPhase (b : Inst) (w : Nat) (todo : List Micro) (use : PollUse) :
    (b.atPhase w todo).pollTimeout use = b.pollTimeout use := by
  rcases use with site | site | site <;> cases site <;> rfl

section
variable {b : Inst} {lv : Level} {bound c : Nat} {use : PollUse} {k : List Micro}

/-- A sample at the level that is not the last one is counted, and the next one is due T_POLL later. -/
theorem Inst.pollingAt_leads_succ (hline : b.lineAt (c * b.cfg.tPoll) = lv) (hc : c + 1 < bound) :
    (b.pollingAt lv bound use k c).Leads (b.pollingAt lv bound use k (c + 1)) := by
  have hpass := b.pollingAt_pass lv bound use k c
  rw [if_neg (not_not_intro hline), if_neg (Nat.not_le.mpr hc)] at hpass
  have hnext : b.pollingAt lv bound use k (c + 1) =
      ((b.pollingAt lv bound use k c).counted.after b.cfg.tPoll).atPhase (b.now + c * b.cfg.tPoll + b.cfg.tPoll)
        (.pollLoop lv bound use :: k) := by
    simp [Inst.pollingAt, Inst.counted, Inst.after, Inst.atPhase, Nat.succ_mul, Nat.add_assoc]
  exact hnext ▸ hpass.trans (Inst.leads_wait (Inst.goOn_due _ _ _))

theorem Inst.poll_leads_pollingAt (h : b.due = some (.poll lv bound use, k)) (hc : c < bound)
    (hline : ∀ i, i < c → b.lineAt (i * b.cfg.tPoll) = lv) : b.Leads (b.pollingAt lv bound use k c) := by
  induction c with
  | zero =>
    have hstart : b.perform (.poll lv bound use) k = b.pollingAt lv bound use k 0 := by
      simp [Inst.perform, Inst.doPoll, Inst.pollingAt, Inst.goOn, Inst.sleep, Inst.atPhase]
    exact hstart ▸ Inst.leads_perform h
  | succ c ih =>
    have hbefore := ih (Nat.lt_of_succ_lt hc) fun i hi => hline i (Nat.lt_succ_of_lt hi)
    exact hbefore.trans (Inst.pollingAt_leads_succ (hline c (Nat.lt_succ_self c)) hc)

/-- A sample that is not at the level ends the poll with the count (R97). -/
theorem Inst.pollingAt_leads_polled (hline : b.lineAt (c * b.cfg.tPoll) ≠ lv) :
    (b.pollingAt lv bound use k c).Leads
      ({ b.after (c * b.cfg.tPoll) with seq := { b.seq with n := c } }.polled use c k) := by
  have hpass := b.pollingAt_pass lv bound use k c
  rw [if_pos hline] at hpass
  exact Inst.polled_atPhase _ _ _ use c k ▸ hpass

/-- The last sample at the level ends the poll with TIMEOUT (R97). -/
theorem Inst.pollingAt_leads_timeout (hline : b.lineAt (c * b.cfg.tPoll) = lv) :
    (b.pollingAt lv (c + 1) use k c).Leads
      ({ b.after (c * b.cfg.tPoll) with seq := { b.seq with n := c + 1 } }.pollTimeout use) := by
  have hpass := b.pollingAt_pass lv (c + 1) use k c
  rw [if_neg (not_not_intro hline), if_pos (Nat.le_refl _)] at hpass
  exact Inst.pollTimeout_atPhase _ _ _ use ▸ hpass

end

/-- Settles O34: the loop is followed sample by sample (`Inst.pollingAt`) to the one that ends it. -/
theorem pollWhileCountsOrTimesOut : Obligations.PollWhileCountsOrTimesOut := by
  unfold Obligations.PollWhileCountsOrTimesOut
  intro b lv bound use k h _ hbound
  refine ⟨fun c hc hbefore hline => ?count, fun hall => ?timeout⟩
  case count => exact (Inst.poll_leads_pollingAt h hc hbefore).trans (Inst.pollingAt_leads_polled hline)
  case timeout =>
    obtain ⟨c, rfl⟩ := Nat.exists_eq_add_of_le' hbound
    exact (Inst.poll_leads_pollingAt h (Nat.lt_succ_self c) fun i hi => hall i (Nat.lt_succ_of_lt hi)).trans
      (Inst.pollingAt_leads_timeout (hall c (Nat.lt_succ_self c)))

/-! ## A received bit -/

/-- `shiftIn` is the library's shift with a new lowest bit. -/
theorem shiftIn_eq_shiftConcat (v : Byte) (bit : Bool) : shiftIn v bit = v.shiftConcat bit := by
  have hlow : (0#7 ++ BitVec.ofBool bit : Byte) = (BitVec.ofBool bit).setWidth 8 := by cases bit <;> rfl
  ext i hi
  rw [shiftIn, hlow, BitVec.getElem_shiftConcat]
  cases i <;> simp

theorem shiftIn_toNat (v : Byte) (bit : Bool) : (shiftIn v bit).toNat = (v.toNat * 2 + bit.toNat) % 256 := by
  rw [shiftIn_eq_shiftConcat, BitVec.toNat_shiftConcat, Nat.shiftLeft_eq]

theorem decodeBit_toNat (h l : Nat) : (decodeBit h l).toNat = if l < h then 1 else 0 :=
  Bool.cond_decide _ _ _

/-- Settles O36: `shiftIn` doubles the byte and adds the bit, which is `decodeBit` of the counts. -/
theorem receivedBitShiftsIn : Obligations.ReceivedBitShiftsIn := by
  unfold Obligations.ReceivedBitShiftsIn
  intro b site l k
  refine ⟨?_, rfl, rfl, rfl, rfl⟩
  rw [← decodeBit_toNat]
  exact shiftIn_toNat _ _

/-! ## Where the line is sampled -/

/-- What has an operation due runs a command, and its pending operations are ones its rule leads to. -/
theorem Inst.Inv.todoOk_of_due {b : Inst} {m : Micro} {k : List Micro} (h : b.Inv) (hdue : b.due = some (m, k)) :
    b.status.busy = true ∧ ∃ op, b.seq.op = some op ∧ todoOk op (b.known op) (m :: k) = true := by
  obtain ⟨w, hphase, -⟩ := Inst.due_eq_some.mp hdue
  cases hbusy : b.status.busy with
  | false => exact absurd (hphase.symm.trans (h.idle hbusy).1) nofun
  | true =>
    obtain ⟨-, -, -, -, -, op, w', todo, hop, hphase', htodo⟩ := h.busy hbusy
    cases hphase.symm.trans hphase'
    exact ⟨rfl, op, hop, htodo⟩

/-- The pin is released where an operation stands that samples (R91). -/
theorem released_of_todoOk_samples {op : SeqOp} {g : Known} {m : Micro} {k : List Micro} (h : todoOk op g (m :: k) = true)
    (hm : m.samples = true) : g.released = true := by
  cases m with
  | pollLoop | arbLoop | arbConfirm =>
    simp only [todoOk, Bool.and_eq_true] at h
    simp only [h]
  | _ => exact absurd hm Bool.false_ne_true

theorem Inst.Inv.released_of_samples {b : Inst} {m : Micro} {k : List Micro} (h : b.Inv) (hdue : b.due = some (m, k))
    (hm : m.samples = true) : b.pin = .released := by
  obtain ⟨-, op, -, htodo⟩ := h.todoOk_of_due hdue
  exact of_decide_eq_true (released_of_todoOk_samples htodo hm)

/-- The invariant holds wherever a run from it leads. -/
theorem State.Inv.run {s t : State} {k : Nat} (h : s.Inv) (hrun : Sys2Proof.core.run k s = .next t) : t.Inv := by
  induction k generalizing s with
  | zero => cases hrun; exact h
  | succ k ih =>
    obtain ⟨u, hstep, hrest⟩ := step_of_run_succ hrun
    exact ih (stepKeepsInvariant s u h hstep) hrest

/-- Settles O54: the invariant holds along the run, and in it a sampling operation stands only where the pin is released. -/
theorem samplesOnlyReleasedLine : Obligations.SamplesOnlyReleasedLine := by
  unfold Obligations.SamplesOnlyReleasedLine
  intro s t k m rest h hrun hdue hm
  exact ((h.run hrun).insts _ t.inst_mem_insts).released_of_samples hdue hm

end Sys2Proof.Machine
end

section
/-! PROOFS. No host access disturbs a running command (O30). -/

namespace Sys2Proof.Machine

/-- A register write changes fields that no running command reads, and of STATUS neither BUSY nor EN (R33, R56). -/
theorem Inst.writeReg_writes (b : Inst) (r : Reg) (w : Word) :
    ∃ ie devAddr txLen status,
      b.writeReg r w = { b with ie := ie, devAddr := devAddr, txLen := txLen, status := status } ∧
      status.busy = b.status.busy ∧ status.en = b.status.en := by
  cases r <;> exact ⟨_, _, _, _, rfl, rfl, rfl⟩

/-- A host access to an instance whose command runs writes at most the operand registers, CTRL and STATUS, and of STATUS neither BUSY
nor EN: a CMD write is lost (R165), and a BUF access does not go on (R222). -/
theorem State.Accesses.step_of_busy {s s' t : State} {n : Nat} {a : Access} (h : s.Accesses n a s')
    (busy : s'.inst.status.busy = true) (hstep : step s = .next t) :
    ∃ ie devAddr txLen status,
      t.inst = { s'.inst with ie := ie, devAddr := devAddr, txLen := txLen, status := status } ∧
      status.busy = s'.inst.status.busy ∧ status.en = s'.inst.status.en := by
  cases hmove : s'.access a with
  | command i u =>
    obtain ⟨rfl, -⟩ := State.access_command hmove
    cases ((h.step_of_command hmove).trans (exec_of_busy i busy)).symm.trans hstep
    exact ⟨_, _, _, _, rfl, rfl, rfl⟩
  | go u =>
    cases (h.step_of_go hmove).symm.trans hstep
    rcases State.access_go hmove with ⟨v, rfl⟩ | ⟨r, w, -, rfl⟩ | ⟨free, -⟩ | rfl
    · exact ⟨_, _, _, _, rfl, rfl, rfl⟩
    · exact s'.inst.writeReg_writes r w
    · exact absurd (busy.symm.trans free) nofun
    · exact ⟨_, _, _, _, rfl, rfl, rfl⟩
  | fault r => exact absurd ((step_of_hostMove_fault h.1 (h.hostMove.trans hmove)).symm.trans hstep) nofun
  | refuse r => exact absurd ((h.step_of_refuse hmove).symm.trans hstep) nofun

/-- Settles O30: from `State.Accesses.step_of_busy`. -/
theorem hostAccessKeepsRunningCommand : Obligations.HostAccessKeepsRunningCommand := by
  unfold Obligations.HostAccessKeepsRunningCommand
  intro s s' t n a hacc busy hstep
  obtain ⟨ie, devAddr, txLen, status, hinst, hbusy, hen⟩ := hacc.step_of_busy busy hstep
  rw [hinst]
  exact ⟨rfl, rfl, rfl, rfl, hbusy.trans busy, hen, rfl, rfl⟩

end Sys2Proof.Machine
end

section
/-! PROOFS. A sent byte, from its SendByte to the end of its acknowledgment polls (O38, O39). -/

namespace Sys2Proof.Machine

/-! ## From one operation to the next -/

/-- The operation at the head is performed. -/
theorem Inst.goOn_leads_perform (b : Inst) (m : Micro) (k : List Micro) : (b.goOn (m :: k)).Leads (b.perform m k) :=
  b.perform_goOn m k ▸ Inst.leads_perform (Inst.goOn_due b m k)

theorem Inst.hold_leads (b : Inst) (v : Level) (d : Nat) (k : List Micro) :
    (b.goOn (.hold v d :: k)).Leads (((b.drive v).after d).goOn k) :=
  ⟨d + 2, Inst.moves_of_hold (Inst.goOn_due b _ _) (Nat.le_refl d)⟩

/-- A symbol on the line: HIGH, then LOW (R72, R73). -/
theorem Inst.highLow_leads (b : Inst) (d e : Nat) (k : List Micro) :
    (b.goOn (.hold .high d :: .hold .low e :: k)).Leads (((b.drive .low).after (d + e)).goOn k) := by
  have hlow := ((b.drive .high).after d).hold_leads .low e k
  have hend : ((((b.drive .high).after d).drive .low).after e).goOn k = ((b.drive .low).after (d + e)).goOn k :=
    congrArg (·.goOn k) ((b.drive .low).after_add d e)
  exact (b.hold_leads .high d _).trans (hend ▸ hlow)

/-! ## The symbols of a byte -/

/-- The symbol of the sync and of a 0 (R72, R73). -/
theorem Inst.shortLong_leads (b : Inst) (k : List Micro) :
    (b.goOn (.hold .high b.timing.tShort :: .hold .low b.timing.tLong :: k)).Leads
      (((b.drive .low).after (symbolTicks b.timing)).goOn k) := by
  rw [symbolTicks, Nat.add_comm]
  exact b.highLow_leads _ _ k

theorem Inst.sendSync_leads (b : Inst) (k : List Micro) :
    (b.goOn (.sendSync :: k)).Leads (((b.drive .low).after (symbolTicks b.timing)).goOn k) :=
  (b.goOn_leads_perform .sendSync k).trans (b.shortLong_leads k)

/-- A bit takes the same time whichever it is (R72). -/
theorem Inst.sendBit_leads (b : Inst) (bit : Bool) (k : List Micro) :
    (b.goOn (.sendBit bit :: k)).Leads (((b.drive .low).after (symbolTicks b.timing)).goOn k) := by
  cases bit with
  | true => exact (b.goOn_leads_perform (.sendBit true) k).trans (b.highLow_leads b.timing.tLong b.timing.tShort k)
  | false => exact (b.goOn_leads_perform (.sendBit false) k).trans (b.shortLong_leads k)

/-- The instance with `i` bits of the byte sent, or received (R39). -/
def Inst.atBit (b : Inst) (i : Nat) : Inst := { b with seq := { b.seq with bit := i } }

/-- One pass of the loop of SendBits (R101). -/
theorem Inst.sendBitsLoop_leads_pass {b : Inst} (k : List Micro) (h : b.seq.bit < 8) :
    (b.goOn (.sendBitsLoop :: k)).Leads
      ((((b.drive .low).after (symbolTicks b.timing)).atBit (b.seq.bit + 1)).goOn (.sendBitsLoop :: k)) := by
  have hpass := b.goOn_leads_perform .sendBitsLoop k
  rw [Inst.perform, Inst.doSendBitsLoop, if_pos h] at hpass
  exact (hpass.trans (b.sendBit_leads _ _)).trans (Inst.goOn_leads_perform _ .sendBitsNext k)

/-- The loop of SendBits with `i` bits to go, and the Release that ends it (R101). -/
theorem Inst.sendBitsLoop_leads {b : Inst} {i : Nat} (k : List Micro) (h : b.seq.bit + i = 8) :
    (b.goOn (.sendBitsLoop :: k)).Leads (((b.after (i * symbolTicks b.timing)).release.atBit 8).goOn k) := by
  induction i generalizing b with
  | zero =>
    have hbit : b.seq.bit = 8 := h
    have hpass := b.goOn_leads_perform .sendBitsLoop k
    rw [Inst.perform, Inst.doSendBitsLoop, if_neg (Nat.not_lt.mpr (Nat.le_of_eq hbit.symm))] at hpass
    rw [Nat.zero_mul, Inst.after_zero, ← hbit]
    exact hpass.trans (b.goOn_leads_perform .release k)
  | succ i ih =>
    have htime : (b.after (symbolTicks b.timing)).after (i * symbolTicks b.timing) = b.after ((i + 1) * symbolTicks b.timing) := by
      rw [Inst.after_add, Nat.succ_mul, Nat.add_comm]
    have hbit : b.seq.bit + 1 + i = 8 := by rw [Nat.add_right_comm]; exact h
    rw [← htime]
    exact (Inst.sendBitsLoop_leads_pass k (by omega)).trans
      (ih (b := ((b.drive .low).after (symbolTicks b.timing)).atBit (b.seq.bit + 1)) hbit)

/-! ## A byte without its acknowledgment -/

/-- The instance that began to send byte `v` in `b`, at the Release after its last bit (R74, R101). -/
def Inst.byteSent (b : Inst) (v : Byte) : Inst :=
  { (b.after (9 * symbolTicks b.timing)).release with seq := { b.seq with shift := v, bit := 8 } }

/-- SendByte up to its acknowledgment polls: a sync symbol and eight bits, each as long as the other (R74, R110). -/
theorem Inst.sendByte_leads {b : Inst} {v : Byte} {site : Site} {k : List Micro} (h : b.due = some (.sendByte v site, k)) :
    b.Leads ((b.byteSent v).goOn
      (.poll .high b.cfg.nAck (.ack site) :: .poll .low b.cfg.nAck (.ack site) :: k)) := by
  have htime : (b.after (symbolTicks b.timing)).after (8 * symbolTicks b.timing) = b.after (9 * symbolTicks b.timing) := by
    rw [Inst.after_add, Nat.succ_mul 8, Nat.add_comm]
  have hsync := (Inst.leads_perform h).trans (b.sendSync_leads _)
  have hbits := hsync.trans (Inst.goOn_leads_perform _ (.sendBits v) _)
  have hsent := hbits.trans (Inst.sendBitsLoop_leads (i := 8) _ rfl)
  rw [Inst.byteSent, ← htime]
  exact hsent

/-! ## The acknowledgment polls -/

theorem Params.nAck_pos {c : Params} (h : c.wf = true) : 0 < c.nAck := by
  simp only [Params.wf, Bool.and_eq_true, decide_eq_true_iff] at h
  omega

/-- The instance that began a PollWhile in `b`, at the poll time of index `i`, with `c` samples counted (R97). -/
def Inst.pollEnd (b : Inst) (i c : Nat) : Inst := { b.after (i * b.cfg.tPoll) with seq := { b.seq with n := c } }

/-- At the poll times of the first acknowledgment poll the line is as the peer drives it. -/
theorem Inst.byteSent_lineAt {b : Inst} (v : Byte) {i : Nat} {low : Bool}
    (h : b.peerAt (9 * symbolTicks b.timing + i * b.cfg.tPoll) = low) :
    (b.byteSent v).lineAt (i * b.cfg.tPoll) = if low then .low else .high := by
  rw [← h, ← Inst.peerAt_after]
  rfl

/-- And so it is at those of the second one, which begins at the `a`-th poll time of the first. -/
theorem Inst.byteSent_pollEnd_lineAt {b : Inst} (v : Byte) {a c i : Nat} {low : Bool}
    (h : b.peerAt (9 * symbolTicks b.timing + (a + i) * b.cfg.tPoll) = low) :
    ((b.byteSent v).pollEnd a c).lineAt (i * b.cfg.tPoll) = if low then .low else .high := by
  rw [← Inst.byteSent_lineAt v h, Nat.add_mul]
  exact (b.byteSent v).lineAt_after _ _

section
variable {b : Inst} {lv : Level} {bound c : Nat} {site : Site} {k : List Micro}

/-- An acknowledgment poll that ends with a count lets the command go on, at the sample that ends it (R97, R110). -/
theorem Inst.ackPoll_leads (hc : c < bound) (hat : ∀ i, i < c → b.lineAt (i * b.cfg.tPoll) = lv)
    (hend : b.lineAt (c * b.cfg.tPoll) ≠ lv) :
    (b.goOn (.poll lv bound (.ack site) :: k)).Leads ((b.pollEnd c c).goOn k) :=
  (Inst.poll_leads_pollingAt (Inst.goOn_due b _ k) hc hat).trans (Inst.pollingAt_leads_polled hend)

/-- An acknowledgment poll whose samples are all at its level raises AckError at the last of them (R97, R110). -/
theorem Inst.ackPoll_leads_raise (hbound : 0 < bound) (hat : ∀ i, i < bound → b.lineAt (i * b.cfg.tPoll) = lv) :
    (b.goOn (.poll lv bound (.ack site) :: k)).Leads ((b.pollEnd (bound - 1) bound).raiseAt site .ackError) := by
  obtain ⟨c, rfl⟩ := Nat.exists_eq_add_of_le' hbound
  have hdue : (b.goOn (.poll lv (c + 1) (.ack site) :: k)).due = some (.poll lv (c + 1) (.ack site), k) := Inst.goOn_due b _ k
  have hlast := Inst.poll_leads_pollingAt hdue c.lt_succ_self fun i hi => hat i (Nat.lt_succ_of_lt hi)
  have htimeout : (b.goOn (.poll lv (c + 1) (.ack site) :: k)).Leads
      (((b.pollEnd c (c + 1)).atPhase b.now (.poll lv (c + 1) (.ack site) :: k)).pollTimeout (.ack site)) :=
    hlast.trans (Inst.pollingAt_leads_timeout (hat c c.lt_succ_self))
  rwa [Inst.pollTimeout_atPhase] at htimeout

end

/-- SendByte up to the LOW sample that begins its acknowledgment: the second poll starts there (R110). -/
theorem Inst.sendByte_leads_lowPoll {b : Inst} {v : Byte} {site : Site} {k : List Micro} {a : Nat}
    (h : b.due = some (.sendByte v site, k)) (ha : a < b.cfg.nAck)
    (high : ∀ i, i < a → b.peerAt (9 * symbolTicks b.timing + i * b.cfg.tPoll) = false)
    (low : b.peerAt (9 * symbolTicks b.timing + a * b.cfg.tPoll) = true) :
    b.Leads (((b.byteSent v).pollEnd a a).goOn (.poll .low b.cfg.nAck (.ack site) :: k)) :=
  (Inst.sendByte_leads h).trans (Inst.ackPoll_leads ha (fun i hi => Inst.byteSent_lineAt v (high i hi))
    (fun heq => nomatch (Inst.byteSent_lineAt v low).symm.trans heq))

/-- Settles O38: the first poll ends at the first LOW sample, the second one at the HIGH sample after it. -/
theorem acknowledgedByteGoesOn : Obligations.AcknowledgedByteGoesOn := by
  unfold Obligations.AcknowledgedByteGoesOn
  intro b v site k a c _ h ha hc high low hpos hend
  have hlow := Inst.sendByte_leads_lowPoll h ha high (low 0 hpos)
  obtain ⟨n, hn⟩ := hlow.trans (Inst.ackPoll_leads hc (fun i hi => Inst.byteSent_pollEnd_lineAt v (low i hi))
    (fun heq => nomatch (Inst.byteSent_pollEnd_lineAt v hend).symm.trans heq))
  refine ⟨n, ?now, ?phase, ?pin⟩ <;> rw [hn]
  case now => rw [Nat.add_mul, ← Nat.add_assoc]; rfl
  case phase => rfl
  case pin => rfl

/-! ## A byte that fails -/

/-- What a SendByte that raises AckError leaves: its stage, and the inter-frame delay except after the device-address byte (R114, R126). -/
theorem Inst.leads_raiseAt_ackError {b d : Inst} {site : Site} {stage : Stage}
    (hsite : (site = .addr ∧ stage = .addr) ∨ (site = .len ∧ stage = .len) ∨ (site = .payload ∧ stage = .payload))
    (h : b.Leads (d.raiseAt site .ackError)) (htiming : d.timing = b.timing) (hpin : d.pin = .released) :
    ∃ n, (b.moves n).now = d.now ∧ (b.moves n).seq.code = .ackError ∧ (b.moves n).seq.stage = stage ∧
      (b.moves n).seq.phase = .run (b.moves n).now (if site = .addr then [.complete] else [.wait b.timing.tIfd, .complete]) ∧
      (b.moves n).pin = { dir := .input, out := .high } := by
  obtain ⟨n, hn⟩ := h
  rw [← htiming]
  refine ⟨n, ?_⟩
  rw [hn]
  rcases hsite with ⟨rfl, rfl⟩ | ⟨rfl, rfl⟩ | ⟨rfl, rfl⟩ <;> exact ⟨rfl, rfl, rfl, rfl, hpin⟩

/-- Settles O39: the first poll times out, or the second one after the first has ended. -/
theorem unacknowledgedByteFails : Obligations.UnacknowledgedByteFails := by
  unfold Obligations.UnacknowledgedByteFails
  intro b v site stage k hwf h hsite
  have hpos := Params.nAck_pos hwf
  refine ⟨fun high => ?noAck, fun a ha high low => ?endless⟩
  case noAck =>
    have hraise := (Inst.sendByte_leads h).trans
      (Inst.ackPoll_leads_raise hpos fun i hi => Inst.byteSent_lineAt v (high i hi))
    exact Inst.leads_raiseAt_ackError hsite hraise rfl rfl
  case endless =>
    have hraise := (Inst.sendByte_leads_lowPoll h ha high (low 0 hpos)).trans
      (Inst.ackPoll_leads_raise hpos fun i hi => Inst.byteSent_pollEnd_lineAt v (low i hi))
    rw [Nat.add_mul, ← Nat.add_assoc]
    exact Inst.leads_raiseAt_ackError hsite hraise rfl rfl

end Sys2Proof.Machine
end

section
/-! PROOFS. The end of a command: its completion (O45, O56), its delay (O46), and the value checks that end a frame (O47). -/

namespace Sys2Proof.Machine

/-! ## A run with a property on the way -/

/-- `b`, left to itself, comes to be `c`, and `P` holds of it before each move on the way. -/
def Inst.LeadsWhile (P : Inst → Prop) (b c : Inst) : Prop := ∃ n, b.moves n = c ∧ ∀ j, j < n → P (b.moves j)

section
variable {P : Inst → Prop} {a b c : Inst}

theorem Inst.LeadsWhile.leads (h : b.LeadsWhile P c) : b.Leads c := h.imp fun _ hn => hn.1

theorem Inst.LeadsWhile.trans (hab : a.LeadsWhile P b) (hbc : b.LeadsWhile P c) : a.LeadsWhile P c := by
  obtain ⟨m, rfl, hm⟩ := hab
  obtain ⟨n, rfl, hn⟩ := hbc
  refine ⟨m + n, Inst.moves_add _ _ _, fun j hj => ?_⟩
  by_cases hjm : j < m
  · exact hm j hjm
  · obtain ⟨i, rfl⟩ := Nat.exists_eq_add_of_le (Nat.le_of_not_lt hjm)
    rw [Inst.moves_add]
    exact hn i (Nat.lt_of_add_lt_add_left hj)

/-- Before the tick in which the run ends, `P` holds. -/
theorem Inst.LeadsWhile.before (h : b.LeadsWhile P c) {n : Nat} (hn : (b.moves n).now < c.now) : P (b.moves n) := by
  obtain ⟨m, rfl, hm⟩ := h
  exact hm n (Nat.lt_of_not_le fun hle => absurd (b.moves_now_mono hle) (Nat.not_le.mpr hn))

/-- Where the run ends idle and `P` holds from there on, it always holds. -/
theorem Inst.LeadsWhile.always (h : b.LeadsWhile P c) (idle : c.seq.phase = .idle) (hP : ∀ d, P (c.after d)) (n : Nat) :
    P (b.moves n) := by
  obtain ⟨m, rfl, hm⟩ := h
  by_cases hnm : n < m
  · exact hm n hnm
  · obtain ⟨d, rfl⟩ := Nat.exists_eq_add_of_le (Nat.le_of_not_lt hnm)
    rw [Inst.moves_add, Inst.moves_idle idle]
    exact hP d

theorem Inst.leadsWhile_perform {m : Micro} {k : List Micro} (h : b.due = some (m, k)) (hb : P b) :
    b.LeadsWhile P (b.perform m k) := by
  refine ⟨1, by rw [Inst.moves_succ, Inst.auto_due h]; rfl, fun j hj => ?_⟩
  rw [Nat.lt_one_iff.mp hj]
  exact hb

theorem Inst.goOn_leadsWhile_perform {m : Micro} {k : List Micro} (hb : P (b.goOn (m :: k))) :
    (b.goOn (m :: k)).LeadsWhile P (b.perform m k) :=
  b.perform_goOn m k ▸ Inst.leadsWhile_perform (Inst.goOn_due b m k) hb

/-- The ticks of a primitive that has begun pass. -/
theorem Inst.leadsWhile_after {k : List Micro} {d : Nat} (h : b.seq.phase = .run (b.now + d) k)
    (hP : ∀ j, j < d → P (b.after j)) : b.LeadsWhile P (b.after d) :=
  ⟨d, Inst.moves_wait h (Nat.le_refl _), fun j hj => (Inst.moves_wait h (Nat.add_le_add_left (Nat.le_of_lt hj) _)).symm ▸ hP j hj⟩

/-- A wait passes: what follows it comes due `d` ticks later. -/
theorem Inst.wait_leadsWhile {d : Nat} {k : List Micro} (hb : P (b.goOn (.wait d :: k)))
    (hP : ∀ j, j < d → P ((b.after j).atPhase (b.now + d) k)) :
    (b.goOn (.wait d :: k)).LeadsWhile P ((b.after d).goOn k) :=
  (Inst.goOn_leadsWhile_perform hb).trans (Inst.leadsWhile_after (b := b.sleep d k) rfl hP)

/-- `P` as far as ticks are concerned: it holds of `b` if `b` has nothing more due in its tick. -/
def Inst.AtRest (P : Inst → Prop) (b : Inst) : Prop := b.due = none → P b

theorem Inst.atRest_of_due {m : Micro} {k : List Micro} (h : b.due = some (m, k)) : b.AtRest P :=
  fun hrest => absurd (h.symm.trans hrest) nofun

/-- A wait, by its ticks. -/
theorem Inst.wait_leadsWhile_atRest {d : Nat} {k : List Micro} (hP : ∀ j, j < d → P ((b.after j).atPhase (b.now + d) k)) :
    (b.goOn (.wait d :: k)).LeadsWhile (Inst.AtRest P) ((b.after d).goOn k) :=
  Inst.wait_leadsWhile (Inst.atRest_of_due (Inst.goOn_due b _ _)) fun j hj _ => hP j hj

/-- A Hold, by its ticks (R93). -/
theorem Inst.hold_leadsWhile_atRest {v : Level} {d : Nat} {k : List Micro}
    (hP : ∀ j, j < d → P (((b.drive v).after j).atPhase (b.now + d) k)) :
    (b.goOn (.hold v d :: k)).LeadsWhile (Inst.AtRest P) (((b.drive v).after d).goOn k) :=
  (Inst.goOn_leadsWhile_perform (Inst.atRest_of_due (Inst.goOn_due b _ _))).trans (Inst.wait_leadsWhile_atRest (b := b.drive v) hP)

end

/-! ## Completion -/

/-- When the completion is due, its command's rule allows the result that has been built, and the pin is released (R124). -/
theorem Inst.Inv.legal_of_complete_due {b : Inst} {k : List Micro} (h : b.Inv) (hdue : b.due = some (.complete, k)) :
    b.pin = .released ∧ ∃ op, b.seq.op = some op ∧ legalResult op b.seq.code b.seq.stage = true := by
  obtain ⟨-, op, hop, htodo⟩ := h.todoOk_of_due hdue
  simp only [todoOk, Bool.and_eq_true] at htodo
  obtain ⟨released, legal⟩ := htodo
  exact ⟨of_decide_eq_true released, op, hop, legal⟩

/-- The step of a completion is `Inst.complete` at the mark. -/
theorem step_of_complete_due {s : State} {k : List Micro} (hturn : s.turn = .sequencer)
    (hdue : s.inst.due = some (.complete, k)) : step s = .next { s with inst := s.inst.complete } := by
  rw [step_sequencer hturn, State.sequencerMove, hdue]
  rfl

/-- Settles O45: the step is `Inst.complete`, and the invariant has the pin released where the completion is due. -/
theorem completionIsOneUpdate : Obligations.CompletionIsOneUpdate := by
  unfold Obligations.CompletionIsOneUpdate
  intro s k hturn hdue
  exact ⟨step_of_complete_due hturn hdue, fun h => (h.legal_of_complete_due hdue).1⟩

/-- Settles O56: the invariant holds along the run, and in it the result that is completed is one of the command's rule. -/
theorem completedResultsAreLegal : Obligations.CompletedResultsAreLegal := by
  unfold Obligations.CompletedResultsAreLegal
  intro s t k rest op h hrun hturn hdue hop
  obtain ⟨-, op', hop', legal⟩ := ((h.run hrun).insts _ t.inst_mem_insts).legal_of_complete_due hdue
  cases hop.symm.trans hop'
  exact ⟨_, step_of_complete_due hturn hdue, legal, fun failed => if_neg fun ok => failed ok.1⟩

/-! ## The inter-frame delay -/

/-- The epilogue completes T_IFD ticks later, with the pin as it was (R126, R134). -/
theorem Inst.epilogue_leadsWhile {P : Inst → Prop} {b : Inst} (c : Code) (st : Stage) (hP : ∀ d, d.pin = b.pin → P d) :
    (b.epilogue c st).LeadsWhile P ((b.setResult c st).after b.timing.tIfd).complete :=
  (Inst.wait_leadsWhile (b := b.setResult c st) (hP _ rfl) fun _ _ => hP _ rfl).trans
    (Inst.goOn_leadsWhile_perform (hP _ rfl))

theorem Inst.epilogue_leads (b : Inst) (c : Code) (st : Stage) :
    (b.epilogue c st).Leads ((b.setResult c st).after b.timing.tIfd).complete :=
  (Inst.epilogue_leadsWhile (P := fun _ => True) c st fun _ _ => trivial).leads

/-- Complete without the inter-frame delay takes no time (R126, R150, R152). -/
theorem Inst.finish_leads (b : Inst) (c : Code) (st : Stage) : (b.finish c st).Leads (b.setResult c st).complete :=
  (b.setResult c st).goOn_leads_perform .complete []

/-- Settles O46: `Inst.raiseAt` is the epilogue but for the device-address byte. -/
theorem frameEndsWithItsDelay : Obligations.FrameEndsWithItsDelay := by
  unfold Obligations.FrameEndsWithItsDelay
  intro b c st k
  refine ⟨fun hdue => (Inst.leads_perform hdue).trans (b.epilogue_leads c st),
    fun hdue => (Inst.leads_perform hdue).trans (b.finish_leads c st), b.finish_leads .ackError .addr, fun site code hsite => ?_⟩
  have hraise : b.raiseAt site c = b.epilogue code st := by
    rcases hsite with ⟨rfl, rfl, rfl⟩ | ⟨rfl, rfl, rfl⟩ | ⟨rfl, rfl, rfl⟩ | ⟨rfl, rfl, rfl⟩ | ⟨rfl, rfl, rfl⟩ | ⟨rfl, rfl, rfl⟩ <;>
      rfl
  exact hraise ▸ b.epilogue_leads code st

/-! ## The value checks -/

/-- Settles O47: by the two sides of each check. -/
theorem frameValueChecks : Obligations.FrameValueChecks := by
  unfold Obligations.FrameValueChecks
  intro b k
  refine ⟨fun sentinel => ?_, fun other => ?_, fun long => ?_, fun fits => ?_⟩
  · exact if_pos sentinel
  · exact if_neg other
  · exact if_pos long
  · exact if_neg (Nat.not_lt.mpr fits)

end Sys2Proof.Machine
end

section
/-! PROOFS. The frame buffer under a running command: RECV_FRAME stores a byte at the cursor (O48), and SEND_FRAME only reads (O49). -/

namespace Sys2Proof.Machine

/-- Settles O48: the memory is `Memory.write` at the cursor. -/
theorem receivedPayloadByteIsStored : Obligations.ReceivedPayloadByteIsStored := by
  unfold Obligations.ReceivedPayloadByteIsStored
  intro b k hwf hcursor
  have hwrite := Inst.writeBuf_of_lt b.seq.shift hcursor
  refine ⟨b.buf.write b.seq.cursor b.seq.shift, ?_, Memory.write_wf _ _ hwf, fun j => ?_⟩
  · rw [Inst.perform, Inst.doRxStore, hwrite]
    rfl
  · rw [← hwrite]
    exact Inst.readBuf_writeBuf b.seq.shift j hcursor hwf

/-- A pass of the loop of PollWhile leaves BUF alone, however the poll goes on or ends (R97). -/
theorem Inst.doPollLoop_buf (b : Inst) (lv : Level) (bound : Nat) (use : PollUse) (k : List Micro) :
    (b.doPollLoop lv bound use k).buf = b.buf := by
  unfold Inst.doPollLoop
  split
  · cases use <;> rfl
  · split
    · rcases use with site | site | site <;> cases site <;> rfl
    · rfl

/-- Only the store of a received byte writes BUF (R57). -/
theorem Inst.perform_buf {m : Micro} (b : Inst) (k : List Micro) (hm : m ≠ .rxStore) : (b.perform m k).buf = b.buf := by
  cases m with
  | rxStore => exact absurd rfl hm
  | pollLoop lv bound use => exact b.doPollLoop_buf lv bound use k
  | sendBit | sendBitsLoop | recvBitsLoop | arbConfirm | startCondition | gap | addrByte | payload | checkAck | lenFirst
  | checkLen | rxPayload =>
    simp only [Inst.perform, Inst.doSendBit, Inst.doSendBitsLoop, Inst.doRecvBitsLoop, Inst.doArbConfirm, Inst.doStartCondition,
      Inst.doGap, Inst.doAddrByte, Inst.doPayload, Inst.doCheckAck, Inst.doLenFirst, Inst.doCheckLen, Inst.doRxPayload]
    split <;> rfl
  | arbLoop =>
    simp only [Inst.perform, Inst.doArbLoop]
    split
    · rfl
    · split <;> rfl
  | _ => rfl

/-- An operation leaves the command as it is, or ends it. -/
theorem Inst.Inv.perform_op {b : Inst} {m : Micro} {k : List Micro} (h : b.Inv) (hdue : b.due = some (m, k)) :
    (b.perform m k).seq.op = b.seq.op ∨ (b.perform m k).seq.op = none := by
  by_cases hm : m = .complete
  · subst hm
    exact .inr rfl
  · obtain ⟨-, op, -, htodo⟩ := h.todoOk_of_due hdue
    exact .inl (Inst.perform_running htodo hm h.cursor_le h.bit_le).op

/-- The store of a received byte stands in RECV_FRAME only (R130). -/
theorem Inst.Inv.op_of_rxStore_due {b : Inst} {k : List Micro} (h : b.Inv) (hdue : b.due = some (.rxStore, k)) :
    b.seq.op = some .recvFrame := by
  obtain ⟨-, op, hop, htodo⟩ := h.todoOk_of_due hdue
  simp only [todoOk, Bool.and_eq_true, beq_iff_eq] at htodo
  obtain ⟨⟨⟨⟨⟨⟨-, hrecv⟩, -⟩, -⟩, -⟩, -⟩, -⟩ := htodo
  exact hrecv ▸ hop

/-- Where no RECV_FRAME runs, a move starts none and leaves every byte of BUF as it is. -/
theorem Inst.Inv.auto_readBuf {b : Inst} (h : b.Inv) (hop : b.seq.op ≠ some .recvFrame) :
    b.auto.seq.op ≠ some .recvFrame ∧ ∀ j, b.auto.readBuf j = b.readBuf j := by
  cases hdue : b.due with
  | none =>
    rw [Inst.auto_tick hdue]
    exact ⟨hop, b.tick_readBuf⟩
  | some mk =>
    obtain ⟨m, k⟩ := mk
    rw [Inst.auto_due hdue]
    have hm : m ≠ .rxStore := fun hstore => hop (h.op_of_rxStore_due (hstore ▸ hdue))
    have hsame := b.perform_sameOutside m k
    refine ⟨?_, fun j => ?_⟩
    · rcases h.perform_op hdue with hkept | hended
      · rwa [hkept]
      · rw [hended]
        exact nofun
    · rw [Inst.readBuf, Inst.readBuf, b.perform_buf k hm, hsame.num, hsame.resets]

theorem Inst.Inv.moves_readBuf {b : Inst} (h : b.Inv) (hop : b.seq.op ≠ some .recvFrame) (n j : Nat) :
    (b.moves n).readBuf j = b.readBuf j := by
  induction n generalizing b with
  | zero => rfl
  | succ n ih =>
    obtain ⟨hop', hread⟩ := h.auto_readBuf hop
    rw [Inst.moves_succ, ih (Inst.auto_inv h) hop', hread]

/-- Settles O49: the payload loop at its head and at its SendByte, and no move but the store of a received byte writes BUF. -/
theorem sendFrameOnlyReadsBuf : Obligations.SendFrameOnlyReadsBuf := by
  unfold Obligations.SendFrameOnlyReadsBuf
  refine ⟨fun b k => ⟨fun more => ?_, fun done => ?_, rfl⟩, fun b n j h hop => ?_⟩
  · exact if_pos more
  · exact if_neg (Nat.not_lt.mpr done)
  · exact h.moves_readBuf (by rw [hop]; exact nofun) n j

end Sys2Proof.Machine
end

section
/-! PROOFS. Arbitration (O42), the start condition (O43), the gaps between bytes (O44), and a line that is never idle (O50). -/

namespace Sys2Proof.Machine

/-! ## Arbitration -/

/-- A released pin leaves the line to the peer (R90). -/
theorem Inst.line_of_released {b : Inst} (h : b.pin = .released) : b.line = if b.peerLow then .low else .high := by
  simp [Inst.line, h, Pin.released, Pin.drivesLow]

/-- An Arbitrate that began in `b`, `d` ticks later and at `todo` (R120). -/
def Inst.arbitrating (b : Inst) (d : Nat) (todo : List Micro) : Inst :=
  ((b.release.timeoutStart b.timing.tIdle).after d).goOn todo

theorem Inst.arbitrating_line (b : Inst) (d : Nat) (todo : List Micro) :
    (b.arbitrating d todo).line = if b.peerAt d then .low else .high := by
  have hpeer : (b.arbitrating d todo).peerLow = b.peerAt d := b.peerAt_after d 0
  rw [Inst.line_of_released rfl, hpeer]

theorem Inst.arbitrating_timeoutExpired (b : Inst) (d : Nat) (todo : List Micro) :
    (b.arbitrating d todo).timeoutExpired = true ↔ b.timing.tIdle ≤ d :=
  decide_eq_true_iff.trans Nat.add_le_add_iff_left

/-- One pass of the loop of Arbitrate: a HIGH sample is to be confirmed, a LOW one ends the frame at or after the timeout (R120). -/
theorem Inst.arbitrating_perform_arbLoop (b : Inst) (d : Nat) (k : List Micro) :
    (b.arbitrating d (.arbLoop :: k)).perform .arbLoop k =
      if b.peerAt d then
        if b.timing.tIdle ≤ d then (b.arbitrating d k).epilogue .arbitrationFault .arb
        else b.arbitrating d (.wait b.cfg.tPoll :: .arbLoop :: k)
      else b.arbitrating d (.wait b.cfg.tPoll :: .arbConfirm :: k) := by
  rw [Inst.perform, Inst.doArbLoop, b.arbitrating_line]
  cases b.peerAt d with
  | false => rfl
  | true =>
    rw [if_neg nofun, if_pos rfl]
    exact ite_congr (propext (b.arbitrating_timeoutExpired d _)) (fun _ => rfl) (fun _ => rfl)

/-- The confirming sample (R120). -/
theorem Inst.arbitrating_perform_arbConfirm (b : Inst) (d : Nat) (k : List Micro) :
    (b.arbitrating d (.arbConfirm :: k)).perform .arbConfirm k =
      if b.peerAt d then (b.arbitrating d k).epilogue .arbitrationFault .arb else b.arbitrating d k := by
  rw [Inst.perform, Inst.doArbConfirm, b.arbitrating_line]
  cases b.peerAt d <;> rfl

/-- The first poll time at or after the timeout has the index `ceil(T_IDLE / T_POLL)` (R120). -/
theorem tIdle_le_mul_iff {c : Params} (h : c.wf = true) (p : Profile) {i : Nat} :
    ((c.timing p).tIdle + c.tPoll - 1) / c.tPoll ≤ i ↔ (c.timing p).tIdle ≤ i * c.tPoll := by
  have hpoll := Params.tPoll_pos h
  rw [Nat.div_le_iff_le_mul hpoll]
  omega

section
variable {P : Inst → Prop} (hP : ∀ c : Inst, c.pin = .released → P c) {b : Inst} {d : Nat} {k : List Micro}
include hP

theorem Inst.arbitrating_leadsWhile_perform (m : Micro) :
    (b.arbitrating d (m :: k)).LeadsWhile P ((b.arbitrating d (m :: k)).perform m k) :=
  Inst.leadsWhile_perform (Inst.goOn_due _ _ _) (hP _ rfl)

theorem Inst.arbitrating_leadsWhile_wait (e : Nat) :
    (b.arbitrating d (.wait e :: k)).LeadsWhile P (b.arbitrating (d + e) k) := by
  have hwait := Inst.wait_leadsWhile (P := P) (b := (b.release.timeoutStart b.timing.tIdle).after d) (d := e) (k := k)
    (hP _ rfl) (fun _ _ => hP _ rfl)
  rwa [Inst.after_add] at hwait

/-- After a LOW sample before the timeout the next sample is T_POLL later. -/
theorem Inst.arbLoop_leadsWhile_next (low : b.peerAt d = true) (early : d < b.timing.tIdle) :
    (b.arbitrating d (.arbLoop :: k)).LeadsWhile P (b.arbitrating (d + b.cfg.tPoll) (.arbLoop :: k)) := by
  have hpass := Inst.arbitrating_leadsWhile_perform hP (b := b) (d := d) (k := k) .arbLoop
  rw [Inst.arbitrating_perform_arbLoop, if_pos low, if_neg (Nat.not_le.mpr early)] at hpass
  exact hpass.trans (Inst.arbitrating_leadsWhile_wait hP _)

/-- After a HIGH sample, whether the timeout has come or not, the sample T_POLL later decides. -/
theorem Inst.arbLoop_leadsWhile_confirmed (high : b.peerAt d = false) :
    (b.arbitrating d (.arbLoop :: k)).LeadsWhile P
      (if b.peerAt (d + b.cfg.tPoll) then (b.arbitrating (d + b.cfg.tPoll) k).epilogue .arbitrationFault .arb
      else b.arbitrating (d + b.cfg.tPoll) k) := by
  have hpass := Inst.arbitrating_leadsWhile_perform hP (b := b) (d := d) (k := k) .arbLoop
  rw [Inst.arbitrating_perform_arbLoop, if_neg (by rw [high]; exact Bool.false_ne_true)] at hpass
  rw [← Inst.arbitrating_perform_arbConfirm]
  exact (hpass.trans (Inst.arbitrating_leadsWhile_wait hP _)).trans (Inst.arbitrating_leadsWhile_perform hP .arbConfirm)

/-- Arbitrate up to the poll time of index `i`, where every sample before it is LOW and before the timeout. -/
theorem Inst.arbitrate_leadsWhile {i : Nat} (h : b.due = some (.arbitrate, k)) (hb : P b)
    (low : ∀ j, j < i → b.peerAt (j * b.cfg.tPoll) = true ∧ j * b.cfg.tPoll < b.timing.tIdle) :
    b.LeadsWhile P (b.arbitrating (i * b.cfg.tPoll) (.arbLoop :: k)) := by
  induction i with
  | zero =>
    rw [Nat.zero_mul, Inst.arbitrating, Inst.after_zero]
    exact Inst.leadsWhile_perform h hb
  | succ i ih =>
    obtain ⟨hlow, hearly⟩ := low i (Nat.lt_succ_self i)
    rw [Nat.succ_mul]
    exact (ih fun j hj => low j (Nat.lt_succ_of_lt hj)).trans (Inst.arbLoop_leadsWhile_next hP hlow hearly)

/-- Arbitrate on a line that is LOW up to the first sample at or after the timeout. -/
theorem Inst.arbitrate_leadsWhile_timeout (hwf : b.cfg.wf = true) (h : b.due = some (.arbitrate, k)) (hb : P b)
    (low : ∀ i, i * b.cfg.tPoll ≤ idleTicks b.cfg b.seq.p → b.peerAt (i * b.cfg.tPoll) = true) :
    b.LeadsWhile P ((b.arbitrating (idleTicks b.cfg b.seq.p) k).epilogue .arbitrationFault .arb) := by
  have hlate : b.timing.tIdle ≤ idleTicks b.cfg b.seq.p := (tIdle_le_mul_iff hwf b.seq.p).mp (Nat.le_refl _)
  have hloop : b.LeadsWhile P (b.arbitrating (idleTicks b.cfg b.seq.p) (.arbLoop :: k)) := by
    refine Inst.arbitrate_leadsWhile hP h hb fun j hj => ⟨low j (Nat.mul_le_mul_right _ (Nat.le_of_lt hj)), ?_⟩
    exact Nat.lt_of_not_le fun hle => absurd ((tIdle_le_mul_iff hwf b.seq.p).mpr hle) (Nat.not_le.mpr hj)
  have hlow : b.peerAt (idleTicks b.cfg b.seq.p) = true := low _ (Nat.le_refl _)
  have hlast := Inst.arbitrating_leadsWhile_perform hP (b := b) (d := idleTicks b.cfg b.seq.p) (k := k) .arbLoop
  rw [Inst.arbitrating_perform_arbLoop, if_pos hlow, if_pos hlate] at hlast
  exact hloop.trans hlast

end

/-- Settles O42: the first HIGH sample is confirmed by the next one, and without one the sample after the timeout ends the frame. -/
theorem arbitrationOutcome : Obligations.ArbitrationOutcome := by
  unfold Obligations.ArbitrationOutcome
  intro b rest hwf h
  have hreleased (c : Inst) (hc : c.pin = .released) : Inst.AtRest (fun d => d.pin = .released) c := fun _ => hc
  have hbegin : Inst.AtRest (fun d => d.pin = .released) b := Inst.atRest_of_due h
  refine ⟨fun k low high => ?idle, fun low => ?timeout⟩
  case idle =>
    have hrun := (Inst.arbitrate_leadsWhile hreleased h hbegin low).trans (Inst.arbLoop_leadsWhile_confirmed hreleased high)
    rw [← Nat.succ_mul] at hrun
    cases hconfirm : b.peerAt ((k + 1) * b.cfg.tPoll) with
    | true =>
      simp only [hconfirm, if_true] at hrun ⊢
      refine ⟨fun n hrest hn => hrun.before hn hrest, hrun.leads.imp fun n hend => ?_⟩
      rw [hend]
      exact ⟨rfl, rfl, rfl, rfl, rfl⟩
    | false =>
      simp only [hconfirm, Bool.false_eq_true, if_false] at hrun ⊢
      refine ⟨fun n hrest hn => hrun.before hn hrest, hrun.leads.imp fun n hend => ?_⟩
      rw [hend]
      exact ⟨rfl, rfl, rfl⟩
  case timeout =>
    have hrun := Inst.arbitrate_leadsWhile_timeout hreleased hwf h hbegin low
    refine ⟨fun n hrest hn => hrun.before hn hrest, hrun.leads.imp fun n hend => ?_⟩
    rw [hend]
    exact ⟨rfl, rfl, rfl, rfl, rfl⟩

/-! ## A line that is never idle -/

/-- A frame command is launched with its sequence in front, whose second operation is the arbitration (R125, R130). -/
theorem Inst.runCommand_frame {b : Inst} {i : Instr} {p : Profile} (on : b.status.en = true)
    (hi : (i = .sendFrame p ∧ b.txLen.toNat ≤ lmaxTx b.cfg) ∨ i = .recvFrame p) :
    ∃ op begin rest, (begin = .beginSend ∨ begin = .beginRecv) ∧
      b.runCommand i = b.launch op p (begin :: .arbitrate :: rest) := by
  rcases hi with ⟨rfl, len⟩ | rfl
  · exact ⟨.sendFrame, .beginSend, _, .inl rfl,
      by rw [Inst.runCommand, Inst.whenEnabled_on _ on, if_neg (Nat.not_lt.mpr len), sendFrameSteps]⟩
  · exact ⟨.recvFrame, .beginRecv, _, .inr rfl, by rw [Inst.runCommand, Inst.whenEnabled_on _ on, recvFrameSteps]⟩

/-- A launched frame command begins to arbitrate in the next tick (R62), with the pin, the configuration and the peer as at its launch. -/
theorem Inst.launch_leads_arbitrate {P : Inst → Prop} (hP : ∀ c : Inst, c.pin = .released → P c) {b : Inst} (hpin : b.pin = .released)
    (op : SeqOp) (p : Profile) {begin : Micro} (hbegin : begin = .beginSend ∨ begin = .beginRecv) (rest : List Micro) :
    ∃ c : Inst, (b.launch op p (begin :: .arbitrate :: rest)).LeadsWhile P c ∧ c.due = some (.arbitrate, rest) ∧
      c.cfg = b.cfg ∧ c.now = b.now + 1 ∧ c.pin = .released ∧ c.seq.p = p ∧ ∀ j, c.peerAt j = b.peerAt (1 + j) := by
  have hwait : (b.launch op p (begin :: .arbitrate :: rest)).LeadsWhile P
      ((b.launch op p (begin :: .arbitrate :: rest)).after 1) := Inst.leadsWhile_after rfl fun _ _ => hP _ hpin
  have hdue : ((b.launch op p (begin :: .arbitrate :: rest)).after 1).due = some (begin, .arbitrate :: rest) :=
    Inst.due_of_phase rfl (Nat.le_refl _)
  refine ⟨_, hwait.trans (Inst.leadsWhile_perform hdue (hP _ hpin)), ?_⟩
  rcases hbegin with rfl | rfl <;>
    exact ⟨Inst.goOn_due _ _ _, rfl, rfl, hpin, rfl, b.peerAt_after 1⟩

/-- Settles O50: the samples of the arbitration are all LOW up to the timeout, and the epilogue follows. -/
theorem neverIdleLineFailsSilently : Obligations.NeverIdleLineFailsSilently := by
  unfold Obligations.NeverIdleLineFailsSilently
  intro i p s t hi inv free on hexec low
  obtain ⟨op, begin, rest, hbegin, hlaunch⟩ := Inst.runCommand_frame (b := s.inst.cleared) on hi
  cases (exec_of_free i free).symm.trans hexec
  simp only [hlaunch]
  have hsilent (c : Inst) (hc : c.pin = .released) : c.pin.drivesLow = false := by rw [hc]; rfl
  obtain ⟨c, hbegun, hdue, hcfg, hnow, hpin, hp, hpeer⟩ :=
    Inst.launch_leads_arbitrate hsilent (b := s.inst.cleared) (inv.pin_released free) op p hbegin rest
  have hidle : idleTicks c.cfg c.seq.p = idleTicks s.inst.cfg p := by rw [hcfg, hp]; rfl
  have hlow (i : Nat) (hle : i * c.cfg.tPoll ≤ idleTicks c.cfg c.seq.p) : c.peerAt (i * c.cfg.tPoll) = true :=
    (hpeer _).trans (low _ (Nat.le_add_right _ _) (Nat.add_le_add_left (Nat.le_trans hle (Nat.le_of_eq hidle)) 1))
  have hfault := Inst.arbitrate_leadsWhile_timeout hsilent (hcfg ▸ inv.cfg_wf) hdue (hsilent _ hpin) hlow
  have hrun := (hbegun.trans hfault).trans (Inst.epilogue_leadsWhile _ _ fun d hd => hsilent d hd)
  refine ⟨hrun.always rfl fun _ => rfl, hrun.leads.imp fun n hend => ?_⟩
  rw [hend]
  refine ⟨?now, rfl, rfl, rfl, rfl, (Inst.complete_rxLen _).trans (if_neg fun ok => nomatch ok.1)⟩
  show c.now + idleTicks c.cfg c.seq.p + (c.cfg.timing c.seq.p).tIfd = _
  rw [hnow, hidle, hcfg, hp]
  rfl

/-! ## The start condition -/

/-- In a tick that began at `start`, LOW for `d` ticks and HIGH after them. -/
def Inst.LowFor (start d : Nat) (c : Inst) : Prop := c.pin.drivesLow = decide (c.now < start + d)

/-- LOW for T_START, and the change to HIGH, which takes no time (R121). -/
theorem Inst.startPulse_leadsWhile (b : Inst) (d : Nat) (k : List Micro) :
    (b.goOn (.hold .low d :: .hold .high 0 :: k)).LeadsWhile (Inst.AtRest (Inst.LowFor b.now d)) (((b.drive .high).after d).goOn k) := by
  have hlow : (b.goOn (.hold .low d :: .hold .high 0 :: k)).LeadsWhile (Inst.AtRest (Inst.LowFor b.now d))
      (((b.drive .low).after d).goOn (.hold .high 0 :: k)) :=
    Inst.hold_leadsWhile_atRest fun j hj => (decide_eq_true (Nat.add_lt_add_left hj _)).symm
  exact hlow.trans (Inst.hold_leadsWhile_atRest fun j hj => absurd hj (Nat.not_lt_zero j))

/-- Settles O43: the pulse, and for Slow a wait with the line at HIGH. -/
theorem startConditionWaveform : Obligations.StartConditionWaveform := by
  unfold Obligations.StartConditionWaveform
  intro b k h
  suffices hrun : b.LeadsWhile (Inst.AtRest (Inst.LowFor b.now b.timing.tStart))
      (((b.drive .high).after (startTicks b.cfg b.seq.p)).goOn k) from ⟨fun n hrest hn => hrun.before hn hrest, hrun.leads⟩
  have hbegin := Inst.leadsWhile_perform h (Inst.atRest_of_due (P := Inst.LowFor b.now b.timing.tStart) h)
  rw [Inst.perform, Inst.doStartCondition] at hbegin
  cases hp : b.seq.p with
  | slow =>
    simp only [hp] at hbegin
    have hpulse := hbegin.trans (b.startPulse_leadsWhile _ _)
    have hwait := hpulse.trans (Inst.wait_leadsWhile_atRest fun j _ => (decide_eq_false (Nat.not_lt.mpr (Nat.le_add_right _ _))).symm)
    rw [Inst.after_add] at hwait
    have htime : startTicks b.cfg .slow = b.timing.tStart + b.timing.tIbd := by simp [startTicks, Inst.timing, hp]
    rwa [htime]
  | fast =>
    simp only [hp] at hbegin
    have htime : startTicks b.cfg .fast = b.timing.tStart := by simp [startTicks, Inst.timing, hp]
    rw [htime]
    exact hbegin.trans (b.startPulse_leadsWhile _ _)

/-! ## The gaps between bytes -/

/-- The jitter of a gap is bounded (R123). -/
theorem jitter_le (c : Params) (draw : Nat) : jitter c draw ≤ c.ibdJitterMax := by
  unfold jitter
  split
  · exact Nat.zero_le _
  · exact Nat.le_of_lt_succ (Nat.mod_lt _ (Nat.succ_pos _))

/-- The length on the line in one byte (R77). -/
theorem lenBytes_one (l : Half) : lenBytes .one l = [BitVec.ofNat 8 l.toNat] := rfl

/-- The length on the line in two bytes, bits 10:8 and then bits 7:0 (R77). -/
theorem lenBytes_two (l : Half) : lenBytes .two l = [BitVec.ofNat 8 (l.toNat / 256 % 8), BitVec.ofNat 8 l.toNat] := by
  have hhigh : (l.extractLsb' 8 3).setWidth 8 = BitVec.ofNat 8 (l.toNat / 256 % 8) := by
    apply BitVec.eq_of_toNat_eq
    simp [Nat.shiftRight_eq_div_pow]
  rw [lenBytes, hhigh]
  rfl

/-- Settles O44: a gap takes no time or waits, and each step that stands for bytes expands to a gap before each of them. -/
theorem gapSeparatesBytes : Obligations.GapSeparatesBytes := by
  unfold Obligations.GapSeparatesBytes
  refine ⟨fun b k h => ⟨fun first => if_pos first, fun later => ?gap⟩, fun b k => ?steps, rfl, rfl⟩
  case gap =>
    have hgap := Inst.leads_perform h
    rw [Inst.perform, Inst.doGap, if_neg (by rw [later]; exact Bool.false_ne_true)] at hgap
    obtain ⟨n, hn⟩ := hgap.trans (Inst.leads_wait (Inst.goOn_due _ _ _))
    refine ⟨_, n, jitter_le b.cfg (Config.jitterDraw b.num b.gaps), ?_⟩
    rw [hn, Nat.add_assoc]
    rfl
  case steps =>
    refine ⟨rfl, rfl, ?addr, ?len, ?payload, rfl, ?request, ?second, ?rxPayload⟩
    case addr => exact (apply_ite b.goOn _ _ _).symm
    case payload => exact (apply_ite b.goOn _ _ _).symm
    case rxPayload => exact (apply_ite b.goOn _ _ _).symm
    case len =>
      rw [Inst.perform, Inst.doSendLength]
      cases b.cfg.lenWidth with
      | one => rw [lenBytes_one]; rfl
      | two => rw [lenBytes_two]; rfl
    case request =>
      rw [Inst.perform, Inst.doReadRequest]
      cases b.cfg.lenWidth <;> rfl
    case second =>
      intro two
      rw [Inst.perform, Inst.doLenFirst, two]
      rfl

end Sys2Proof.Machine
end

section
/-! PROOFS. The pulses of WAKE (O51) and RECOVER (O52). -/

namespace Sys2Proof.Machine

/-- Busy, with the pin LOW exactly in the `d` ticks from `start` on. -/
def Inst.BusyLowFor (start d : Nat) (c : Inst) : Prop :=
  c.status.busy = true ∧ (c.pin.drivesLow = true ↔ start ≤ c.now ∧ c.now < start + d)

/-- LOW for `d` ticks and HIGH for `e`, and the pin is released again (R150, R152). -/
theorem Inst.pulse_leadsWhile {b : Inst} (busy : b.status.busy = true) (hpin : b.pin = .released) (d e : Nat) (k : List Micro) :
    (b.goOn (.hold .low d :: .hold .high e :: .release :: k)).LeadsWhile (Inst.AtRest (Inst.BusyLowFor b.now d))
      ((b.after (d + e)).goOn k) := by
  have hlow : (b.goOn (.hold .low d :: .hold .high e :: .release :: k)).LeadsWhile (Inst.AtRest (Inst.BusyLowFor b.now d))
      (((b.drive .low).after d).goOn (.hold .high e :: .release :: k)) :=
    Inst.hold_leadsWhile_atRest fun j hj => ⟨busy, iff_of_true rfl ⟨Nat.le_add_right _ _, Nat.add_lt_add_left hj _⟩⟩
  have hhigh : (((b.drive .low).after d).goOn (.hold .high e :: .release :: k)).LeadsWhile (Inst.AtRest (Inst.BusyLowFor b.now d))
      ((((b.drive .high).after d).after e).goOn (.release :: k)) :=
    Inst.hold_leadsWhile_atRest fun j _ =>
      ⟨busy, iff_of_false Bool.false_ne_true fun h => absurd h.2 (Nat.not_lt.mpr (Nat.le_add_right _ _))⟩
  have hrelease := Inst.goOn_leadsWhile_perform (P := Inst.AtRest (Inst.BusyLowFor b.now d))
    (Inst.atRest_of_due (Inst.goOn_due (((b.drive .high).after d).after e) .release k))
  have hend : (((b.drive .high).after d).after e).release = b.after (d + e) := by
    rw [Inst.after_add]
    simp [Inst.release, Inst.drive, Inst.after, hpin]
  rw [← hend]
  exact (hlow.trans hhigh).trans hrelease

/-- A launched sequence starts in the next tick; until then nothing is driven (R62). -/
theorem Inst.launch_leadsWhile {b : Inst} (hpin : b.pin = .released) (op : SeqOp) (p : Profile) (steps : List Micro) (d : Nat) :
    (b.launch op p steps).LeadsWhile (Inst.AtRest (Inst.BusyLowFor (b.now + 1) d)) (((b.launch op p steps).after 1).goOn steps) := by
  refine Inst.leadsWhile_after (b := b.launch op p steps) rfl fun j hj _ => ⟨rfl, iff_of_false ?_ fun h => ?_⟩
  · show b.pin.drivesLow ≠ true
    rw [hpin]
    exact Bool.false_ne_true
  · exact absurd h.1 (Nat.not_le.mpr (Nat.add_lt_add_left hj _))

/-- Complete without the inter-frame delay takes no time, so nothing is asked of any tick (R150, R152). -/
theorem Inst.finish_leadsWhile {P : Inst → Prop} (b : Inst) (c : Code) (st : Stage) :
    (b.goOn [.finish c st]).LeadsWhile (Inst.AtRest P) (b.setResult c st).complete :=
  (Inst.goOn_leadsWhile_perform (Inst.atRest_of_due (Inst.goOn_due b _ _))).trans
    (Inst.goOn_leadsWhile_perform (Inst.atRest_of_due (Inst.goOn_due (b.setResult c st) _ _)))

/-- `b` after a command of `d` ticks that was launched when it was free and completes with Ok; `q` is what its launch gave `seq`. -/
def Inst.completedOk (b : Inst) (q : Seq) (d : Nat) : Inst :=
  { b.after d with
    rxLen := 0#16
    status := { b.status with done := true, code := .ok, stage := .none }
    seq := { q with op := none, code := .ok, stage := .none, phase := .idle } }

@[simp] theorem Inst.completedOk_now (b : Inst) (q : Seq) (d : Nat) : (b.completedOk q d).now = b.now + d := rfl

/-- A command other than RECV_FRAME, from its launch to its completion with Ok (R160, R124). -/
theorem Inst.launched_complete_ok {b : Inst} (free : b.status.busy = false) {op : SeqOp} (hop : op ≠ .recvFrame) (p : Profile)
    (steps : List Micro) (d : Nat) :
    (((b.cleared.launch op p steps).after d).setResult .ok .none).complete =
      b.completedOk (b.cleared.launch op p steps).seq d := by
  simp [Inst.complete, Inst.completedOk, Inst.setResult, Inst.after, Inst.launch, Inst.cleared, free, hop]

/-- A pulse that is launched while no command runs, in every tick and at its completion with Ok. -/
theorem Inst.launched_pulse_leadsWhile {b : Inst} (free : b.status.busy = false) (hpin : b.pin = .released) {op : SeqOp}
    (hop : op ≠ .recvFrame) (p : Profile) (d e : Nat) {steps : List Micro}
    (hsteps : steps = [.hold .low d, .hold .high e, .release, .finish .ok .none]) :
    (b.cleared.launch op p steps).LeadsWhile (Inst.AtRest (Inst.BusyLowFor (b.now + 1) d))
      (b.completedOk (b.cleared.launch op p steps).seq (1 + d + e)) := by
  have hpulse := Inst.pulse_leadsWhile (b := (b.cleared.launch op p steps).after 1) rfl hpin d e [.finish .ok .none]
  rw [← hsteps] at hpulse
  have hrun := ((b.cleared.launch_leadsWhile hpin op p steps d).trans hpulse).trans (Inst.finish_leadsWhile _ .ok .none)
  rwa [Inst.after_add, ← Nat.add_assoc, Inst.launched_complete_ok free hop] at hrun

/-- A Fast RECOVER completes in the tick after its launch, and drives nothing on the way (R152). -/
theorem Inst.launched_fastRecover_leadsWhile {b : Inst} (free : b.status.busy = false) (hpin : b.pin = .released) :
    (b.cleared.launch .recover .fast (recoverSteps b.cfg .fast)).LeadsWhile (Inst.AtRest (Inst.BusyLowFor (b.now + 1) 0))
      (b.completedOk (b.cleared.launch .recover .fast (recoverSteps b.cfg .fast)).seq 1) := by
  have hrun := (b.cleared.launch_leadsWhile hpin .recover .fast (recoverSteps b.cfg .fast) 0).trans
    (Inst.finish_leadsWhile _ .ok .none)
  rwa [Inst.launched_complete_ok free (op := .recover) nofun] at hrun

/-- Settles O51: the sequence of WAKE is one pulse. -/
theorem wakeRunsItsPulse : Obligations.WakeRunsItsPulse := by
  unfold Obligations.WakeRunsItsPulse
  intro p s t inv free on hexec
  cases (exec_of_free (.wake p) free).symm.trans hexec
  have hlaunch : s.inst.cleared.runCommand (.wake p) = s.inst.cleared.launch .wake p (wakeSteps s.inst.cfg) := by
    rw [Inst.runCommand, Inst.whenEnabled_on (b := s.inst.cleared) _ on]
    rfl
  simp only [hlaunch]
  have hrun := Inst.launched_pulse_leadsWhile (op := .wake) (steps := wakeSteps s.inst.cfg) free (inv.pin_released free) nofun p _ _ rfl
  refine ⟨fun n hrest hn => hrun.before (Nat.lt_of_lt_of_eq hn ?_) hrest, hrun.leads⟩
  simp only [Inst.completedOk_now, Nat.add_assoc]

/-- Settles O52: the Slow form is one pulse of two times T_REC, and the Fast form completes in the next tick. -/
theorem recoverRunsItsPulse : Obligations.RecoverRunsItsPulse := by
  unfold Obligations.RecoverRunsItsPulse
  intro p s t inv free on hexec
  cases (exec_of_free (.recover p) free).symm.trans hexec
  have hlaunch : s.inst.cleared.runCommand (.recover p) = s.inst.cleared.launch .recover p (recoverSteps s.inst.cfg p) := by
    rw [Inst.runCommand, Inst.whenEnabled_on (b := s.inst.cleared) _ on]
    rfl
  simp only [hlaunch]
  have hpin := inv.pin_released free
  cases p with
  | slow =>
    have htime : 1 + tRec s.inst.cfg + tRec s.inst.cfg = 1 + 200000 * s.inst.cfg.ticksPerUs := by
      simp only [tRec, Config.tRecUs]
      omega
    have hrun := Inst.launched_pulse_leadsWhile (op := .recover) (steps := recoverSteps s.inst.cfg .slow) free hpin nofun .slow _ _ rfl
    rw [htime] at hrun
    simp only [if_true, true_and]
    refine ⟨fun n hrest hn => hrun.before (Nat.lt_of_lt_of_eq hn ?_) hrest, hrun.leads⟩
    rw [Inst.completedOk_now, Nat.add_assoc]
  | fast =>
    have hrun := Inst.launched_fastRecover_leadsWhile free hpin
    simp only [reduceCtorEq, if_false, false_and, iff_false, Nat.add_zero]
    refine ⟨fun n hrest hn => ?_, hrun.leads⟩
    obtain ⟨busy, hlow⟩ := hrun.before hn hrest
    exact ⟨busy, fun low => absurd (hlow.mp low).2 (Nat.not_lt.mpr (hlow.mp low).1)⟩

end Sys2Proof.Machine
end

section
/-! PROOFS. A running command neither reads nor writes CTRL, ADDR and LEN (O35). -/

namespace Sys2Proof.Machine

/-- The instance with other values in the host's operand registers CTRL, ADDR and LEN (R28, R30, R31). -/
def Inst.withOperands (b : Inst) (ie : Bool) (devAddr : Byte) (txLen : Half) : Inst :=
  { b with ie := ie, devAddr := devAddr, txLen := txLen }

section
variable (b : Inst) (e : Bool) (a : Byte) (l : Half)

theorem Inst.withOperands_ite (c : Prop) [Decidable c] (x y : Inst) :
    (if c then x else y).withOperands e a l = if c then x.withOperands e a l else y.withOperands e a l :=
  apply_ite (Inst.withOperands · e a l) c x y

theorem Inst.withOperands_raiseAt (site : Site) (c : Code) :
    (b.withOperands e a l).raiseAt site c = (b.raiseAt site c).withOperands e a l := by
  cases site <;> rfl

theorem Inst.withOperands_pollTimeout (use : PollUse) :
    (b.withOperands e a l).pollTimeout use = (b.pollTimeout use).withOperands e a l := by
  cases use <;> exact b.withOperands_raiseAt e a l _ _

theorem Inst.withOperands_polled (use : PollUse) (c : Nat) (k : List Micro) :
    (b.withOperands e a l).polled use c k = (b.polled use c k).withOperands e a l := by
  cases use <;> rfl

theorem Inst.withOperands_doPollLoop (lv : Level) (bound : Nat) (use : PollUse) (k : List Micro) :
    (b.withOperands e a l).doPollLoop lv bound use k = (b.doPollLoop lv bound use k).withOperands e a l := by
  simp only [Inst.doPollLoop, Inst.withOperands_ite, ← Inst.withOperands_polled, ← Inst.withOperands_pollTimeout]
  rfl

theorem Inst.withOperands_writeBuf (j : Nat) (v : Byte) :
    (b.withOperands e a l).writeBuf j v = (b.writeBuf j v).withOperands e a l := by
  simp only [Inst.writeBuf, Inst.withOperands_ite]
  rfl

/-- Every operation does the same whatever CTRL, ADDR and LEN hold, and leaves them as they are (R66, R161). -/
theorem Inst.withOperands_perform (m : Micro) (k : List Micro) :
    (b.withOperands e a l).perform m k = (b.perform m k).withOperands e a l := by
  cases m with
  | sendBit | sendBitsLoop | recvBitsLoop | arbLoop | arbConfirm | gap | addrByte | payload | checkAck | checkLen | rxPayload =>
    simp only [Inst.perform, Inst.doSendBit, Inst.doSendBitsLoop, Inst.doRecvBitsLoop, Inst.doArbLoop, Inst.doArbConfirm, Inst.doGap,
      Inst.doAddrByte, Inst.doPayload, Inst.doCheckAck, Inst.doCheckLen, Inst.doRxPayload, Inst.withOperands_ite]
    rfl
  | startCondition =>
    have hp : (b.withOperands e a l).seq.p = b.seq.p := rfl
    simp only [Inst.perform, Inst.doStartCondition, hp]
    split <;> rfl
  | lenFirst =>
    have hwidth : (b.withOperands e a l).cfg.lenWidth = b.cfg.lenWidth := rfl
    simp only [Inst.perform, Inst.doLenFirst, hwidth]
    split <;> rfl
  | rxStore =>
    have hwrite := b.withOperands_writeBuf e a l b.seq.cursor b.seq.shift
    exact congrArg (fun c : Inst => { c with seq := { b.seq with cursor := b.seq.cursor + 1 } }.goOn (.rxPayload :: k)) hwrite
  | pollLoop lv bound use => exact b.withOperands_doPollLoop e a l lv bound use k
  | _ => rfl

/-- What is due does not depend on CTRL, ADDR and LEN either, and a tick leaves them as they are. -/
theorem Inst.withOperands_auto : (b.withOperands e a l).auto = b.auto.withOperands e a l := by
  have hdue : (b.withOperands e a l).due = b.due := rfl
  cases h : b.due with
  | none => rw [Inst.auto_tick h, Inst.auto_tick (hdue.trans h)]; rfl
  | some mk => rw [Inst.auto_due h, Inst.auto_due (hdue.trans h), Inst.withOperands_perform]

theorem Inst.withOperands_moves (n : Nat) : (b.withOperands e a l).moves n = (b.moves n).withOperands e a l := by
  induction n generalizing b with
  | zero => rfl
  | succ n ih => rw [Inst.moves_succ, Inst.moves_succ, Inst.withOperands_auto, ih]

end

/-- Settles O35: by `Inst.withOperands_perform`, over the moves. -/
theorem operandsAreLatched : Obligations.OperandsAreLatched := by
  unfold Obligations.OperandsAreLatched
  exact fun b n e a l => b.withOperands_moves e a l n

end Sys2Proof.Machine
end

section
/-! PROOFS. A CMD write is the command its word decodes to (O8, O9). -/

namespace Sys2Proof.Machine

/-- A CMD write that is the next host access runs the command of its word on the instance it addresses (R29, R160). -/
theorem State.Accesses.step_cmd {s s' : State} {n : Nat} {w : Word} (h : s.Accesses n (.write 0x008 32 w) s') :
    step s = exec (decode w) s' :=
  h.step_of_command (State.access_write_cmd w (target_register s'.inst.cfg (by decide) rfl))

/-- The decoder reads an encoded command back, with its operands (R68, R69). -/
theorem decode_encode {i : Instr} (wf : i.wf = true) : decode (encode i) = i := by
  cases i with
  | sendFrame p | recvFrame p | wake p | recover p => cases p <;> rfl
  | reserved8F op =>
    revert op
    decide
  | _ => rfl

/-- Settles O8: from `State.Accesses.step_cmd`, and `decode_encode` for the word of a command. -/
theorem stepRunsDecodedCommand : Obligations.StepRunsDecodedCommand := by
  unfold Obligations.StepRunsDecodedCommand
  refine ⟨fun s s' n w hacc => hacc.step_cmd, fun s s' n i wf hacc => ?_⟩
  rw [hacc.step_cmd, decode_encode wf]

/-- The next host access after `State.withFetchWord` is the CMD write it places, at the mark. -/
theorem State.withFetchWord_accesses (s : State) (nbits w : Nat) :
    (s.withFetchWord nbits w).Accesses s.lower.length (.write 0x008 32 (BitVec.ofNat 32 (w % 2 ^ nbits))) { s with turn := .host } :=
  ⟨rfl, s.host, rfl, State.focus_self { s with turn := .host }⟩

/-- A table word the decoder reads is at most one word long, its missing high bits 0. -/
theorem decode_of_decodeTableWord {nbits w : Nat} {i : Instr} (h : decodeTableWord nbits w = some i) :
    decode (BitVec.ofNat 32 (w % 2 ^ nbits)) = i := by
  by_cases hlen : nbits ≤ 32
  · simpa [decodeTableWord, decodeBits, hlen] using h
  · simp [decodeTableWord, decodeBits, hlen] at h

/-- Settles O9: `State.withFetchWord` makes the CMD write the next access. -/
theorem fetchWordRunsNext : Obligations.FetchWordRunsNext := by
  unfold Obligations.FetchWordRunsNext
  intro s nbits w i hdec
  rw [(s.withFetchWord_accesses nbits w).step_cmd, decode_of_decodeTableWord hdec]

end Sys2Proof.Machine
end

section
/-! PROOFS. What each command does at once: a lost command (O12), the commands that complete inside the CMD write (O13 to O16), and
the launches (O17 to O20). -/

namespace Sys2Proof.Machine

/-! ## A command that completes at once -/

/-- Settles O12: this is `exec_of_busy`. -/
theorem busyCommandOnlySetsCmdLost : Obligations.BusyCommandOnlySetsCmdLost := by
  unfold Obligations.BusyCommandOnlySetsCmdLost
  exact fun i s busy => exec_of_busy i busy

/-- Settles O13: both are accepted in any state of EN. -/
theorem initAndDeinitCompleteAtOnce : Obligations.InitAndDeinitCompleteAtOnce := by
  unfold Obligations.InitAndDeinitCompleteAtOnce
  exact fun s free => ⟨exec_of_free .init free, exec_of_free .deinit free⟩

/-- A command that completes at once with the code `c` writes the result and RXLEN alone (R160). -/
theorem exec_of_completeNow {s : State} {i : Instr} {c : Code} (free : s.inst.status.busy = false)
    (h : s.inst.cleared.runCommand i = s.inst.cleared.completeNow c) :
    exec i s = .next { s with inst := { s.inst with
      rxLen := 0#16
      status := { s.inst.status with done := true, code := c, stage := .none } } } := by
  rw [exec_of_free i free, h]
  rfl

/-- Settles O14: whatever the code, the command completes with CommandRejected. -/
theorem reservedCommandIsRejected : Obligations.ReservedCommandIsRejected := by
  unfold Obligations.ReservedCommandIsRejected
  rintro i s hi free
  refine exec_of_completeNow free ?_
  rcases hi with rfl | rfl | ⟨op, rfl⟩ <;> rfl

/-- Settles O15: `Inst.runCommand_of_disabled` for each of the four. -/
theorem disabledBlockRejectsSequencedCommand : Obligations.DisabledBlockRejectsSequencedCommand := by
  unfold Obligations.DisabledBlockRejectsSequencedCommand
  intro i s hi free off
  have hseq : ∃ p, i = .sendFrame p ∨ i = .recvFrame p ∨ i = .wake p ∨ i = .recover p := by
    simpa only [exists_or] using hi
  obtain ⟨p, hp⟩ := hseq
  exact exec_of_completeNow free (Inst.runCommand_of_disabled off hp)

/-- Settles O16: the bound of R162 is LMAX_TX (`lmaxTx_eq`). -/
theorem overlongSendOverrunsAtLaunch : Obligations.OverlongSendOverrunsAtLaunch := by
  unfold Obligations.OverlongSendOverrunsAtLaunch
  simp only [← lmaxTx_eq]
  intro p s free on long
  refine exec_of_completeNow free ?_
  rw [Inst.runCommand, Inst.whenEnabled_on (b := s.inst.cleared) _ on]
  exact if_pos long

/-! ## A command that is launched -/

/-- A launched command copies its operands, sets BUSY, and begins its sequence in the next tick (R160, R161, R62). -/
theorem exec_of_launch {s : State} {i : Instr} {op : SeqOp} {p : Profile} {steps : List Micro} (free : s.inst.status.busy = false)
    (h : s.inst.cleared.runCommand i = s.inst.cleared.launch op p steps) :
    exec i s = .next { s with inst := { s.inst with
      rxLen := 0#16
      status := { s.inst.status with busy := true, done := false, code := .ok, stage := .none }
      seq := { s.inst.seq with
        op := some op, p := p, addr := s.inst.devAddr, len := s.inst.txLen, phase := .run (s.inst.now + 1) steps } } } := by
  rw [exec_of_free i free, h]
  rfl

/-- Settles O17: within LMAX_TX (`lmaxTx_eq`) the sequence is `sendFrameSteps`. -/
theorem sendFrameLaunches : Obligations.SendFrameLaunches := by
  unfold Obligations.SendFrameLaunches
  simp only [← lmaxTx_eq]
  intro p s free on len
  refine exec_of_launch free ?_
  rw [Inst.runCommand, Inst.whenEnabled_on (b := s.inst.cleared) _ on]
  exact if_neg (Nat.not_lt.mpr len)

/-- Settles O18: the sequence is `recvFrameSteps`. -/
theorem recvFrameLaunches : Obligations.RecvFrameLaunches := by
  unfold Obligations.RecvFrameLaunches
  intro p s free on
  exact exec_of_launch free (Inst.whenEnabled_on (b := s.inst.cleared) (fun b => b.launch .recvFrame p recvFrameSteps) on)

/-- Settles O19: the sequence is `wakeSteps`. -/
theorem wakeLaunches : Obligations.WakeLaunches := by
  unfold Obligations.WakeLaunches
  intro p s free on
  exact exec_of_launch free (Inst.whenEnabled_on (b := s.inst.cleared) (fun b => b.launch .wake p (wakeSteps b.cfg)) on)

/-- Settles O20: the sequence is `recoverSteps`, by the profile. -/
theorem recoverLaunches : Obligations.RecoverLaunches := by
  unfold Obligations.RecoverLaunches
  intro p s free on
  have hlaunch := Inst.whenEnabled_on (b := s.inst.cleared) (fun b => b.launch .recover p (recoverSteps b.cfg p)) on
  cases p <;> exact exec_of_launch free hlaunch

end Sys2Proof.Machine
end

section
/-! PROOFS. An instance that runs no command drives nothing, and one that runs a command shows no completion (O55). -/

namespace Sys2Proof.Machine

/-- While no command runs the instance does not drive the line: its pin is released (R196). -/
theorem Inst.Inv.drivesLow_of_free {b : Inst} (h : b.Inv) (free : b.status.busy = false) : b.pin.drivesLow = false := by
  rw [h.pin_released free]
  rfl

/-- A disabled instance runs no command, since a running one is enabled (R160). -/
theorem Inst.Inv.free_of_disabled {b : Inst} (h : b.Inv) (off : b.status.en = false) : b.status.busy = false := by
  refine Bool.eq_false_iff.mpr fun busy => ?_
  obtain ⟨on, -⟩ := h.busy busy
  exact absurd (off.symm.trans on) Bool.false_ne_true

/-- Settles O55: the invariant holds along the run, and in it a free instance is idle with its pin released, a disabled one is free, and
a busy one has DONE = 0. -/
theorem idleInstanceDrivesNothing : Obligations.IdleInstanceDrivesNothing := by
  unfold Obligations.IdleInstanceDrivesNothing
  intro s t k h hrun b hb
  have hinv : b.Inv := (h.run hrun).insts b hb
  refine ⟨fun free => ⟨hinv.drivesLow_of_free free, ?idle⟩,
    fun off => hinv.drivesLow_of_free (hinv.free_of_disabled off), fun busy => ?notDone⟩
  case idle =>
    obtain ⟨hphase, -⟩ := hinv.idle free
    exact hphase
  case notDone =>
    obtain ⟨-, hdone, -⟩ := hinv.busy busy
    exact hdone

end Sys2Proof.Machine
end

section
/-! PROOFS. The reset input (O6). -/

namespace Sys2Proof.Machine

/-- The reset input is `Inst.reset` of the instance that it names (R210). -/
theorem step_of_reset {s s' : State} {n : Nat} {ops : List HostOp} (hturn : s.turn = .host) (hops : s.host = .reset n :: ops)
    (hfocus : { s with host := ops }.focus n = some s') : step s = .next (s'.onInst Inst.reset) :=
  step_of_hostMove_go hturn (by simp only [State.hostMove, hops, hfocus])

/-- Settles O6: `Inst.reset` is `Inst.initial` with one more reset counted and the environment as it was. -/
theorem resetInputRestoresTableValues : Obligations.ResetInputRestoresTableValues := by
  unfold Obligations.ResetInputRestoresTableValues
  intro s s' n ops hturn hops hfocus
  have hstatus : Status.initial.word = 0#32 := by decide
  exact ⟨s'.inst.reset, step_of_reset hturn hops hfocus, rfl, rfl, rfl, rfl, rfl, rfl, rfl, rfl, hstatus, rfl, rfl, rfl,
    Inst.readBuf_initial s'.inst.cfg s'.inst.num (s'.inst.resets + 1)⟩

end Sys2Proof.Machine
end

section
/-! PROOFS. The longest time of each operation of a frame, whatever the peer does: a rule per operation, which adds its ticks to the time
that what follows it takes from any instance that the operation can lead to (R230). -/

namespace Sys2Proof.Machine

/-! ## Completion in time -/

/-- `b`, left to itself, completes its command within `ticks` ticks and the inter-frame delay of its profile (R134). -/
def Inst.EndsWithin (b : Inst) (ticks : Nat) : Prop :=
  ∃ n, (b.moves n).status.busy = false ∧ (b.moves n).status.done = true ∧ (b.moves n).now ≤ b.now + ticks + b.timing.tIfd

/-- `c` has the configuration and the profile of `b`, and so its timing table (R7). -/
structure Inst.SameTiming (b c : Inst) : Prop where
  cfg : c.cfg = b.cfg
  profile : c.seq.p = b.seq.p

theorem Inst.SameTiming.trans {a b c : Inst} (hab : a.SameTiming b) (hbc : b.SameTiming c) : a.SameTiming c :=
  ⟨hbc.cfg.trans hab.cfg, hbc.profile.trans hab.profile⟩

theorem Inst.SameTiming.timing {b c : Inst} (h : b.SameTiming c) : c.timing = b.timing := by
  rw [Inst.timing, Inst.timing, h.cfg, h.profile]

/-- `c` runs the frame that `b` runs, at the same place of its payload. -/
structure Inst.Continues (b c : Inst) : Prop extends b.SameTiming c where
  addr : c.seq.addr = b.seq.addr
  len : c.seq.len = b.seq.len
  cursor : c.seq.cursor = b.seq.cursor

theorem Inst.Continues.refl (b : Inst) : b.Continues b := ⟨⟨rfl, rfl⟩, rfl, rfl, rfl⟩

theorem Inst.Continues.trans {a b c : Inst} (hab : a.Continues b) (hbc : b.Continues c) : a.Continues c where
  toSameTiming := hab.toSameTiming.trans hbc.toSameTiming
  addr := hbc.addr.trans hab.addr
  len := hbc.len.trans hab.len
  cursor := hbc.cursor.trans hab.cursor

section
variable {b c : Inst} {d ticks : Nat} {k : List Micro}

theorem Inst.EndsWithin.mono (h : b.EndsWithin d) (hle : d ≤ ticks) : b.EndsWithin ticks := by
  obtain ⟨n, hbusy, hdone, hnow⟩ := h
  exact ⟨n, hbusy, hdone, by omega⟩

/-- A part of the run that takes at most `d` ticks adds them. -/
theorem Inst.Leads.endsWithin (h : b.Leads c) (time : c.now ≤ b.now + d) (timing : c.timing = b.timing)
    (hc : c.EndsWithin ticks) : b.EndsWithin (d + ticks) := by
  obtain ⟨m, rfl⟩ := h
  obtain ⟨n, hbusy, hdone, hnow⟩ := hc
  refine ⟨m + n, ?_⟩
  rw [Inst.moves_add]
  rw [timing] at hnow
  exact ⟨hbusy, hdone, by omega⟩

/-- Performing an operation takes no time. -/
theorem Inst.perform_endsWithin {m : Micro} (h : b.perform m k = c) (hc : c.EndsWithin ticks) (timing : c.timing = b.timing) :
    (b.goOn (m :: k)).EndsWithin ticks := by
  subst h
  have hperform := (b.goOn_leads_perform m k).endsWithin (d := 0) (Nat.le_of_eq (b.perform_now m k)) timing hc
  rwa [Nat.zero_add] at hperform

end

/-- The epilogue ends the frame after the inter-frame delay (R134). -/
theorem Inst.epilogue_endsWithin (b : Inst) (code : Code) (st : Stage) (ticks : Nat) : (b.epilogue code st).EndsWithin ticks := by
  obtain ⟨n, hn⟩ := b.epilogue_leads code st
  refine ⟨n, ?_⟩
  rw [hn]
  exact ⟨rfl, rfl, Nat.add_le_add_right (Nat.le_add_right b.now ticks) b.timing.tIfd⟩

theorem Inst.finish_endsWithin (b : Inst) (code : Code) (st : Stage) (ticks : Nat) : (b.finish code st).EndsWithin ticks := by
  obtain ⟨n, hn⟩ := b.finish_leads code st
  refine ⟨n, ?_⟩
  rw [hn]
  exact ⟨rfl, rfl, Nat.le_add_right_of_le (Nat.le_add_right b.now ticks)⟩

/-- A failed byte operation ends the frame, at once after the device-address byte and else with the epilogue (R126). -/
theorem Inst.raiseAt_endsWithin (b : Inst) (site : Site) (code : Code) (ticks : Nat) : (b.raiseAt site code).EndsWithin ticks := by
  cases site with
  | addr => exact b.finish_endsWithin _ _ ticks
  | _ => exact b.epilogue_endsWithin _ _ ticks

theorem Inst.pollTimeout_endsWithin (b : Inst) (use : PollUse) (ticks : Nat) : (b.pollTimeout use).EndsWithin ticks := by
  cases use <;> exact b.raiseAt_endsWithin _ _ ticks

theorem Inst.raiseAt_timing (b : Inst) (site : Site) (code : Code) : (b.raiseAt site code).timing = b.timing := by
  cases site <;> rfl

theorem Inst.pollTimeout_timing (b : Inst) (use : PollUse) : (b.pollTimeout use).timing = b.timing := by
  cases use <;> exact b.raiseAt_timing _ _

theorem Inst.polled_timing (b : Inst) (use : PollUse) (count : Nat) (k : List Micro) :
    (b.polled use count k).timing = b.timing := by
  cases use <;> rfl

/-! ## The longest times -/

/-- The longest time of a received bit: its two polls (R103). -/
def Inst.bitTicks (b : Inst) : Nat := (b.timing.nRxto - 1) * b.cfg.tPoll + (b.timing.nRxto - 1) * b.cfg.tPoll

/-- The longest time of a byte that the block sends, with its gap: SB and G (R230). -/
def Inst.sendTicks (b : Inst) : Nat := longestSend b.cfg b.seq.p + longestGap b.cfg b.seq.p

/-- The longest time of a byte that the block receives, with its gap: RB and G (R230). -/
def Inst.recvTicks (b : Inst) : Nat := longestRecv b.cfg b.seq.p + longestGap b.cfg b.seq.p

theorem Inst.SameTiming.bitTicks {b c : Inst} (h : b.SameTiming c) : c.bitTicks = b.bitTicks := by
  rw [Inst.bitTicks, Inst.bitTicks, h.timing, h.cfg]

theorem Inst.SameTiming.sendTicks {b c : Inst} (h : b.SameTiming c) : c.sendTicks = b.sendTicks := by
  rw [Inst.sendTicks, Inst.sendTicks, h.cfg, h.profile]

theorem Inst.SameTiming.recvTicks {b c : Inst} (h : b.SameTiming c) : c.recvTicks = b.recvTicks := by
  rw [Inst.recvTicks, Inst.recvTicks, h.cfg, h.profile]

/-! ## The polls -/

/-- A property of numbers holds everywhere, or there is a first place where it does not. -/
theorem forall_or_first (P : Nat → Prop) : (∀ i, P i) ∨ ∃ c, ¬P c ∧ ∀ i, i < c → P i := by
  by_cases h : ∃ c, ¬P c ∧ ∀ i, i < c → P i
  · exact .inr h
  · refine .inl fun i => ?_
    induction i using Nat.strongRecOn with
    | ind i ih => exact Classical.byContradiction fun hi => h ⟨i, hi, ih⟩

/-- A poll ends with a count or with TIMEOUT, at the latest at its last sample (R97). -/
theorem Inst.poll_outcome (b : Inst) (lv : Level) {bound : Nat} (use : PollUse) (k : List Micro) (hpoll : 0 < b.cfg.tPoll)
    (hbound : 0 < bound) :
    (∃ c, c < bound ∧ (b.goOn (.poll lv bound use :: k)).Leads ((b.pollEnd c c).polled use c k)) ∨
      (b.goOn (.poll lv bound use :: k)).Leads ((b.pollEnd (bound - 1) bound).pollTimeout use) := by
  obtain ⟨hcount, htimeout⟩ :=
    pollWhileCountsOrTimesOut (b.goOn (.poll lv bound use :: k)) lv bound use k (Inst.goOn_due b _ k) hpoll hbound
  rcases forall_or_first fun i => i < bound → b.lineAt (i * b.cfg.tPoll) = lv with hall | ⟨c, hend, hbefore⟩
  · rw [← (b.pollEnd (bound - 1) bound).pollTimeout_atPhase b.now (.poll lv bound use :: k)]
    exact .inr (htimeout hall)
  · obtain ⟨hc, hend⟩ := Classical.not_imp.mp hend
    refine .inl ⟨c, hc, ?_⟩
    rw [← (b.pollEnd c c).polled_atPhase b.now (.poll lv bound use :: k)]
    exact hcount c hc (fun i hi => hbefore i hi (Nat.lt_trans hi hc)) hend

section
variable {b : Inst} {ticks : Nat} {k : List Micro}

/-- A poll adds the ticks between its first sample and its last (R97). -/
theorem Inst.poll_endsWithin {lv : Level} {bound : Nat} {use : PollUse} (wf : b.cfg.wf = true) (hbound : 0 < bound)
    (next : ∀ c, ((b.pollEnd c c).polled use c k).EndsWithin ticks) :
    (b.goOn (.poll lv bound use :: k)).EndsWithin ((bound - 1) * b.cfg.tPoll + ticks) := by
  rcases b.poll_outcome lv use k (Params.tPoll_pos wf) hbound with ⟨c, hc, hcount⟩ | htimeout
  · refine hcount.endsWithin ?_ (Inst.polled_timing _ use c k) (next c)
    rw [((b.pollEnd c c).polled_sameOutside use c k).now]
    exact Nat.add_le_add_left (Nat.mul_le_mul_right _ (Nat.le_sub_one_of_lt hc)) _
  · refine htimeout.endsWithin ?_ (Inst.pollTimeout_timing _ use) (Inst.pollTimeout_endsWithin _ use ticks)
    exact Nat.le_of_eq ((b.pollEnd (bound - 1) bound).pollTimeout_sameOutside use).now

/-! ## The byte operations -/

/-- A SendByte adds at most SB (R114). -/
theorem Inst.sendByte_endsWithin {v : Byte} {site : Site} (wf : b.cfg.wf = true)
    (next : ∀ c, b.Continues c → (c.goOn k).EndsWithin ticks) :
    (b.goOn (.sendByte v site :: k)).EndsWithin (longestSend b.cfg b.seq.p + ticks) := by
  have hpos := Params.nAck_pos wf
  have hlow (a : Nat) : (((b.byteSent v).pollEnd a a).goOn (.poll .low b.cfg.nAck (.ack site) :: k)).EndsWithin
      ((b.cfg.nAck - 1) * b.cfg.tPoll + ticks) :=
    Inst.poll_endsWithin (b := (b.byteSent v).pollEnd a a) wf hpos fun c => next _ ⟨⟨rfl, rfl⟩, rfl, rfl, rfl⟩
  have hpolls := Inst.poll_endsWithin (b := b.byteSent v) (lv := .high) (use := .ack site) wf hpos hlow
  have hsent := (Inst.sendByte_leads (Inst.goOn_due b (.sendByte v site) k)).endsWithin
    (d := 9 * symbolTicks b.timing) (Nat.le_refl _) rfl hpolls
  have htwo : 2 * b.cfg.nAck - 2 = (b.cfg.nAck - 1) + (b.cfg.nAck - 1) := by omega
  rw [longestSend, htwo, Nat.add_mul, Nat.add_assoc, Nat.add_assoc]
  exact hsent

theorem Params.nRxto_pos {c : Params} (h : c.wf = true) (p : Profile) : 0 < (c.timing p).nRxto := by
  have htiming := Params.timing_wf h p
  simp only [Timing.wf, Bool.and_eq_true, decide_eq_true_iff] at htiming
  obtain ⟨-, hpos⟩ := htiming
  exact hpos

/-- A received bit adds at most the time of its two polls (R103). -/
theorem Inst.recvBit_endsWithin {site : Site} (wf : b.cfg.wf = true)
    (next : ∀ c, b.Continues c → c.seq.bit = b.seq.bit + 1 → (c.goOn (.recvBitsLoop site :: k)).EndsWithin ticks) :
    (b.goOn (.recvBit site :: k)).EndsWithin (b.bitTicks + ticks) := by
  have hpos := Params.nRxto_pos wf b.seq.p
  have hlow (n : Nat) : ((b.pollEnd n n).polled (.bitHigh site) n k).EndsWithin ((b.timing.nRxto - 1) * b.cfg.tPoll + ticks) := by
    refine Inst.poll_endsWithin (b := { b.pollEnd n n with seq := { (b.pollEnd n n).seq with h := n } }) wf hpos fun c => ?_
    exact next _ ⟨⟨rfl, rfl⟩, rfl, rfl, rfl⟩ rfl
  have hhigh := Inst.poll_endsWithin (lv := .high) wf hpos hlow
  rw [← Nat.add_assoc] at hhigh
  exact Inst.perform_endsWithin rfl hhigh rfl

/-- The loop of RecvBits with `i` bits to go (R104). -/
theorem Inst.recvBitsLoop_endsWithin {site : Site} {i : Nat} (wf : b.cfg.wf = true) (left : b.seq.bit + i = 8)
    (next : ∀ c, b.Continues c → (c.goOn k).EndsWithin ticks) :
    (b.goOn (.recvBitsLoop site :: k)).EndsWithin (i * b.bitTicks + ticks) := by
  induction i generalizing b with
  | zero =>
    have hloop : b.perform (.recvBitsLoop site) k = b.goOn k := if_neg (by omega)
    rw [Nat.zero_mul, Nat.zero_add]
    exact Inst.perform_endsWithin hloop (next b (.refl b)) rfl
  | succ i ih =>
    have hloop : b.perform (.recvBitsLoop site) k = b.goOn (.recvBit site :: k) := if_pos (by omega)
    have hbit : (b.goOn (.recvBit site :: k)).EndsWithin (b.bitTicks + (i * b.bitTicks + ticks)) := by
      refine Inst.recvBit_endsWithin wf fun c hc hbit => ?_
      rw [← hc.bitTicks]
      exact ih (hc.cfg ▸ wf) (by omega) fun d hd => next d (hc.trans hd)
    rw [Nat.succ_mul, Nat.add_comm (i * b.bitTicks), Nat.add_assoc]
    exact Inst.perform_endsWithin hloop hbit rfl

/-- The acknowledgment pulse adds T_ACK (R105). -/
theorem Inst.sendAckPulse_endsWithin (next : ∀ c, b.Continues c → (c.goOn k).EndsWithin ticks) :
    (b.goOn (.sendAckPulse :: k)).EndsWithin (b.timing.tAck + ticks) := by
  have hlow := (b.goOn_leads_perform .sendAckPulse k).trans (b.hold_leads .low b.timing.tAck _)
  have hhigh := hlow.trans (Inst.hold_leads _ .high 0 _)
  have hrelease := hhigh.trans (Inst.goOn_leads_perform _ .release k)
  exact hrelease.endsWithin (Nat.le_refl _) rfl (next _ ⟨⟨rfl, rfl⟩, rfl, rfl, rfl⟩)

/-- The instance that began to receive a byte in `b`, at the Release after the sync symbol and before the first bit (R102, R104). -/
def Inst.syncSent (b : Inst) : Inst :=
  { ((b.drive .low).after (symbolTicks b.timing)).release with seq := { b.seq with shift := 0#8, bit := 0 } }

/-- RecvByte up to its first bit (R102, R111). -/
theorem Inst.recvByte_leads (site : Site) :
    (b.goOn (.recvByte site :: k)).Leads (b.syncSent.goOn (.recvBitsLoop site :: .sendAckPulse :: k)) := by
  have hsync := ((b.goOn_leads_perform (.recvByte site) k).trans (b.goOn_leads_perform .recvSync _)).trans (b.sendSync_leads _)
  exact (hsync.trans (Inst.goOn_leads_perform _ .release _)).trans (Inst.goOn_leads_perform _ (.recvBits site) _)

/-- A RecvByte adds at most RB (R114). -/
theorem Inst.recvByte_endsWithin {site : Site} (wf : b.cfg.wf = true)
    (next : ∀ c, b.Continues c → (c.goOn k).EndsWithin ticks) :
    (b.goOn (.recvByte site :: k)).EndsWithin (longestRecv b.cfg b.seq.p + ticks) := by
  have htime : longestRecv b.cfg b.seq.p = symbolTicks b.timing + 8 * b.bitTicks + b.timing.tAck := by
    have hbits : 16 * (b.timing.nRxto - 1) * b.cfg.tPoll = 8 * b.bitTicks := by
      rw [Inst.bitTicks, Nat.mul_assoc]
      omega
    rw [longestRecv, ← Inst.timing, hbits, symbolTicks, Nat.add_comm b.timing.tShort]
  have hbits : (b.syncSent.goOn (.recvBitsLoop site :: .sendAckPulse :: k)).EndsWithin
      (8 * b.bitTicks + (b.timing.tAck + ticks)) := by
    refine Inst.recvBitsLoop_endsWithin (b := b.syncSent) wf rfl fun c hc => ?_
    rw [show b.timing = c.timing from hc.timing.symm]
    have hbegun : b.Continues b.syncSent := ⟨⟨rfl, rfl⟩, rfl, rfl, rfl⟩
    exact Inst.sendAckPulse_endsWithin fun d hd => next d (hbegun.trans (hc.trans hd))
  rw [htime, Nat.add_assoc, Nat.add_assoc]
  exact (Inst.recvByte_leads site).endsWithin (Nat.le_refl _) rfl hbits

/-! ## Arbitration and the start condition -/

/-- No sample at or after the timeout comes before the first one (R120). -/
theorem idleTicks_le_mul {c : Params} (h : c.wf = true) {p : Profile} {i : Nat} (late : (c.timing p).tIdle ≤ i * c.tPoll) :
    idleTicks c p ≤ i * c.tPoll :=
  Nat.mul_le_mul_right _ ((tIdle_le_mul_iff h p).mpr late)

/-- An arbitration adds at most ARB, whether it wins or not (R120). -/
theorem Inst.arbitrate_endsWithin (wf : b.cfg.wf = true)
    (next : ∀ c, b.Continues c → c.seq.first = b.seq.first → (c.goOn k).EndsWithin ticks) :
    (b.goOn (.arbitrate :: k)).EndsWithin (longestArb b.cfg b.seq.p + ticks) := by
  have hdue := Inst.goOn_due b .arbitrate k
  rcases forall_or_first fun i => i * b.cfg.tPoll ≤ idleTicks b.cfg b.seq.p → b.peerAt (i * b.cfg.tPoll) = true with
    hall | ⟨i, hfirst, hlow⟩
  · have htimeout := Inst.arbitrate_leadsWhile_timeout (P := fun _ => True) (b := b.goOn (.arbitrate :: k))
      (fun _ _ => trivial) wf hdue trivial hall
    refine htimeout.leads.endsWithin ?_ rfl (Inst.epilogue_endsWithin _ _ _ ticks)
    exact Nat.add_le_add_left (Nat.le_add_right _ _) _
  · obtain ⟨hi, hhigh⟩ := Classical.not_imp.mp hfirst
    have hbefore (j : Nat) (hj : j < i) : j * b.cfg.tPoll < idleTicks b.cfg b.seq.p :=
      Nat.lt_of_lt_of_le (Nat.mul_lt_mul_of_pos_right hj (Params.tPoll_pos wf)) hi
    have hloop := Inst.arbitrate_leadsWhile (P := fun _ => True) (b := b.goOn (.arbitrate :: k)) (i := i)
      (fun _ _ => trivial) hdue trivial fun j hj =>
      ⟨hlow j hj (Nat.le_of_lt (hbefore j hj)), Nat.lt_of_not_le fun late =>
        absurd (idleTicks_le_mul wf late) (Nat.not_le.mpr (hbefore j hj))⟩
    have hconfirm := (hloop.trans (Inst.arbLoop_leadsWhile_confirmed (fun _ _ => trivial) (Bool.eq_false_iff.mpr hhigh))).leads
    have htime : b.now + (i * b.cfg.tPoll + b.cfg.tPoll) ≤ b.now + longestArb b.cfg b.seq.p :=
      Nat.add_le_add_left (Nat.add_le_add_right hi _) _
    split at hconfirm
    · exact hconfirm.endsWithin htime rfl (Inst.epilogue_endsWithin _ _ _ ticks)
    · exact hconfirm.endsWithin htime rfl (next ((b.release.timeoutStart b.timing.tIdle).after (i * b.cfg.tPoll + b.cfg.tPoll))
        ⟨⟨rfl, rfl⟩, rfl, rfl, rfl⟩ rfl)

/-- The start condition adds ST (R121). -/
theorem Inst.startCondition_endsWithin (next : ∀ c, b.Continues c → c.seq.first = b.seq.first → (c.goOn k).EndsWithin ticks) :
    (b.goOn (.startCondition :: k)).EndsWithin (startTicks b.cfg b.seq.p + ticks) := by
  obtain ⟨-, hstart⟩ := startConditionWaveform _ k (Inst.goOn_due b .startCondition k)
  exact Inst.Leads.endsWithin hstart (Nat.le_refl _) rfl
    (next ((b.drive .high).after (startTicks b.cfg b.seq.p)) ⟨⟨rfl, rfl⟩, rfl, rfl, rfl⟩ rfl)

/-! ## Gaps -/

/-- A wait adds its ticks (R95). -/
theorem Inst.wait_endsWithin {d e : Nat} (hle : d ≤ e) (hnext : ((b.after d).goOn k).EndsWithin ticks) :
    (b.goOn (.wait d :: k)).EndsWithin (e + ticks) :=
  (Inst.leads_wait (Inst.goOn_due b (.wait d) k)).endsWithin (Nat.add_le_add_left hle _) rfl hnext

/-- There is no gap before the first byte of the frame (R123). -/
theorem Inst.firstGap_endsWithin (first : b.seq.first = true) (next : ∀ c, b.Continues c → (c.goOn k).EndsWithin ticks) :
    (b.goOn (.gap :: k)).EndsWithin ticks := by
  have hgap : b.perform .gap k = { b with seq := { b.seq with first := false } }.goOn k := if_pos first
  exact Inst.perform_endsWithin hgap (next _ ⟨⟨rfl, rfl⟩, rfl, rfl, rfl⟩) rfl

/-- A gap adds at most G, its jitter at the longest (R123). -/
theorem Inst.gap_endsWithin (next : ∀ c, b.Continues c → (c.goOn k).EndsWithin ticks) :
    (b.goOn (.gap :: k)).EndsWithin (longestGap b.cfg b.seq.p + ticks) := by
  cases first : b.seq.first with
  | true => exact (Inst.firstGap_endsWithin first next).mono (Nat.le_add_left _ _)
  | false =>
    have hgap : b.perform .gap k =
        { b with gaps := b.gaps + 1 }.goOn (.wait (b.timing.tIbd + jitter b.cfg (Config.jitterDraw b.num b.gaps)) :: k) :=
      if_neg (by rw [first]; exact Bool.false_ne_true)
    exact Inst.perform_endsWithin hgap (Inst.wait_endsWithin (b := { b with gaps := b.gaps + 1 })
      (Nat.add_le_add_left (jitter_le _ _) _) (next _ ⟨⟨rfl, rfl⟩, rfl, rfl, rfl⟩)) rfl

end

end Sys2Proof.Machine
end

section
/-! PROOFS. A frame command completes within the ticks of R230, whatever the peer does (O59, O60): the rules of the operations put together
along the sequences of R125 and R130. -/

namespace Sys2Proof.Machine

section
variable {b : Inst} {ticks : Nat} {k : List Micro}

/-! ## The bytes that the block sends -/

/-- A byte that is sent after its gap (R123, R125). -/
theorem Inst.gappedByte_endsWithin {v : Byte} {site : Site} (wf : b.cfg.wf = true)
    (next : ∀ c, b.Continues c → (c.goOn k).EndsWithin ticks) :
    (b.goOn (.gap :: .sendByte v site :: k)).EndsWithin (b.sendTicks + ticks) := by
  rw [Inst.sendTicks, Nat.add_comm (longestSend _ _), Nat.add_assoc]
  refine Inst.gap_endsWithin fun c hc => ?_
  rw [← hc.cfg, ← hc.profile]
  exact Inst.sendByte_endsWithin (hc.cfg ▸ wf) fun d hd => next d (hc.trans hd)

/-- Bytes that are sent with a gap before each (R123). -/
theorem Inst.gappedBytes_endsWithin {site : Site} {vs : List Byte} (wf : b.cfg.wf = true)
    (next : ∀ c, b.Continues c → (c.goOn k).EndsWithin ticks) :
    (b.goOn (gappedBytes site vs ++ k)).EndsWithin (vs.length * b.sendTicks + ticks) := by
  induction vs generalizing b with
  | nil => exact (next b (.refl b)).mono (Nat.le_add_left _ _)
  | cons v vs ih =>
    rw [List.length_cons, Nat.succ_mul, Nat.add_comm (vs.length * _), Nat.add_assoc]
    refine Inst.gappedByte_endsWithin wf fun c hc => ?_
    rw [← hc.sendTicks]
    exact ih (hc.cfg ▸ wf) fun d hd => next d (hc.trans hd)

/-- The first bytes of the frame: the gap that the first of them does not have is left for what follows (R123). -/
theorem Inst.firstBytes_endsWithin {site : Site} {vs : List Byte} (wf : b.cfg.wf = true) (nonempty : vs ≠ [])
    (first : b.seq.first = true)
    (next : ∀ c, b.Continues c → (c.goOn k).EndsWithin (longestGap b.cfg b.seq.p + ticks)) :
    (b.goOn (gappedBytes site vs ++ k)).EndsWithin (vs.length * b.sendTicks + ticks) := by
  obtain ⟨v, vs, rfl⟩ := List.exists_cons_of_ne_nil nonempty
  have htime : (vs.length + 1) * b.sendTicks + ticks =
      longestSend b.cfg b.seq.p + (vs.length * b.sendTicks + (longestGap b.cfg b.seq.p + ticks)) := by
    rw [Nat.succ_mul, Inst.sendTicks]
    omega
  rw [List.length_cons, htime]
  refine Inst.firstGap_endsWithin first fun c hc => ?_
  rw [← hc.cfg, ← hc.profile, ← hc.sendTicks]
  have wfc : c.cfg.wf = true := hc.cfg ▸ wf
  refine Inst.sendByte_endsWithin wfc fun d hd => ?_
  rw [← hd.sendTicks]
  refine Inst.gappedBytes_endsWithin (hd.cfg ▸ wfc) fun e he => ?_
  rw [hc.cfg, hc.profile]
  exact next e (hc.trans (hd.trans he))

/-- The length and the read request are sent in LEN_WIDTH bytes (R77, R80). -/
theorem Inst.perform_lengthStep {m : Micro} (hm : m = .sendLength ∨ m = .readRequest) :
    ∃ vs, b.perform m k = b.goOn (gappedBytes .len vs ++ k) ∧ vs.length = LenWidth.bytes b.cfg.lenWidth := by
  rcases hm with rfl | rfl
  · exact ⟨_, rfl, by cases b.cfg.lenWidth <;> rfl⟩
  · exact ⟨_, rfl, by cases b.cfg.lenWidth <;> rfl⟩

/-- The bytes before the payload, or before the first reply: the address, and the length or the read request (R79, R80). The first
of them has no gap, and so one is left for what follows. -/
theorem Inst.header_endsWithin {m : Micro} (wf : b.cfg.wf = true) (hm : m = .sendLength ∨ m = .readRequest)
    (first : b.seq.first = true)
    (next : ∀ c, b.Continues c → (c.goOn k).EndsWithin (longestGap b.cfg b.seq.p + ticks)) :
    (b.goOn (.addrByte :: m :: k)).EndsWithin
      ((addrBytes b.seq.addr + LenWidth.bytes b.cfg.lenWidth) * b.sendTicks + ticks) := by
  by_cases haddr : b.seq.addr = 0#8
  · have hnone : b.perform .addrByte (m :: k) = b.goOn (m :: k) := if_pos haddr
    obtain ⟨vs, hbytes, hlen⟩ := b.perform_lengthStep (k := k) hm
    have hvs : vs ≠ [] := by
      rintro rfl
      cases hw : b.cfg.lenWidth <;> simp [hw, LenWidth.bytes] at hlen
    rw [addrBytes, if_pos haddr, Nat.zero_add, ← hlen]
    refine Inst.perform_endsWithin hnone (Inst.perform_endsWithin hbytes ?_ rfl) rfl
    exact Inst.firstBytes_endsWithin wf hvs first next
  · have hone : b.perform .addrByte (m :: k) = b.goOn (gappedBytes .addr [b.seq.addr] ++ m :: k) := if_neg haddr
    have htime : (addrBytes b.seq.addr + LenWidth.bytes b.cfg.lenWidth) * b.sendTicks + ticks =
        [b.seq.addr].length * b.sendTicks + (LenWidth.bytes b.cfg.lenWidth * b.sendTicks + ticks) := by
      rw [addrBytes, if_neg haddr, Nat.add_mul, Nat.add_assoc]
      rfl
    rw [htime]
    refine Inst.perform_endsWithin hone (Inst.firstBytes_endsWithin wf (List.cons_ne_nil _ _) first fun c hc => ?_) rfl
    obtain ⟨vs, hbytes, hlen⟩ := c.perform_lengthStep (k := k) hm
    rw [Nat.add_left_comm, ← hc.cfg, ← hc.sendTicks, ← hlen]
    refine Inst.perform_endsWithin hbytes (Inst.gappedBytes_endsWithin (hc.cfg ▸ wf) fun d hd => ?_) rfl
    rw [hc.cfg]
    exact next d (hc.trans hd)

/-- The instance at byte `j` of the payload (R39). -/
def Inst.atCursor (b : Inst) (j : Nat) : Inst := { b with seq := { b.seq with cursor := j } }

theorem Inst.sameTiming_atCursor (b : Inst) (j : Nat) : b.SameTiming (b.atCursor j) := ⟨rfl, rfl⟩

/-- The payload loop of SEND_FRAME with `i` bytes to go (R125). -/
theorem Inst.payload_endsWithin {i : Nat} (wf : b.cfg.wf = true) (left : b.seq.cursor + i = b.seq.len.toNat)
    (next : ∀ c, b.SameTiming c → (c.goOn k).EndsWithin ticks) :
    (b.goOn (.payload :: k)).EndsWithin (i * b.sendTicks + ticks) := by
  induction i generalizing b with
  | zero =>
    have hloop : b.perform .payload k = b.goOn k := if_neg (by omega)
    rw [Nat.zero_mul, Nat.zero_add]
    exact Inst.perform_endsWithin hloop (next b ⟨rfl, rfl⟩) rfl
  | succ i ih =>
    have hloop : b.perform .payload k = b.goOn (.gap :: .payloadByte :: .payloadNext :: k) := if_pos (by omega)
    have htime : (i + 1) * b.sendTicks + ticks =
        longestGap b.cfg b.seq.p + (longestSend b.cfg b.seq.p + (i * b.sendTicks + ticks)) := by
      rw [Nat.succ_mul, Inst.sendTicks]
      omega
    rw [htime]
    refine Inst.perform_endsWithin hloop (Inst.gap_endsWithin fun c hc => ?_) rfl
    have wfc : c.cfg.wf = true := hc.cfg ▸ wf
    rw [← hc.cfg, ← hc.profile, ← hc.sendTicks]
    refine Inst.perform_endsWithin rfl (Inst.sendByte_endsWithin wfc fun d hd => ?_) rfl
    rw [← hd.sendTicks]
    have hnext := hc.trans hd
    refine Inst.perform_endsWithin rfl (ih (b := d.atCursor (d.seq.cursor + 1)) (hd.cfg ▸ wfc) ?_
      fun e he => next e ((hnext.toSameTiming.trans (d.sameTiming_atCursor _)).trans he)) rfl
    show d.seq.cursor + 1 + i = d.seq.len.toNat
    rw [hnext.cursor, hnext.len]
    omega

/-! ## The bytes that the block receives -/

/-- A byte that is received after its gap (R123, R130). -/
theorem Inst.reply_endsWithin {site : Site} (wf : b.cfg.wf = true)
    (next : ∀ c, b.Continues c → (c.goOn k).EndsWithin ticks) :
    (b.goOn (.gap :: .recvByte site :: k)).EndsWithin (b.recvTicks + ticks) := by
  rw [Inst.recvTicks, Nat.add_comm (longestRecv _ _), Nat.add_assoc]
  refine Inst.gap_endsWithin fun c hc => ?_
  rw [← hc.cfg, ← hc.profile]
  exact Inst.recvByte_endsWithin (hc.cfg ▸ wf) fun d hd => next d (hc.trans hd)

/-- The check of the frame-acknowledgment byte takes no time (R125, R130). -/
theorem Inst.checkAck_endsWithin (next : (b.goOn k).EndsWithin ticks) : (b.goOn (.checkAck :: k)).EndsWithin ticks := by
  by_cases sentinel : b.seq.shift = Config.sentinel
  · have hcheck : b.perform .checkAck k = b.goOn k := if_pos sentinel
    exact Inst.perform_endsWithin hcheck next rfl
  · have hcheck : b.perform .checkAck k = b.epilogue .ackError .frameAck := if_neg sentinel
    exact Inst.perform_endsWithin hcheck (b.epilogue_endsWithin _ _ ticks) rfl

/-- The length bytes of RECV_FRAME, each after its gap (R130). -/
theorem Inst.rxLength_endsWithin (wf : b.cfg.wf = true) (next : ∀ c, b.SameTiming c → (c.goOn k).EndsWithin ticks) :
    (b.goOn (.gap :: .recvByte .rxLen :: .lenFirst :: k)).EndsWithin (LenWidth.bytes b.cfg.lenWidth * b.recvTicks + ticks) := by
  cases hw : b.cfg.lenWidth with
  | one =>
    rw [LenWidth.bytes, Nat.one_mul]
    refine Inst.reply_endsWithin wf fun c hc => ?_
    have hfirst : c.perform .lenFirst k = { c with seq := { c.seq with len := rxLength1 c.seq.shift } }.goOn k := by
      simp only [Inst.perform, Inst.doLenFirst, hc.cfg, hw]
    exact Inst.perform_endsWithin hfirst (next _ (hc.toSameTiming.trans ⟨rfl, rfl⟩)) rfl
  | two =>
    rw [LenWidth.bytes, Nat.two_mul, Nat.add_assoc]
    refine Inst.reply_endsWithin wf fun c hc => ?_
    have hfirst : c.perform .lenFirst k = c.goOn (.gap :: .recvByte .rxLen :: .lenSecond c.seq.shift :: k) := by
      simp only [Inst.perform, Inst.doLenFirst, hc.cfg, hw]
    rw [← hc.recvTicks]
    refine Inst.perform_endsWithin hfirst (Inst.reply_endsWithin (hc.cfg ▸ wf) fun d hd => ?_) rfl
    exact Inst.perform_endsWithin rfl (next _ ((hc.trans hd).toSameTiming.trans ⟨rfl, rfl⟩)) rfl

/-- The payload loop of RECV_FRAME with `i` bytes to go (R130). -/
theorem Inst.rxPayload_endsWithin {i : Nat} (wf : b.cfg.wf = true) (left : b.seq.cursor + i = b.seq.len.toNat)
    (next : ∀ c, b.SameTiming c → (c.goOn k).EndsWithin ticks) :
    (b.goOn (.rxPayload :: k)).EndsWithin (i * b.recvTicks + ticks) := by
  induction i generalizing b with
  | zero =>
    have hloop : b.perform .rxPayload k = b.goOn k := if_neg (by omega)
    rw [Nat.zero_mul, Nat.zero_add]
    exact Inst.perform_endsWithin hloop (next b ⟨rfl, rfl⟩) rfl
  | succ i ih =>
    have hloop : b.perform .rxPayload k = b.goOn (.gap :: .recvByte .rxPayload :: .rxStore :: k) := if_pos (by omega)
    rw [Nat.succ_mul, Nat.add_comm (i * _), Nat.add_assoc]
    refine Inst.perform_endsWithin hloop (Inst.reply_endsWithin wf fun c hc => ?_) rfl
    have hstore : c.perform .rxStore k =
        ((c.writeBuf c.seq.cursor c.seq.shift).atCursor (c.seq.cursor + 1)).goOn (.rxPayload :: k) := by
      simp [Inst.perform, Inst.doRxStore, Inst.atCursor]
    have hstored : c.SameTiming ((c.writeBuf c.seq.cursor c.seq.shift).atCursor (c.seq.cursor + 1)) :=
      .trans (b := c.writeBuf c.seq.cursor c.seq.shift) ⟨c.writeBuf_cfg _ _, congrArg Seq.p (c.writeBuf_seq _ _)⟩
        (Inst.sameTiming_atCursor _ _)
    have hnext := hc.toSameTiming.trans hstored
    rw [← hnext.recvTicks]
    refine Inst.perform_endsWithin hstore (ih (hnext.cfg ▸ wf) ?_ fun d hd => next d (hnext.trans hd)) hstored.timing
    simp only [Inst.atCursor, Inst.writeBuf_seq]
    rw [hc.cursor, hc.len]
    omega

/-- From the bound check on: no more bytes are received than MAX_FRAME (R132). -/
theorem Inst.checkLen_endsWithin (wf : b.cfg.wf = true) (next : ∀ c, b.SameTiming c → (c.goOn k).EndsWithin ticks) :
    (b.goOn (.checkLen :: k)).EndsWithin (b.cfg.maxFrame * b.recvTicks + ticks) := by
  by_cases long : b.cfg.maxFrame < b.seq.len.toNat
  · have hcheck : b.perform .checkLen k = b.epilogue .bufferOverrun .rxLen := if_pos long
    exact Inst.perform_endsWithin hcheck (b.epilogue_endsWithin _ _ _) rfl
  · have hcheck : b.perform .checkLen k = (b.atCursor 0).goOn (.rxPayload :: k) := if_neg long
    have hloop : ((b.atCursor 0).goOn (.rxPayload :: k)).EndsWithin
        (b.seq.len.toNat * b.recvTicks + ticks) :=
      Inst.rxPayload_endsWithin (b := b.atCursor 0) wf (Nat.zero_add _) fun c hc =>
        next c ((b.sameTiming_atCursor 0).trans hc)
    have hle : b.seq.len.toNat * b.recvTicks ≤ b.cfg.maxFrame * b.recvTicks := Nat.mul_le_mul_right _ (Nat.le_of_not_lt long)
    exact Inst.perform_endsWithin hcheck (hloop.mono (Nat.add_le_add_right hle _)) rfl

/-! ## The two frames -/

/-- The operation that ends a frame with Ok (R134). -/
theorem Inst.ok_endsWithin : (b.goOn [.epilogue .ok .none]).EndsWithin ticks :=
  Inst.perform_endsWithin rfl (b.epilogue_endsWithin .ok .none ticks) rfl

/-- Arbitration and the start condition begin every frame (R125, R130). -/
theorem Inst.frameStart_endsWithin (wf : b.cfg.wf = true)
    (next : ∀ c, b.Continues c → c.seq.first = b.seq.first → (c.goOn k).EndsWithin ticks) :
    (b.goOn (.arbitrate :: .startCondition :: k)).EndsWithin
      (longestArb b.cfg b.seq.p + startTicks b.cfg b.seq.p + ticks) := by
  rw [Nat.add_assoc]
  refine Inst.arbitrate_endsWithin wf fun c hc hcfirst => ?_
  rw [← hc.cfg, ← hc.profile]
  exact Inst.startCondition_endsWithin fun d hd hdfirst => next d (hc.trans hd) (hdfirst.trans hcfirst)

/-- The bytes of SEND_FRAME and its frame-acknowledgment byte (R125). -/
theorem Inst.sendBytes_endsWithin (wf : b.cfg.wf = true) (first : b.seq.first = true) (begun : b.seq.cursor = 0) :
    (b.goOn [.addrByte, .sendLength, .payload, .gap, .recvByte .sendAck, .checkAck, .epilogue .ok .none]).EndsWithin
      ((addrBytes b.seq.addr + LenWidth.bytes b.cfg.lenWidth + b.seq.len.toNat) * b.sendTicks + longestRecv b.cfg b.seq.p) := by
  rw [Nat.add_mul, Nat.add_assoc]
  refine Inst.header_endsWithin wf (.inl rfl) first fun c hc => ?_
  have hreply : (c.goOn (.payload :: .gap :: .recvByte .sendAck :: .checkAck :: [.epilogue .ok .none])).EndsWithin
      (c.seq.len.toNat * c.sendTicks + (c.recvTicks + 0)) := by
    have wfc : c.cfg.wf = true := hc.cfg ▸ wf
    refine Inst.payload_endsWithin wfc (by rw [hc.cursor, begun, Nat.zero_add]) fun d hd => ?_
    rw [← hd.recvTicks]
    exact Inst.reply_endsWithin (hd.cfg ▸ wfc) fun e _ => Inst.checkAck_endsWithin Inst.ok_endsWithin
  refine hreply.mono (Nat.le_of_eq ?_)
  rw [hc.sendTicks, hc.recvTicks, hc.len, Inst.recvTicks]
  omega

/-- The bytes of RECV_FRAME, sent and received (R130). -/
theorem Inst.recvBytes_endsWithin (wf : b.cfg.wf = true) (first : b.seq.first = true) :
    (b.goOn [.addrByte, .readRequest, .gap, .recvByte .recvAck, .checkAck, .gap, .recvByte .rxLen, .lenFirst, .checkLen,
      .epilogue .ok .none]).EndsWithin
      ((addrBytes b.seq.addr + LenWidth.bytes b.cfg.lenWidth) * b.sendTicks
        + (LenWidth.bytes b.cfg.lenWidth + b.cfg.maxFrame) * b.recvTicks + longestRecv b.cfg b.seq.p) := by
  rw [Nat.add_assoc]
  refine Inst.header_endsWithin wf (.inr rfl) first fun c hc => ?_
  have hreply : (c.goOn (.gap :: .recvByte .recvAck :: .checkAck :: .gap :: .recvByte .rxLen :: .lenFirst :: .checkLen ::
      [.epilogue .ok .none])).EndsWithin
      (c.recvTicks + (LenWidth.bytes c.cfg.lenWidth * c.recvTicks + (c.cfg.maxFrame * c.recvTicks + 0))) := by
    have wfc : c.cfg.wf = true := hc.cfg ▸ wf
    refine Inst.reply_endsWithin wfc fun d hd => Inst.checkAck_endsWithin ?_
    have wfd : d.cfg.wf = true := hd.cfg ▸ wfc
    rw [← hd.recvTicks, ← hd.cfg]
    refine Inst.rxLength_endsWithin wfd fun e he => ?_
    rw [← he.recvTicks, ← he.cfg]
    exact Inst.checkLen_endsWithin (he.cfg ▸ wfd) fun f _ => Inst.ok_endsWithin
  refine hreply.mono (Nat.le_of_eq ?_)
  have hrecv : b.recvTicks = longestRecv b.cfg b.seq.p + longestGap b.cfg b.seq.p := rfl
  rw [hc.recvTicks, hc.cfg, Nat.add_mul]
  omega

/-- SEND_FRAME from its first operation on (R125). -/
theorem Inst.sendFrameSteps_endsWithin (wf : b.cfg.wf = true) :
    (b.goOn sendFrameSteps).EndsWithin (longestArb b.cfg b.seq.p + startTicks b.cfg b.seq.p
      + ((addrBytes b.seq.addr + LenWidth.bytes b.cfg.lenWidth + b.seq.len.toNat) * b.sendTicks + longestRecv b.cfg b.seq.p)) := by
  refine Inst.perform_endsWithin (m := .beginSend) rfl (Inst.frameStart_endsWithin
    (b := { b with seq := { b.seq with first := true, cursor := 0 } }) wf fun c hc hfirst => ?_) rfl
  have hbytes := Inst.sendBytes_endsWithin (b := c) (hc.cfg ▸ wf) hfirst hc.cursor
  rwa [hc.sendTicks, hc.addr, hc.len, hc.cfg, hc.profile] at hbytes

/-- RECV_FRAME from its first operation on (R130). -/
theorem Inst.recvFrameSteps_endsWithin (wf : b.cfg.wf = true) :
    (b.goOn recvFrameSteps).EndsWithin (longestArb b.cfg b.seq.p + startTicks b.cfg b.seq.p
      + ((addrBytes b.seq.addr + LenWidth.bytes b.cfg.lenWidth) * b.sendTicks
        + (LenWidth.bytes b.cfg.lenWidth + b.cfg.maxFrame) * b.recvTicks + longestRecv b.cfg b.seq.p)) := by
  refine Inst.perform_endsWithin (m := .beginRecv) rfl (Inst.frameStart_endsWithin
    (b := { b with seq := { b.seq with first := true } }) wf fun c hc hfirst => ?_) rfl
  have hbytes := Inst.recvBytes_endsWithin (b := c) (hc.cfg ▸ wf) hfirst
  rwa [hc.sendTicks, hc.recvTicks, hc.addr, hc.cfg, hc.profile] at hbytes

end

/-! ## The bounds -/

/-- R230's bound for SEND_FRAME, with each gap beside its byte. -/
theorem sendBound_eq (c : Params) (p : Profile) (a : Byte) (l : Half) :
    sendBound c p a l = 1 + (longestArb c p + startTicks c p
      + ((addrBytes a + LenWidth.bytes c.lenWidth + l.toNat) * (longestSend c p + longestGap c p) + longestRecv c p))
      + (c.timing p).tIfd := by
  rw [sendBound, Nat.mul_add]
  omega

/-- R230's bound for RECV_FRAME, with each gap beside its byte. -/
theorem recvBound_eq (c : Params) (p : Profile) (a : Byte) :
    recvBound c p a = 1 + (longestArb c p + startTicks c p
      + ((addrBytes a + LenWidth.bytes c.lenWidth) * (longestSend c p + longestGap c p)
        + (LenWidth.bytes c.lenWidth + c.maxFrame) * (longestRecv c p + longestGap c p) + longestRecv c p))
      + (c.timing p).tIfd := by
  simp only [recvBound, Nat.mul_add, Nat.add_mul, Nat.mul_assoc, Nat.one_mul]
  omega

/-- A launched command begins in the next tick (R62, R230). -/
theorem Inst.launch_endsWithin {b : Inst} {op : SeqOp} {p : Profile} {steps : List Micro} {ticks : Nat}
    (hsteps : (((b.launch op p steps).after 1).goOn steps).EndsWithin ticks) : (b.launch op p steps).EndsWithin (1 + ticks) :=
  Inst.Leads.endsWithin ⟨1, Inst.moves_wait (b := b.launch op p steps) rfl (Nat.le_refl _)⟩ (Nat.le_refl _) rfl hsteps

/-- Settles O59: the rules along the sequence of R125, with each gap but the first beside a byte. -/
theorem sendFrameCompletesInBound : Obligations.SendFrameCompletesInBound := by
  unfold Obligations.SendFrameCompletesInBound
  intro p s t inv free on len hexec
  have hlaunch : s.inst.cleared.runCommand (.sendFrame p) = s.inst.cleared.launch .sendFrame p sendFrameSteps := by
    rw [Inst.runCommand, Inst.whenEnabled_on (b := s.inst.cleared) _ on]
    exact if_neg (Nat.not_lt.mpr len)
  cases (exec_of_free (.sendFrame p) free).symm.trans hexec
  rw [hlaunch, sendBound_eq, ← Nat.add_assoc]
  exact Inst.launch_endsWithin (Inst.sendFrameSteps_endsWithin
    (b := (s.inst.cleared.launch .sendFrame p sendFrameSteps).after 1) inv.cfg_wf)

/-- Settles O60: the rules along the sequence of R130, with each gap but the first beside a byte. -/
theorem recvFrameCompletesInBound : Obligations.RecvFrameCompletesInBound := by
  unfold Obligations.RecvFrameCompletesInBound
  intro p s t inv free on hexec
  have hlaunch : s.inst.cleared.runCommand (.recvFrame p) = s.inst.cleared.launch .recvFrame p recvFrameSteps :=
    Inst.whenEnabled_on (b := s.inst.cleared) (fun b => b.launch .recvFrame p recvFrameSteps) on
  cases (exec_of_free (.recvFrame p) free).symm.trans hexec
  rw [hlaunch, recvBound_eq, ← Nat.add_assoc]
  exact Inst.launch_endsWithin (Inst.recvFrameSteps_endsWithin
    (b := (s.inst.cleared.launch .recvFrame p recvFrameSteps).after 1) inv.cfg_wf)

end Sys2Proof.Machine
end

section
/-! PROOFS. The command word (O1, O2, O3) and the length bytes (O4). -/

namespace Sys2Proof.Machine

open Sys2Proof.Laws.CommandWord

/-! ## The command word -/

/-- Settles O2: this is `decode_encode`. -/
theorem decodeOfEncodeIsIdentity : Obligations.DecodeOfEncodeIsIdentity := by
  unfold Obligations.DecodeOfEncodeIsIdentity
  exact fun _ wf => decode_encode wf

/-- Settles O1: each word is closed, and the decoder computes. -/
theorem commandWordsDecode : Obligations.CommandWordsDecode := by
  unfold Obligations.CommandWordsDecode
  decide

/-- The fields of every command's word, by its constructor (R68, R69). -/
theorem encode_fields (i : Instr) : Statement i := by
  cases i with
  | init => exact init
  | deinit => exact deinit
  | sendFrame p => exact sendFrame p
  | recvFrame p => exact recvFrame p
  | wake p => exact wake p
  | recover p => exact recover p
  | reserved0 => exact reserved0
  | reserved7 => exact reserved7
  | reserved8F op => exact reserved8F op

/-- The command that a word decodes to has the word's OP code (R69). -/
theorem opOf_decode (w : Word) : opOf (decode w) = opField w := by
  unfold decode
  repeat' split
  all_goals simp only [opOf, *]

/-- It has the word's SPEED bit if it is one of the four that carry it (R70, R160). -/
theorem speedOf_decode (w : Word) :
    speedOf (decode w) = (w.getLsbD 4 && (opField w == 0x3#4 || opField w == 0x4#4 || opField w == 0x5#4 || opField w == 0x6#4)) := by
  have hspeed : (speedField w == .fast) = w.getLsbD 4 := by
    unfold speedField
    cases w.getLsbD 4 <;> rfl
  unfold decode
  repeat' split
  all_goals simp [speedOf, *]

/-- The decoder gives the row RESERVED_8_F only the codes that the other rows leave, which have bit 3 set (R69). -/
theorem decode_wf (w : Word) : (decode w).wf = true := by
  have hbit : ∀ op : BitVec 4, 8 ≤ op.toNat → op.getLsbD 3 = true := by decide
  unfold decode
  repeat' split
  any_goals rfl
  exact hbit _ (by bv_omega)

/-- The decoder reads bits 4:0 alone (R68, R71). -/
theorem decode_congr {w w' : Word} (h : w.extractLsb' 0 5 = w'.extractLsb' 0 5) : decode w = decode w' := by
  have hop : opField w = opField w' := by
    ext i hi
    have hbit := congrArg (BitVec.getLsbD · i) h
    simpa [opField, hi, show i < 5 by omega] using hbit
  have hspeed : w.getLsbD 4 = w'.getLsbD 4 := by
    have hbit := congrArg (BitVec.getLsbD · 4) h
    simpa using hbit
  simp only [decode, speedField, hop, hspeed]

/-- Settles O3: the fields of the decoded command (`opOf_decode`, `speedOf_decode`) are those of its word (`encode_fields`). -/
theorem encodeOfDecodeKeepsReadBits : Obligations.EncodeOfDecodeKeepsReadBits := by
  unfold Obligations.EncodeOfDecodeKeepsReadBits
  refine ⟨fun w => ?_, fun w w' => decode_congr⟩
  obtain ⟨hop, hspeed, hreserved⟩ := encode_fields (decode w)
  exact ⟨decode_wf w, hop.trans (opOf_decode w), hreserved, hspeed.trans (speedOf_decode w)⟩

/-! ## The length bytes -/

/-- The length from one received byte is its number (R78). -/
theorem rxLength1_toNat (b0 : Byte) : (rxLength1 b0).toNat = b0.toNat := by
  rw [rxLength1, BitVec.toNat_append, BitVec.toNat_zero, Nat.zero_shiftLeft, Nat.zero_or]

/-- The length from two received bytes: the first one, masked, is the high byte (R78). -/
theorem rxLength_toNat (m : LenMask) (b0 b1 : Byte) : (rxLength m b0 b1).toNat = (b0 &&& LenMask.byte m).toNat * 256 + b1.toNat := by
  rw [rxLength, BitVec.toNat_append, ← Nat.shiftLeft_add_eq_or_of_lt b1.isLt, Nat.shiftLeft_eq]

/-- RX_LEN_HIGH_MASK = 0x07 keeps the low three bits. -/
theorem and_low3_toNat (v : Byte) : (v &&& LenMask.byte .low3).toNat = v.toNat % 8 :=
  Nat.and_two_pow_sub_one_eq_mod v.toNat 3

theorem and_all8 (v : Byte) : v &&& LenMask.byte .all8 = v := BitVec.and_allOnes

/-- Either mask keeps a byte below 8. -/
theorem and_mask_of_lt {v : Byte} (m : LenMask) (h : v.toNat < 8) : (v &&& LenMask.byte m).toNat = v.toNat := by
  cases m with
  | low3 => rw [and_low3_toNat, Nat.mod_eq_of_lt h]
  | all8 => rw [and_all8]

/-- A length that one byte carries is assembled from the byte sent for it (R77, R78). -/
theorem rxLength1_of_sent {l : Half} (h : l.toNat ≤ 255) : rxLength1 (BitVec.ofNat 8 l.toNat) = l := by
  apply BitVec.eq_of_toNat_eq
  rw [rxLength1_toNat, BitVec.toNat_ofNat, Nat.mod_eq_of_lt (Nat.lt_succ_of_le h)]

/-- A length that two bytes carry is assembled, with either mask, from the bytes sent for it (R77, R78). -/
theorem rxLength_of_sent {l : Half} (m : LenMask) (h : l.toNat ≤ 2047) :
    rxLength m (BitVec.ofNat 8 (l.toNat / 256 % 8)) (BitVec.ofNat 8 l.toNat) = l := by
  have hhigh : (BitVec.ofNat 8 (l.toNat / 256 % 8)).toNat = l.toNat / 256 := by
    rw [BitVec.toNat_ofNat]
    omega
  apply BitVec.eq_of_toNat_eq
  rw [rxLength_toNat, and_mask_of_lt m (by omega), hhigh, BitVec.toNat_ofNat]
  omega

/-- The read request is what is sent for the length 0 (R80, R81). -/
theorem lenBytes_zero (w : LenWidth) : lenBytes w 0#16 = requestBytes w := by
  cases w <;> rfl

/-- Settles O4: the bytes sent by `lenBytes_one` and `lenBytes_two`, the bytes received by `rxLength1_toNat` and `rxLength_toNat`. -/
theorem lengthPrefixAssembly : Obligations.LengthPrefixAssembly := by
  unfold Obligations.LengthPrefixAssembly
  refine ⟨fun l => ⟨_, lenBytes_one l, rfl, rxLength1_of_sent⟩, fun l m => ⟨_, _, lenBytes_two l, ?high, rfl, rxLength_of_sent m⟩,
    ⟨rfl, rfl, lenBytes_zero⟩, rxLength1_toNat, fun b0 b1 => ?low3, fun b0 b1 => ?all8, fun b k one => ?first1,
    fun b k two => ?first2, fun b b0 k => rfl⟩
  case high =>
    rw [BitVec.toNat_ofNat]
    omega
  case low3 => rw [rxLength_toNat, and_low3_toNat]
  case all8 => rw [rxLength_toNat, and_all8]
  case first1 =>
    simp only [Inst.perform, Inst.doLenFirst, one]
    rfl
  case first2 =>
    simp only [Inst.perform, Inst.doLenFirst, two]
    rfl

end Sys2Proof.Machine
end

section
/-! PROOFS. What the block drives while it sends a byte (O37), and while it waits for one (O40). -/

namespace Sys2Proof.Machine

/-! ## A stretch of a run -/

section
variable {b c d : Inst} {n : Nat}

/-- A move from a tick with nothing more due ends that tick. -/
theorem Inst.now_lt_of_rest {m : Nat} (hrest : (b.moves n).due = none) (hnm : n < m) : (b.moves n).now < (b.moves m).now := by
  refine Nat.lt_of_lt_of_le ?_ (b.moves_now_mono hnm)
  rw [Inst.moves_succ_last, Inst.auto_tick hrest]
  exact Nat.lt_succ_self _

/-- Whatever holds while the run leads from `c` to `d` holds in every tick from that of `c` on and before that of `d`. -/
theorem Inst.Leads.between {P : Inst → Prop} (hc : b.Leads c) (hd : c.LeadsWhile P d) (hrest : (b.moves n).due = none)
    (from_c : c.now ≤ (b.moves n).now) (before_d : (b.moves n).now < d.now) : P (b.moves n) := by
  obtain ⟨m, rfl⟩ := hc
  have hmn : m ≤ n := Nat.le_of_not_lt fun hlt => absurd (Inst.now_lt_of_rest hrest hlt) (Nat.not_lt.mpr from_c)
  obtain ⟨i, rfl⟩ := Nat.exists_eq_add_of_le hmn
  rw [Inst.moves_add] at before_d ⊢
  exact hd.before before_d

/-- A Hold on the way drives its level in each of its ticks (R93). -/
theorem Inst.Leads.hold_pin {v : Level} {e : Nat} {k : List Micro} (hc : b.Leads (c.goOn (.hold v e :: k)))
    (hrest : (b.moves n).due = none) (from_c : c.now ≤ (b.moves n).now) (before : (b.moves n).now < c.now + e) :
    (b.moves n).pin = { dir := .output, out := v } :=
  hc.between (Inst.hold_leadsWhile_atRest (P := fun x => x.pin = { dir := .output, out := v }) fun _ _ => rfl)
    hrest from_c before hrest

/-- A symbol on the way is HIGH for `e` ticks and LOW for `f` (R72, R73). -/
theorem Inst.Leads.highLow_drivesLow {e f : Nat} {k : List Micro}
    (hc : b.Leads (c.goOn (.hold .high e :: .hold .low f :: k))) (hrest : (b.moves n).due = none)
    (from_c : c.now ≤ (b.moves n).now) (before : (b.moves n).now < c.now + (e + f)) :
    (b.moves n).pin.drivesLow = decide (c.now + e ≤ (b.moves n).now) := by
  by_cases hhigh : (b.moves n).now < c.now + e
  · rw [hc.hold_pin hrest from_c hhigh]
    exact (decide_eq_false (Nat.not_le.mpr hhigh)).symm
  · have hlow := hc.trans (c.hold_leads .high e _)
    rw [hlow.hold_pin hrest (Nat.le_of_not_lt hhigh) (Nat.lt_of_lt_of_eq before (Nat.add_assoc _ _ _).symm)]
    exact (decide_eq_true (Nat.le_of_not_lt hhigh)).symm

end

/-! ## The waveform of a sent byte -/

/-- The two Holds of the symbol of a bit: HIGH first, long for a 1 and short for a 0 (R72). -/
def symbolHolds (t : Timing) (bit : Bool) (k : List Micro) : List Micro :=
  .hold .high (if bit then t.tLong else t.tShort) :: .hold .low (if bit then t.tShort else t.tLong) :: k

theorem Inst.perform_sendBit (b : Inst) (bit : Bool) (k : List Micro) :
    b.perform (.sendBit bit) k = b.goOn (symbolHolds b.timing bit k) := by
  cases bit <;> rfl

/-- The sync symbol is that of a 0 (R73). -/
theorem Inst.perform_sendSync (b : Inst) (k : List Micro) : b.perform .sendSync k = b.goOn (symbolHolds b.timing false k) := rfl

theorem symbolHolds_ticks (t : Timing) (bit : Bool) :
    (if bit then t.tLong else t.tShort) + (if bit then t.tShort else t.tLong) = symbolTicks t := by
  cases bit with
  | true => rfl
  | false => exact Nat.add_comm _ _

/-- A symbol on the way, as it is driven. -/
theorem Inst.Leads.symbol_drivesLow {b c : Inst} {n : Nat} {bit : Bool} {k : List Micro}
    (hc : b.Leads (c.goOn (symbolHolds c.timing bit k))) (hrest : (b.moves n).due = none) (from_c : c.now ≤ (b.moves n).now)
    (before : (b.moves n).now < c.now + symbolTicks c.timing) :
    (b.moves n).pin.drivesLow = symbolLow c.timing.tLong c.timing.tShort bit ((b.moves n).now - c.now) := by
  rw [← symbolHolds_ticks c.timing bit] at before
  rw [hc.highLow_drivesLow hrest from_c before, symbolLow]
  exact decide_eq_decide.mpr (Nat.le_sub_iff_add_le' from_c).symm

/-- The operations of a SendByte after its bits (R110). -/
def Inst.ackPolls (b : Inst) (site : Site) (k : List Micro) : List Micro :=
  .poll .high b.cfg.nAck (.ack site) :: .poll .low b.cfg.nAck (.ack site) :: k

/-- The instance that began to send byte `v` in `b`, with the sync symbol and `i` bits sent (R74, R101). -/
def Inst.bitsSent (b : Inst) (v : Byte) (i : Nat) : Inst :=
  { (b.drive .low).after ((i + 1) * symbolTicks b.timing) with seq := { b.seq with shift := v, bit := i } }

section
variable {b : Inst} {v : Byte} {site : Site} {k : List Micro}

/-- SendByte comes to each of its bits, one symbol after the other (R74, R110). -/
theorem Inst.sendByte_leads_bitsSent {i : Nat} (h : b.due = some (.sendByte v site, k)) (hi : i ≤ 8) :
    b.Leads ((b.bitsSent v i).goOn (.sendBitsLoop :: b.ackPolls site k)) := by
  induction i with
  | zero =>
    have hsync := (Inst.leads_perform h).trans (b.sendSync_leads _)
    rw [Inst.bitsSent, Nat.zero_add, Nat.one_mul]
    exact hsync.trans (Inst.goOn_leads_perform _ (.sendBits v) _)
  | succ i ih =>
    have hpass := Inst.sendBitsLoop_leads_pass (b := b.bitsSent v i) (b.ackPolls site k) hi
    have hnext : (((b.bitsSent v i).drive .low).after (symbolTicks b.timing)).atBit (i + 1) = b.bitsSent v (i + 1) := by
      simp only [Inst.bitsSent, Nat.succ_mul (i + 1), ← Inst.after_add]
      rfl
    exact (ih (Nat.le_of_succ_le hi)).trans (hnext ▸ hpass)

/-- And so it comes to each of its symbols: the sync symbol, and then bits 7 to 0 (R74). -/
theorem Inst.sendByte_leads_symbol {q : Nat} (h : b.due = some (.sendByte v site, k)) (hq : q < 9) :
    ∃ (c : Inst) (rest : List Micro), b.Leads (c.goOn (symbolHolds b.timing (decide (1 ≤ q) && v.getLsbD (8 - q)) rest)) ∧
      c.now = b.now + q * symbolTicks b.timing ∧ c.timing = b.timing := by
  cases q with
  | zero =>
    refine ⟨b, _, (Inst.leads_perform h).trans (b.goOn_leads_perform .sendSync _), ?_, rfl⟩
    rw [Nat.zero_mul, Nat.add_zero]
  | succ i =>
    have hi : (b.bitsSent v i).seq.bit < 8 := Nat.lt_of_succ_lt_succ hq
    have hpass := Inst.goOn_leads_perform (b.bitsSent v i) .sendBitsLoop (b.ackPolls site k)
    rw [Inst.perform, Inst.doSendBitsLoop, if_pos hi] at hpass
    have hbit := (b.bitsSent v i).goOn_leads_perform (.sendBit (v.getLsbD (7 - i))) (.sendBitsNext :: b.ackPolls site k)
    rw [Inst.perform_sendBit] at hbit
    have hsymbol : (decide (1 ≤ i + 1) && v.getLsbD (8 - (i + 1))) = v.getLsbD (7 - i) := by simp
    rw [hsymbol]
    exact ⟨_, _, ((Inst.sendByte_leads_bitsSent h (Nat.le_of_lt hi)).trans hpass).trans hbit, rfl, rfl⟩

end

theorem symbolTicks_pos {c : Params} (h : c.wf = true) (p : Profile) : 0 < symbolTicks (c.timing p) := by
  obtain ⟨hshort, -⟩ := Timing.pos (Params.timing_wf h p)
  exact Nat.add_pos_right _ hshort

/-- Settles O37: a tick of the byte lies in one of its nine symbols, by the quotient, and at a place in it, by the remainder. -/
theorem sentByteWaveform : Obligations.SentByteWaveform := by
  unfold Obligations.SentByteWaveform
  intro b v site k wf h
  refine ⟨fun n hrest before => ?waveform, Inst.sendByte_leads h⟩
  obtain ⟨j, hj⟩ := Nat.exists_eq_add_of_le (b.now_le_moves n)
  have hpos : 0 < symbolTicks b.timing := symbolTicks_pos wf _
  have hdiv := Nat.div_add_mod' j (symbolTicks b.timing)
  have hmod := Nat.mod_lt j hpos
  obtain ⟨c, rest, hc, hnow, htiming⟩ :=
    Inst.sendByte_leads_symbol h (q := j / symbolTicks b.timing) (Nat.div_lt_of_lt_mul (by rw [Nat.mul_comm]; omega))
  rw [← htiming] at hc
  have hplace : (b.moves n).now - c.now = j % symbolTicks b.timing := by omega
  rw [hc.symbol_drivesLow hrest (by omega) (by rw [htiming]; omega), htiming, hplace, hj, Nat.add_sub_cancel_left]
  rfl

/-! ## A RecvByte that waits -/

/-- The pin is released (R94). -/
def Inst.Released (b : Inst) : Prop := b.pin = .released

section
variable {b : Inst} {lv : Level} {bound c : Nat} {use : PollUse} {k : List Micro}

/-- One pass of the loop of PollWhile, by the sample that it takes (`Inst.pollingAt_pass`), as a single move. -/
theorem Inst.pollingAt_leadsWhile_pass (hpin : b.Released) (lv : Level) (bound c : Nat) (use : PollUse) (k : List Micro) :
    (b.pollingAt lv bound use k c).LeadsWhile Inst.Released
      (if b.lineAt (c * b.cfg.tPoll) ≠ lv then (b.pollingAt lv bound use k c).polled use c k
      else if bound ≤ c + 1 then (b.pollingAt lv bound use k c).counted.pollTimeout use
      else (b.pollingAt lv bound use k c).counted.goOn (.wait b.cfg.tPoll :: .pollLoop lv bound use :: k)) := by
  have hline : (b.pollingAt lv bound use k c).line = b.lineAt (c * b.cfg.tPoll) := b.line_after _
  have hdue : (b.pollingAt lv bound use k c).due = some (.pollLoop lv bound use, k) := Inst.due_of_phase rfl (Nat.le_refl _)
  rw [← hline]
  exact Inst.leadsWhile_perform hdue hpin

/-- A poll on a released pin, up to its sample of index `c`, where every sample before is at the level (R97). -/
theorem Inst.poll_leadsWhile_pollingAt (hpin : b.Released) (hc : c < bound)
    (hline : ∀ i, i < c → b.lineAt (i * b.cfg.tPoll) = lv) :
    (b.goOn (.poll lv bound use :: k)).LeadsWhile Inst.Released (b.pollingAt lv bound use k c) := by
  induction c with
  | zero =>
    have hstart : b.perform (.poll lv bound use) k = b.pollingAt lv bound use k 0 := by
      simp [Inst.perform, Inst.doPoll, Inst.pollingAt, Inst.goOn, Inst.sleep, Inst.atPhase]
    exact hstart ▸ Inst.goOn_leadsWhile_perform hpin
  | succ c ih =>
    have hbefore := ih (Nat.lt_of_succ_lt hc) fun i hi => hline i (Nat.lt_succ_of_lt hi)
    have hpass := Inst.pollingAt_leadsWhile_pass hpin lv bound c use k
    rw [if_neg (not_not_intro (hline c (Nat.lt_succ_self c))), if_neg (Nat.not_le.mpr hc)] at hpass
    have hwait := Inst.wait_leadsWhile (P := Inst.Released) (b := (b.pollingAt lv bound use k c).counted) (d := b.cfg.tPoll)
      (k := .pollLoop lv bound use :: k) hpin fun _ _ => hpin
    have hnext : ((b.pollingAt lv bound use k c).counted.after b.cfg.tPoll).goOn (.pollLoop lv bound use :: k) =
        b.pollingAt lv bound use k (c + 1) := by
      simp [Inst.pollingAt, Inst.counted, Inst.after, Inst.atPhase, Inst.goOn, Inst.sleep, Nat.succ_mul, Nat.add_assoc]
    exact (hbefore.trans hpass).trans (hnext ▸ hwait)

/-- A sample that is not at the level ends the poll (R97). -/
theorem Inst.poll_leadsWhile_polled (hpin : b.Released) (hc : c < bound) (hat : ∀ i, i < c → b.lineAt (i * b.cfg.tPoll) = lv)
    (hend : b.lineAt (c * b.cfg.tPoll) ≠ lv) :
    (b.goOn (.poll lv bound use :: k)).LeadsWhile Inst.Released ((b.pollEnd c c).polled use c k) := by
  have hpass := Inst.pollingAt_leadsWhile_pass hpin lv bound c use k
  rw [if_pos hend] at hpass
  exact (Inst.poll_leadsWhile_pollingAt hpin hc hat).trans (Inst.polled_atPhase _ _ _ use c k ▸ hpass)

/-- The last sample at the level ends it with TIMEOUT (R97). -/
theorem Inst.poll_leadsWhile_timeout (hpin : b.Released) (hbound : 0 < bound)
    (hat : ∀ i, i < bound → b.lineAt (i * b.cfg.tPoll) = lv) :
    (b.goOn (.poll lv bound use :: k)).LeadsWhile Inst.Released ((b.pollEnd (bound - 1) bound).pollTimeout use) := by
  obtain ⟨c, rfl⟩ := Nat.exists_eq_add_of_le' hbound
  have hpass := Inst.pollingAt_leadsWhile_pass hpin lv (c + 1) c use k
  rw [if_neg (not_not_intro (hat c c.lt_succ_self)), if_pos (Nat.le_refl _)] at hpass
  exact (Inst.poll_leadsWhile_pollingAt hpin c.lt_succ_self fun i hi => hat i (Nat.lt_succ_of_lt hi)).trans
    (Inst.pollTimeout_atPhase _ _ _ use ▸ hpass)

end

/-! ## The beginning of a RecvByte -/

section
variable {b : Inst} {n : Nat} {site : Site} {k : List Micro}

/-- RecvByte begins with the sync symbol: HIGH for T_SHORT, then LOW for T_LONG (R73, R102, R111). -/
theorem Inst.recvByte_sync_drivesLow (h : b.due = some (.recvByte site, k)) (hrest : (b.moves n).due = none)
    (before : (b.moves n).now < b.now + symbolTicks b.timing) :
    (b.moves n).pin.drivesLow = decide (b.now + b.timing.tShort ≤ (b.moves n).now) := by
  have hsync := ((Inst.leads_perform h).trans (b.goOn_leads_perform .recvSync _)).trans (b.goOn_leads_perform .sendSync _)
  rw [symbolTicks, Nat.add_comm b.timing.tLong] at before
  exact hsync.highLow_drivesLow hrest (b.now_le_moves n) before

/-- After the sync symbol the pin is released, and the first bit is measured (R102, R104). -/
theorem Inst.recvByte_leads_bits (h : b.due = some (.recvByte site, k)) :
    b.Leads (b.syncSent.goOn (.recvBitsLoop site :: .sendAckPulse :: k)) := by
  have hsync := ((Inst.leads_perform h).trans (b.goOn_leads_perform .recvSync _)).trans (b.sendSync_leads _)
  exact (hsync.trans (Inst.goOn_leads_perform _ .release _)).trans (Inst.goOn_leads_perform _ (.recvBits site) _)

/-- From then on the line is as the peer drives it, while the pin stays released. -/
theorem Inst.syncSent_lineAt (b : Inst) (j : Nat) :
    b.syncSent.lineAt j = if b.peerAt (symbolTicks b.timing + j) then .low else .high := by
  rw [← Inst.peerAt_after]
  rfl

end

/-! ## A silent peer -/

/-- The loop of RecvBits with bits to go begins with the HIGH poll of the next one (R103, R104). -/
theorem Inst.recvBitsLoop_leadsWhile_poll {b : Inst} {site : Site} {k : List Micro} (hpin : b.Released) (h : b.seq.bit < 8) :
    (b.goOn (.recvBitsLoop site :: k)).LeadsWhile Inst.Released (b.goOn (.poll .high b.timing.nRxto (.bitHigh site) :: k)) := by
  have hloop : b.perform (.recvBitsLoop site) k = b.goOn (.recvBit site :: k) := if_pos h
  have hpass := Inst.goOn_leadsWhile_perform (P := Inst.Released) (b := b) (m := .recvBitsLoop site) (k := k) hpin
  rw [hloop] at hpass
  exact hpass.trans (Inst.goOn_leadsWhile_perform (m := .recvBit site) hpin)

/-- From a silent peer, the first poll of a RecvByte times out at its last sample (R103, R113). -/
theorem Inst.syncSent_leadsWhile_timeout {b : Inst} {site : Site} {k : List Micro} (wf : b.cfg.wf = true)
    (silent : ∀ i, i < b.timing.nRxto → b.peerAt (symbolTicks b.timing + i * b.cfg.tPoll) = false) :
    (b.syncSent.goOn (.recvBitsLoop site :: k)).LeadsWhile Inst.Released
      ((b.syncSent.pollEnd (b.timing.nRxto - 1) b.timing.nRxto).raiseAt site .receiveTimeout) := by
  have hhigh (i : Nat) (hi : i < b.timing.nRxto) : b.syncSent.lineAt (i * b.cfg.tPoll) = .high := by
    rw [Inst.syncSent_lineAt, silent i hi]
    rfl
  have hpos := Params.nRxto_pos wf b.seq.p
  exact (Inst.recvBitsLoop_leadsWhile_poll (b := b.syncSent) rfl (Nat.zero_lt_succ 7)).trans
    (Inst.poll_leadsWhile_timeout (b := b.syncSent) rfl hpos hhigh)

/-- Settles O40: the sync symbol, and then the poll for the first bit, which times out with the pin released. -/
theorem silentPeerTimesOut : Obligations.SilentPeerTimesOut := by
  unfold Obligations.SilentPeerTimesOut
  intro b site code stage k wf h hsite silent
  have hsync := Inst.recvByte_leads_bits h
  have htimeout := Inst.syncSent_leadsWhile_timeout (site := site) (k := .sendAckPulse :: k) wf silent
  have hend : ((b.syncSent.pollEnd (b.timing.nRxto - 1) b.timing.nRxto).raiseAt site .receiveTimeout).now =
      b.now + symbolTicks b.timing + (b.timing.nRxto - 1) * b.cfg.tPoll := by
    rw [(Inst.raiseAt_sameOutside _ site _).now]
    rfl
  refine ⟨fun n hrest before => ?waveform, ?fails⟩
  case waveform =>
    by_cases hn : (b.moves n).now < b.now + symbolTicks b.timing
    · rw [Inst.recvByte_sync_drivesLow h hrest hn]
      exact decide_eq_decide.mpr (and_iff_left hn).symm
    · have hreleased : (b.moves n).Released := hsync.between htimeout hrest (Nat.le_of_not_lt hn) (hend ▸ before)
      rw [show (b.moves n).pin = .released from hreleased]
      exact (decide_eq_false fun hlow => hn hlow.2).symm
  case fails =>
    obtain ⟨n, hn⟩ := hsync.trans htimeout.leads
    refine ⟨n, ?_⟩
    rw [hn]
    refine ⟨hend, ?_⟩
    rcases hsite with ⟨rfl, rfl, rfl⟩ | ⟨rfl, rfl, rfl⟩ | ⟨rfl, rfl, rfl⟩ | ⟨rfl, rfl, rfl⟩ <;> exact ⟨rfl, rfl, rfl, rfl⟩

end Sys2Proof.Machine
end

section
/-! PROOFS. RecvByte decodes the byte that the peer sends (O41). -/

namespace Sys2Proof.Machine

/-! ## The samples of a bit -/

/-- The first sample, of those every `P` ticks, that is at or after the edge `D` ticks on. -/
theorem exists_first_sample {P : Nat} (hP : 0 < P) (D : Nat) : ∃ c, D ≤ c * P ∧ c * P < D + P ∧ ∀ i, i < c → i * P < D := by
  have hmod := Nat.mod_lt (D + P - 1) hP
  have hdiv := Nat.div_add_mod' (D + P - 1) P
  refine ⟨(D + P - 1) / P, by omega, by omega, fun i hi => ?_⟩
  have hlast := Nat.mul_le_mul_right P hi
  rw [Nat.succ_mul] at hlast
  omega

/-- The counts of a bit that is HIGH for `d` ticks and then LOW for `f`, sampled every `P` ticks from `e` ticks after its begin on: both
end in time, the second at a sample less than `P` after the end of the bit, and with R106's margin the longer phase has more samples. -/
theorem exists_counts {P N d f e : Nat} (he : e < P) (hd : P ≤ d) (hf : P ≤ f) (hdN : d ≤ (N - 1) * P) (hfN : f ≤ (N - 1) * P) :
    ∃ h l, h < N ∧ l < N ∧ 0 < l ∧ (∀ i, i < h → e + i * P < d) ∧ d ≤ e + h * P ∧
      (∀ i, i < l → e + h * P + i * P < d + f) ∧ d + f ≤ e + (h + l) * P ∧ e + (h + l) * P < d + f + P ∧
      (f + 2 * P ≤ d + 1 → l < h) ∧ (d + 2 * P ≤ f + 1 → h ≤ l) := by
  have hP : 0 < P := Nat.zero_lt_of_lt he
  obtain ⟨h, hle, hlt, hbefore⟩ := exists_first_sample hP (d - e)
  obtain ⟨l, lle, llt, lbefore⟩ := exists_first_sample hP (d + f - (e + h * P))
  have hN : (N - 1) * P + P = N * P := by
    cases N with
    | zero => omega
    | succ N => rw [Nat.succ_sub_one, Nat.succ_mul]
  refine ⟨h, l, ?_, ?_, ?_, fun i hi => ?_, by omega, fun i hi => ?_, ?_, ?_, fun hmargin => ?_, fun hmargin => ?_⟩
  · exact Nat.lt_of_mul_lt_mul_right (a := P) (by omega)
  · exact Nat.lt_of_mul_lt_mul_right (a := P) (by omega)
  · exact Nat.pos_of_ne_zero fun h0 => by subst h0; omega
  · exact Nat.add_lt_of_lt_sub' (hbefore i hi)
  · exact Nat.add_lt_of_lt_sub' (lbefore i hi)
  · rw [Nat.add_mul]; omega
  · rw [Nat.add_mul]; omega
  · exact Nat.lt_of_mul_lt_mul_right (a := P) (by omega)
  · exact Nat.le_of_mul_le_mul_right (show h * P ≤ l * P by omega) hP

/-! ## One bit -/

/-- The instance that began a bit in `b` and has counted `h` HIGH samples for it, at the LOW sample after them (R103). -/
def Inst.highMeasured (b : Inst) (h : Nat) : Inst := { b.after (h * b.cfg.tPoll) with seq := { b.seq with h := h, n := h } }

/-- The samples of the LOW poll begin anew where the HIGH poll has ended. -/
theorem Inst.highMeasured_lineAt (b : Inst) (h i : Nat) :
    (b.highMeasured h).lineAt (i * b.cfg.tPoll) = b.lineAt ((h + i) * b.cfg.tPoll) := by
  rw [Nat.add_mul]
  exact b.lineAt_after _ _

/-- The instance that began a bit in `b` and has counted `h` HIGH and `l` LOW samples for it (R103, R104). -/
def Inst.bitMeasured (b : Inst) (h l : Nat) : Inst :=
  { b.after ((h + l) * b.cfg.tPoll) with seq := { b.seq with
      h := h, n := l, shift := shiftIn b.seq.shift (decodeBit h l), bit := b.seq.bit + 1 } }

/-- A bit whose two phases end within the polls' bounds is measured with the pin released (R103). -/
theorem Inst.recvBit_leadsWhile {b : Inst} {site : Site} {k : List Micro} {h l : Nat} (hpin : b.Released) (hbit : b.seq.bit < 8)
    (hh : h < b.timing.nRxto) (hl : l < b.timing.nRxto) (pos : 0 < l) (high : ∀ i, i < h → b.lineAt (i * b.cfg.tPoll) = .high)
    (low : ∀ i, i < l → b.lineAt ((h + i) * b.cfg.tPoll) = .low) (hend : b.lineAt ((h + l) * b.cfg.tPoll) = .high) :
    (b.goOn (.recvBitsLoop site :: k)).LeadsWhile Inst.Released ((b.bitMeasured h l).goOn (.recvBitsLoop site :: k)) := by
  have hhigh := Inst.poll_leadsWhile_polled (use := .bitHigh site) (k := k) hpin hh high
    (fun heq => nomatch (low 0 pos).symm.trans heq)
  have hlow := Inst.poll_leadsWhile_polled (b := b.highMeasured h) (use := .bitLow site) (k := k) hpin hl
    (fun i hi => (b.highMeasured_lineAt h i).trans (low i hi))
    (fun heq => nomatch ((b.highMeasured_lineAt h l).trans hend).symm.trans heq)
  have htime : ((b.highMeasured h).pollEnd l l).polled (.bitLow site) l k = (b.bitMeasured h l).goOn (.recvBitsLoop site :: k) := by
    simp only [Inst.bitMeasured, Nat.add_mul, ← Inst.after_add]
    rfl
  exact ((Inst.recvBitsLoop_leadsWhile_poll hpin hbit).trans hhigh).trans (htime ▸ hlow)

/-! ## The bits of a reply -/

/-- From now on the peer of `b` sends byte `v`, with phases of `long` and `short` ticks within R106's margin and its line HIGH for
T_POLL after the last one (R75, R106; log entry 9). -/
structure Inst.Replies (b : Inst) (v : Byte) (long short : Nat) : Prop where
  poll_pos : 0 < b.cfg.tPoll
  short_ge : b.cfg.tPoll ≤ short
  margin : short + 2 * b.cfg.tPoll ≤ long + 1
  long_le : long ≤ (b.timing.nRxto - 1) * b.cfg.tPoll
  bits : ∀ j, j < 8 * (long + short) → b.lineAt j = if replyLow long short v j then .low else .high
  idle : ∀ j, j < b.cfg.tPoll → b.lineAt (8 * (long + short) + j) = .high

/-- How long the line is HIGH in a bit, and how long it is LOW after that (R75). -/
def phaseTicks (long short : Nat) (bit : Bool) : Nat := if bit then long else short

theorem phaseTicks_add (long short : Nat) (bit : Bool) :
    phaseTicks long short bit + phaseTicks short long bit = long + short := by
  cases bit with
  | true => rfl
  | false => exact Nat.add_comm _ _

section
variable {b : Inst} {v : Byte} {long short i r : Nat}

/-- The line in the `i`-th bit of the reply. -/
theorem Inst.Replies.lineAt_bit (h : b.Replies v long short) (hi : i < 8) (hr : r < long + short) :
    b.lineAt (i * (long + short) + r) = if phaseTicks long short (v.getLsbD (7 - i)) ≤ r then .low else .high := by
  have hlast : (i + 1) * (long + short) ≤ 8 * (long + short) := Nat.mul_le_mul_right _ hi
  rw [Nat.succ_mul] at hlast
  have hdiv : (i * (long + short) + r) / (long + short) = i := by
    rw [Nat.add_comm, Nat.add_mul_div_right _ _ (Nat.zero_lt_of_lt hr), Nat.div_eq_of_lt hr, Nat.zero_add]
  have hmod : (i * (long + short) + r) % (long + short) = r := by
    rw [Nat.mul_add_mod_self_right, Nat.mod_eq_of_lt hr]
  rw [h.bits _ (by omega), replyLow, symbolLow, hdiv, hmod, phaseTicks]
  simp only [decide_eq_true_iff]

/-- Either phase is sampled, and a poll's bound is not exceeded in it. -/
theorem Inst.Replies.phaseTicks_bounds (h : b.Replies v long short) (bit : Bool) :
    b.cfg.tPoll ≤ phaseTicks long short bit ∧ phaseTicks long short bit ≤ (b.timing.nRxto - 1) * b.cfg.tPoll := by
  obtain ⟨hpos, hshort, hmargin, hlong, -, -⟩ := h
  cases bit with
  | true => exact ⟨show b.cfg.tPoll ≤ long by omega, hlong⟩
  | false => exact ⟨hshort, show short ≤ _ by omega⟩

theorem Inst.Replies.lowTicks_bounds (h : b.Replies v long short) (bit : Bool) :
    b.cfg.tPoll ≤ phaseTicks short long bit ∧ phaseTicks short long bit ≤ (b.timing.nRxto - 1) * b.cfg.tPoll := by
  have hnot : phaseTicks short long bit = phaseTicks long short !bit := by cases bit <;> rfl
  rw [hnot]
  exact h.phaseTicks_bounds _

/-- The line is HIGH for T_POLL after each bit: the next bit begins HIGH, and after the last one the peer is silent. -/
theorem Inst.Replies.lineAt_edge (h : b.Replies v long short) (hi : i ≤ 8) (hr : r < b.cfg.tPoll) :
    b.lineAt (i * (long + short) + r) = .high := by
  rcases Nat.lt_or_eq_of_le hi with hlt | rfl
  · obtain ⟨hge, -⟩ := h.phaseTicks_bounds (v.getLsbD (7 - i))
    have hsum := phaseTicks_add long short (v.getLsbD (7 - i))
    rw [h.lineAt_bit hlt (by omega)]
    exact if_neg (by omega)
  · exact h.idle r hr

/-- `c` has received `i` bits of the byte `v` that the peer of `b` sends, and begins the next bit `s` ticks after `b` (R104). -/
structure Inst.HasReceived (b : Inst) (v : Byte) (i s : Nat) (c : Inst) : Prop extends b.SameTiming c where
  released : c.Released
  now : c.now = b.now + s
  lineAt : ∀ j, c.lineAt j = b.lineAt (s + j)
  bit : c.seq.bit = i
  shift : c.seq.shift = v >>> (8 - i)

/-- The bits of a byte come in from the left to the right (R83, R104). -/
theorem shiftIn_ushiftRight {v : Byte} (hi : i < 8) : shiftIn (v >>> (8 - i)) (v.getLsbD (7 - i)) = v >>> (8 - (i + 1)) := by
  rw [shiftIn_eq_shiftConcat]
  ext j hj
  rw [BitVec.getElem_shiftConcat]
  cases j with
  | zero => simp
  | succ j => simp; congr 1; omega

theorem Inst.HasReceived.bitMeasured {c : Inst} {s h l : Nat} (hc : b.HasReceived v i s c) (hi : i < 8)
    (hbit : decodeBit h l = v.getLsbD (7 - i)) : b.HasReceived v (i + 1) (s + (h + l) * b.cfg.tPoll) (c.bitMeasured h l) where
  cfg := hc.cfg
  profile := hc.profile
  released := hc.released
  now := by
    have hnow : (c.bitMeasured h l).now = c.now + (h + l) * c.cfg.tPoll := rfl
    rw [hnow, hc.now, hc.cfg, Nat.add_assoc]
  lineAt j := by
    have hline : (c.bitMeasured h l).lineAt j = c.lineAt ((h + l) * c.cfg.tPoll + j) := c.lineAt_after _ j
    rw [hline, hc.lineAt, hc.cfg, Nat.add_assoc]
  bit := congrArg (· + 1) hc.bit
  shift := by
    have hshift : (c.bitMeasured h l).seq.shift = shiftIn c.seq.shift (decodeBit h l) := rfl
    rw [hshift, hc.shift, hbit, shiftIn_ushiftRight hi]

/-- The counts decode the bit, by R106's margin (R103). -/
theorem Inst.Replies.decodeBit_eq {h l : Nat} (hb : b.Replies v long short) {bit : Bool}
    (one : phaseTicks short long bit + 2 * b.cfg.tPoll ≤ phaseTicks long short bit + 1 → l < h)
    (zero : phaseTicks long short bit + 2 * b.cfg.tPoll ≤ phaseTicks short long bit + 1 → h ≤ l) : decodeBit h l = bit := by
  cases bit with
  | true => exact decide_eq_true (one hb.margin)
  | false => exact decide_eq_false (Nat.not_lt.mpr (zero hb.margin))

/-- From one bit to the next: the next one begins at the first sample after this one's end. -/
theorem Inst.Replies.leadsWhile_next {c : Inst} {s : Nat} {site : Site} {k : List Micro} (h : b.Replies v long short) (hi : i < 8)
    (hc : b.HasReceived v i s c) (lo : i * (long + short) ≤ s) (before : s < i * (long + short) + b.cfg.tPoll) :
    ∃ d t, (c.goOn (.recvBitsLoop site :: k)).LeadsWhile Inst.Released (d.goOn (.recvBitsLoop site :: k)) ∧
      b.HasReceived v (i + 1) t d ∧ (i + 1) * (long + short) ≤ t ∧ t < (i + 1) * (long + short) + b.cfg.tPoll := by
  obtain ⟨e, rfl⟩ := Nat.exists_eq_add_of_le lo
  obtain ⟨hge, hle⟩ := h.phaseTicks_bounds (v.getLsbD (7 - i))
  obtain ⟨lge, lle⟩ := h.lowTicks_bounds (v.getLsbD (7 - i))
  have hsum := phaseTicks_add long short (v.getLsbD (7 - i))
  obtain ⟨m, l, hm, hl, pos, high, edge, low, next, nextlt, one, zero⟩ :=
    exists_counts (Nat.lt_of_add_lt_add_left before) hge lge hle lle
  rw [hsum] at low next nextlt
  have hline (j : Nat) : c.lineAt j = b.lineAt (i * (long + short) + (e + j)) := by rw [hc.lineAt, Nat.add_assoc]
  refine ⟨c.bitMeasured m l, _, ?run, hc.bitMeasured hi (h.decodeBit_eq one zero), ?lo, ?before⟩
  case run =>
    refine Inst.recvBit_leadsWhile hc.released (hc.bit ▸ hi) (hc.timing ▸ hm) (hc.timing ▸ hl) pos
      (fun j hj => ?high) (fun j hj => ?low) ?next <;> rw [hc.cfg, hline]
    case high =>
      have hj := high j hj
      rw [h.lineAt_bit hi (by omega)]
      exact if_neg (Nat.not_le.mpr hj)
    case low =>
      have hj := low j hj
      rw [Nat.add_mul, ← Nat.add_assoc e, h.lineAt_bit hi hj]
      exact if_pos (Nat.le_trans edge (Nat.le_add_right _ _))
    case next =>
      obtain ⟨r, hr⟩ := Nat.exists_eq_add_of_le next
      rw [hr, ← Nat.add_assoc, ← Nat.succ_mul]
      exact h.lineAt_edge hi (by omega)
  case lo => rw [Nat.succ_mul]; omega
  case before => rw [Nat.succ_mul]; omega

/-- The reply comes in bit by bit, and the last bit ends less than T_POLL after the reply (R104). -/
theorem Inst.Replies.leadsWhile_received {site : Site} {k : List Micro} (h : b.Replies v long short) (hb : b.HasReceived v 0 0 b)
    (hi : i ≤ 8) :
    ∃ d t, (b.goOn (.recvBitsLoop site :: k)).LeadsWhile Inst.Released (d.goOn (.recvBitsLoop site :: k)) ∧
      b.HasReceived v i t d ∧ i * (long + short) ≤ t ∧ t < i * (long + short) + b.cfg.tPoll := by
  induction i with
  | zero =>
    refine ⟨b, 0, ⟨0, rfl, nofun⟩, hb, Nat.le_of_eq (Nat.zero_mul _), ?_⟩
    rw [Nat.zero_mul, Nat.zero_add]
    exact h.poll_pos
  | succ i ih =>
    obtain ⟨c, s, hrun, hc, lo, before⟩ := ih (Nat.le_of_succ_le hi)
    obtain ⟨d, t, hnext, hd⟩ := h.leadsWhile_next hi hc lo before
    exact ⟨d, t, hrun.trans hnext, hd⟩

end

/-! ## The byte -/

/-- After the last bit the byte is acknowledged (R104, R111). -/
theorem Inst.recvBitsLoop_leadsWhile_end {b : Inst} {site : Site} {k : List Micro} (hpin : b.Released) (h : b.seq.bit = 8) :
    (b.goOn (.recvBitsLoop site :: k)).LeadsWhile Inst.Released (b.goOn k) := by
  have hloop : b.perform (.recvBitsLoop site) k = b.goOn k := if_neg (Nat.not_lt.mpr (Nat.le_of_eq h.symm))
  exact hloop ▸ Inst.goOn_leadsWhile_perform hpin

/-- The acknowledgment pulse, and the release after it (R105). -/
theorem Inst.sendAckPulse_leads (b : Inst) (k : List Micro) :
    (b.goOn (.sendAckPulse :: k)).Leads ((b.after b.timing.tAck).release.goOn k) := by
  have hlow := (b.goOn_leads_perform .sendAckPulse k).trans (b.hold_leads .low b.timing.tAck _)
  exact (hlow.trans (Inst.hold_leads _ .high 0 _)).trans (Inst.goOn_leads_perform _ .release k)

/-- A peer that sends the byte, seen from the first bit on. -/
theorem Inst.syncSent_replies {b : Inst} {v : Byte} {long short : Nat} (wf : b.cfg.wf = true) (short_ge : b.cfg.tPoll ≤ short)
    (margin : short + 2 * b.cfg.tPoll ≤ long + 1) (long_le : long ≤ (b.timing.nRxto - 1) * b.cfg.tPoll)
    (bits : ∀ j, j < 8 * (long + short) → b.peerAt (symbolTicks b.timing + j) = replyLow long short v j)
    (idle : ∀ j, j < b.cfg.tPoll → b.peerAt (symbolTicks b.timing + 8 * (long + short) + j) = false) :
    b.syncSent.Replies v long short where
  poll_pos := Params.tPoll_pos wf
  short_ge := short_ge
  margin := margin
  long_le := long_le
  bits j hj := by rw [Inst.syncSent_lineAt, bits j hj]
  idle j hj := by
    rw [Inst.syncSent_lineAt, ← Nat.add_assoc, idle j hj]
    rfl

/-- Settles O41: the sync symbol, the eight bits with the pin released, and the acknowledgment pulse. -/
theorem receivedByteIsTheSentByte : Obligations.ReceivedByteIsTheSentByte := by
  unfold Obligations.ReceivedByteIsTheSentByte
  intro b site k v long short wf h short_ge margin long_le bits idle
  have hsync := Inst.recvByte_leads_bits h
  have hreplies := Inst.syncSent_replies wf short_ge margin long_le bits idle
  have hbegin : b.syncSent.HasReceived v 0 0 b.syncSent := by
    refine ⟨⟨rfl, rfl⟩, rfl, rfl, fun j => by rw [Nat.zero_add], rfl, ?_⟩
    exact (BitVec.ushiftRight_eq_zero (Nat.le_refl 8)).symm
  obtain ⟨d, t, hrun, hd, lo, before⟩ :=
    hreplies.leadsWhile_received (i := 8) (site := site) (k := .sendAckPulse :: k) hbegin (Nat.le_refl 8)
  have hbits := hrun.trans (Inst.recvBitsLoop_leadsWhile_end hd.released hd.bit)
  have hack := (hsync.trans hbits.leads).trans (d.goOn_leads_perform .sendAckPulse k)
  have htiming : d.timing = b.timing := hd.timing
  have hnow : d.now = b.now + symbolTicks b.timing + t := hd.now
  have hpoll : t < 8 * (long + short) + b.cfg.tPoll := before
  refine ⟨d.now, by omega, by omega, fun n hrest hn => ?waveform, ?ends⟩
  case waveform =>
    by_cases hsynced : (b.moves n).now < b.now + symbolTicks b.timing
    · rw [Inst.recvByte_sync_drivesLow h hrest hsynced]
      exact decide_eq_decide.mpr (by omega)
    by_cases hbitsn : (b.moves n).now < d.now
    · have hreleased : (b.moves n).Released := hsync.between hbits hrest (Nat.le_of_not_lt hsynced) hbitsn
      rw [show (b.moves n).pin = .released from hreleased]
      exact (decide_eq_false (by omega)).symm
    · rw [hack.hold_pin hrest (Nat.le_of_not_lt hbitsn) (htiming ▸ hn)]
      exact (decide_eq_true (.inr (Nat.le_of_not_lt hbitsn))).symm
  case ends =>
    obtain ⟨n, hn⟩ := (hsync.trans hbits.leads).trans (d.sendAckPulse_leads k)
    refine ⟨n, ?_⟩
    rw [hn]
    exact ⟨congrArg (d.now + Timing.tAck ·) htiming, hd.shift, rfl, rfl⟩

end Sys2Proof.Machine
end

section
/-! PROOFS. The bytes that a frame command puts on the line (O57): while it has not failed, those it has sent and those its pending
operations are still to send make up all of them. -/

namespace Sys2Proof.Machine

/-! ## What the pending operations are to send -/

/-- The bytes of BUF from index `i` to the end of the payload (R127). -/
def Inst.payloadFrom (b : Inst) (i : Nat) : List Byte := (List.range' i (b.seq.len.toNat - i)).map b.readBuf

/-- The bytes that a pending operation is to put on the line, where it does not fail. -/
def Inst.owedBy (b : Inst) : Micro → List Byte
  | .sendByte v _ => [v]
  | .addrByte => if b.seq.addr = 0#8 then [] else [b.seq.addr]
  | .sendLength => lenBytes b.cfg.lenWidth b.seq.len
  | .readRequest => requestBytes b.cfg.lenWidth
  | .payload => b.payloadFrom b.seq.cursor
  | .payloadByte => [b.readBuf b.seq.cursor]
  | .payloadNext => b.payloadFrom (b.seq.cursor + 1)
  | _ => []

/-- The bytes that the pending operations are to put on the line. -/
def Inst.owed (b : Inst) (todo : List Micro) : List Byte := todo.flatMap b.owedBy

/-- The byte whose SendByte an operation is. -/
def Micro.byte : Micro → List Byte
  | .sendByte v _ => [v]
  | _ => []

/-- Whether an operation may be pending, before the last one, in a frame command `op` that has begun and not failed; with `loops` it may
be one of a payload loop, or one that starts such a loop (R125, R130). -/
def Micro.fits (op : SeqOp) (loops : Bool) : Micro → Bool
  | .beginSend => false
  | .sendLength => op == .sendFrame
  | .payload => loops
  | .payloadByte => loops
  | .payloadNext => loops
  | .checkLen => loops
  | .rxPayload => loops
  | .rxStore => loops
  | .epilogue _ _ => false
  | .finish _ _ => false
  | .complete => false
  | _ => true

/-- The frame has ended with the result that is being built: only the inter-frame delay and the completion are left (R134). -/
def Inst.Ending (b : Inst) : Prop := ∃ w todo, b.seq.phase = .run w todo ∧ (todo = [.complete] ∨ ∃ d, todo = [.wait d, .complete])

/-- The frame has failed (R14). -/
def Inst.Failing (b : Inst) : Prop := b.Ending ∧ b.seq.code ≠ .ok

theorem Inst.epilogue_ending (b : Inst) (c : Code) (st : Stage) : (b.epilogue c st).Ending := ⟨_, _, rfl, .inr ⟨_, rfl⟩⟩

theorem Inst.epilogue_failing (b : Inst) {c : Code} (st : Stage) (hc : c ≠ .ok) : (b.epilogue c st).Failing :=
  ⟨b.epilogue_ending c st, hc⟩

theorem Inst.raiseAt_failing (b : Inst) (site : Site) {c : Code} (hc : c ≠ .ok) : (b.raiseAt site c).Failing := by
  cases site with
  | addr => exact ⟨⟨_, _, rfl, .inl rfl⟩, hc⟩
  | sendAck => exact b.epilogue_failing _ nofun
  | _ => exact b.epilogue_failing _ hc

theorem Inst.pollTimeout_failing (b : Inst) (use : PollUse) : (b.pollTimeout use).Failing := by
  cases use <;> exact b.raiseAt_failing _ nofun

theorem Inst.owed_append (b : Inst) (pre k : List Micro) : b.owed (pre ++ k) = b.owed pre ++ b.owed k := List.flatMap_append

theorem Inst.owed_cons (b : Inst) (m : Micro) (k : List Micro) : b.owed (m :: k) = b.owedBy m ++ b.owed k := List.flatMap_cons

/-- Bytes that are sent after their gaps. -/
theorem Inst.owed_gappedBytes (b : Inst) (site : Site) (vs : List Byte) : b.owed (gappedBytes site vs) = vs := by
  induction vs with
  | nil => rfl
  | cons v vs ih => exact congrArg (v :: ·) ih

theorem gappedBytes_fits (op : SeqOp) (loops : Bool) (site : Site) (vs : List Byte) :
    (gappedBytes site vs).all (Micro.fits op loops) = true := by
  induction vs with
  | nil => rfl
  | cons v vs ih => exact ih

theorem Inst.payloadFrom_of_lt {b : Inst} {i : Nat} (h : i < b.seq.len.toNat) :
    b.payloadFrom i = b.readBuf i :: b.payloadFrom (i + 1) := by
  have hlen : b.seq.len.toNat - i = (b.seq.len.toNat - (i + 1)) + 1 := by omega
  rw [Inst.payloadFrom, hlen]
  rfl

theorem Inst.payloadFrom_of_le {b : Inst} {i : Nat} (h : b.seq.len.toNat ≤ i) : b.payloadFrom i = [] := by
  rw [Inst.payloadFrom, Nat.sub_eq_zero_of_le h]
  rfl

/-! ## What an operation does to them -/

/-- An operation `m` before `k` goes on as `c`: it has put operations in front of `k`, which are to send what it was to send, but for the
byte that it starts itself. -/
def Inst.Expands (b : Inst) (op : SeqOp) (loops : Bool) (m : Micro) (k : List Micro) (c : Inst) : Prop :=
  ∃ w pre, c.seq.phase = .run w (pre ++ k) ∧ pre.all (Micro.fits op loops) = true ∧ b.owedBy m = m.byte ++ c.owed pre

section
variable {b : Inst} {op : SeqOp} {loops : Bool} {k : List Micro}

theorem Inst.expands_gappedBytes {m : Micro} {c : Inst} {w : Nat} {site : Site} {vs : List Byte}
    (hphase : c.seq.phase = .run w (gappedBytes site vs ++ k)) (hm : m.byte = []) (hvs : b.owedBy m = vs) : b.Expands op loops m k c :=
  ⟨w, _, hphase, gappedBytes_fits op loops site vs, by rw [hm, List.nil_append, Inst.owed_gappedBytes, hvs]⟩

/-- A pass of the loop of PollWhile goes on, or the frame fails (R97). -/
theorem Inst.doPollLoop_expands (b : Inst) (op : SeqOp) (loops : Bool) (lv : Level) (bound : Nat) (use : PollUse) (k : List Micro) :
    b.Expands op loops (.pollLoop lv bound use) k (b.doPollLoop lv bound use k) ∨ (b.doPollLoop lv bound use k).Failing := by
  unfold Inst.doPollLoop
  split
  · cases use with
    | ack site => exact .inl ⟨_, [], rfl, rfl, rfl⟩
    | bitHigh site => exact .inl ⟨_, [.poll _ _ _], rfl, rfl, rfl⟩
    | bitLow site => exact .inl ⟨_, [.recvBitsLoop site], rfl, rfl, rfl⟩
  · split
    · exact .inr (Inst.pollTimeout_failing _ use)
    · exact .inl ⟨_, [.wait _, .pollLoop _ _ _], rfl, rfl, rfl⟩

/-- An operation of a frame that has not failed goes on, or the frame fails. -/
theorem Inst.perform_expands {m : Micro} (hm : m.fits op loops = true) :
    b.Expands op loops m k (b.perform m k) ∨ (b.perform m k).Failing := by
  have hone : loops = true → (loops && true) = true := by rintro rfl; rfl
  have htwo : loops = true → (loops && (loops && true)) = true := by rintro rfl; rfl
  cases m with
  | beginSend | epilogue | finish | complete => exact absurd hm Bool.false_ne_true
  | pollLoop lv bound use => exact b.doPollLoop_expands op loops lv bound use k
  | hold v d => exact .inl ⟨_, [.wait d], rfl, rfl, rfl⟩
  | release | wait | beginRecv => exact .inl ⟨_, [], rfl, rfl, rfl⟩
  | poll lv bound use => exact .inl ⟨_, [.pollLoop lv bound use], rfl, rfl, rfl⟩
  | sendSync => exact .inl ⟨_, [.hold _ _, .hold _ _], rfl, rfl, rfl⟩
  | sendBit bit =>
    rw [Inst.perform_sendBit]
    exact .inl ⟨_, symbolHolds b.timing bit [], rfl, rfl, rfl⟩
  | sendBits v | sendBitsNext => exact .inl ⟨_, [.sendBitsLoop], rfl, rfl, rfl⟩
  | recvSync => exact .inl ⟨_, [.sendSync, .release], rfl, rfl, rfl⟩
  | recvBit site => exact .inl ⟨_, [.poll _ _ _], rfl, rfl, rfl⟩
  | recvBits site => exact .inl ⟨_, [.recvBitsLoop site], rfl, rfl, rfl⟩
  | sendAckPulse => exact .inl ⟨_, [.hold _ _, .hold _ _, .release], rfl, rfl, rfl⟩
  | sendByte v site => exact .inl ⟨_, [.sendSync, .sendBits v, .poll _ _ _, .poll _ _ _], rfl, rfl, rfl⟩
  | recvByte site => exact .inl ⟨_, [.recvSync, .recvBits site, .sendAckPulse], rfl, rfl, rfl⟩
  | arbitrate => exact .inl ⟨_, [.arbLoop], rfl, rfl, rfl⟩
  | payloadByte => exact .inl ⟨_, [.sendByte _ _], rfl, rfl, rfl⟩
  | payloadNext => exact .inl ⟨_, [.payload], rfl, hone hm, (List.append_nil _).symm⟩
  | lenSecond b0 => exact .inl ⟨_, [], rfl, rfl, rfl⟩
  | rxStore => exact .inl ⟨_, [.rxPayload], rfl, hone hm, rfl⟩
  | sendLength => exact .inl (Inst.expands_gappedBytes rfl rfl rfl)
  | readRequest => exact .inl (Inst.expands_gappedBytes rfl rfl rfl)
  | sendBitsLoop =>
    simp only [Inst.perform, Inst.doSendBitsLoop]
    split
    · exact .inl ⟨_, [.sendBit _, .sendBitsNext], rfl, rfl, rfl⟩
    · exact .inl ⟨_, [.release], rfl, rfl, rfl⟩
  | recvBitsLoop site =>
    simp only [Inst.perform, Inst.doRecvBitsLoop]
    split
    · exact .inl ⟨_, [.recvBit site], rfl, rfl, rfl⟩
    · exact .inl ⟨_, [], rfl, rfl, rfl⟩
  | arbLoop =>
    simp only [Inst.perform, Inst.doArbLoop]
    split
    · exact .inl ⟨_, [.wait _, .arbConfirm], rfl, rfl, rfl⟩
    · split
      · exact .inr (Inst.epilogue_failing _ _ nofun)
      · exact .inl ⟨_, [.wait _, .arbLoop], rfl, rfl, rfl⟩
  | arbConfirm =>
    simp only [Inst.perform, Inst.doArbConfirm]
    split
    · exact .inr (Inst.epilogue_failing _ _ nofun)
    · exact .inl ⟨_, [], rfl, rfl, rfl⟩
  | startCondition =>
    simp only [Inst.perform, Inst.doStartCondition]
    split
    · exact .inl ⟨_, [.hold _ _, .hold _ _, .wait _], rfl, rfl, rfl⟩
    · exact .inl ⟨_, [.hold _ _, .hold _ _], rfl, rfl, rfl⟩
  | gap =>
    simp only [Inst.perform, Inst.doGap]
    split
    · exact .inl ⟨_, [], rfl, rfl, rfl⟩
    · exact .inl ⟨_, [.wait _], rfl, rfl, rfl⟩
  | addrByte =>
    simp only [Inst.perform, Inst.doAddrByte]
    split
    next haddr => exact .inl ⟨_, [], rfl, rfl, if_pos haddr⟩
    next haddr => exact .inl (Inst.expands_gappedBytes rfl rfl (if_neg haddr))
  | payload =>
    simp only [Inst.perform, Inst.doPayload]
    split
    next more =>
      refine .inl ⟨_, [.gap, .payloadByte, .payloadNext], rfl, htwo hm, (Inst.payloadFrom_of_lt more).trans ?_⟩
      exact congrArg (_ :: ·) (List.append_nil _).symm
    next all => exact .inl ⟨_, [], rfl, rfl, Inst.payloadFrom_of_le (Nat.le_of_not_lt all)⟩
  | checkAck =>
    simp only [Inst.perform, Inst.doCheckAck]
    split
    · exact .inl ⟨_, [], rfl, rfl, rfl⟩
    · exact .inr (Inst.epilogue_failing _ _ nofun)
  | lenFirst =>
    simp only [Inst.perform, Inst.doLenFirst]
    split
    · exact .inl ⟨_, [], rfl, rfl, rfl⟩
    · exact .inl ⟨_, [.gap, .recvByte .rxLen, .lenSecond _], rfl, rfl, rfl⟩
  | checkLen =>
    simp only [Inst.perform, Inst.doCheckLen]
    split
    · exact .inr (Inst.epilogue_failing _ _ nofun)
    · exact .inl ⟨_, [.rxPayload], rfl, hone hm, rfl⟩
  | rxPayload =>
    simp only [Inst.perform, Inst.doRxPayload]
    split
    · exact .inl ⟨_, [.gap, .recvByte .rxPayload, .rxStore], rfl, hone hm, rfl⟩
    · exact .inl ⟨_, [], rfl, rfl, rfl⟩

end

/-! ## What the operations after it are to send -/

/-- The operations that write `seq.len`, `seq.cursor` or BUF, or end the command (R125, R130). -/
def Micro.writesFrame : Micro → Bool
  | .beginSend => true
  | .payloadNext => true
  | .lenFirst => true
  | .lenSecond _ => true
  | .checkLen => true
  | .rxStore => true
  | _ => false

theorem Inst.raiseAt_continues (b : Inst) (site : Site) (c : Code) : b.Continues (b.raiseAt site c) := by
  cases site <;> exact ⟨⟨rfl, rfl⟩, rfl, rfl, rfl⟩

theorem Inst.pollTimeout_continues (b : Inst) (use : PollUse) : b.Continues (b.pollTimeout use) := by
  cases use <;> exact b.raiseAt_continues _ _

theorem Inst.doPollLoop_continues (b : Inst) (lv : Level) (bound : Nat) (use : PollUse) (k : List Micro) :
    b.Continues (b.doPollLoop lv bound use k) := by
  unfold Inst.doPollLoop
  split
  · cases use <;> exact ⟨⟨rfl, rfl⟩, rfl, rfl, rfl⟩
  · split
    · exact .trans (b := b.counted) ⟨⟨rfl, rfl⟩, rfl, rfl, rfl⟩ (b.counted.pollTimeout_continues use)
    · exact ⟨⟨rfl, rfl⟩, rfl, rfl, rfl⟩

/-- Every other operation leaves the frame's operands and its place in the payload alone. -/
theorem Inst.perform_continues {b : Inst} {m : Micro} {k : List Micro} (hm : m.writesFrame = false) : b.Continues (b.perform m k) := by
  cases m with
  | beginSend | payloadNext | lenFirst | lenSecond | checkLen | rxStore => exact absurd hm.symm Bool.false_ne_true
  | pollLoop lv bound use => exact b.doPollLoop_continues lv bound use k
  | arbLoop =>
    simp only [Inst.perform, Inst.doArbLoop]
    split
    · exact ⟨⟨rfl, rfl⟩, rfl, rfl, rfl⟩
    · split <;> exact ⟨⟨rfl, rfl⟩, rfl, rfl, rfl⟩
  | sendBit | sendBitsLoop | recvBitsLoop | arbConfirm | startCondition | gap | addrByte | payload | checkAck | rxPayload =>
    simp only [Inst.perform, Inst.doSendBit, Inst.doSendBitsLoop, Inst.doRecvBitsLoop, Inst.doArbConfirm, Inst.doStartCondition,
      Inst.doGap, Inst.doAddrByte, Inst.doPayload, Inst.doCheckAck, Inst.doRxPayload]
    split <;> exact ⟨⟨rfl, rfl⟩, rfl, rfl, rfl⟩
  | _ => exact ⟨⟨rfl, rfl⟩, rfl, rfl, rfl⟩

/-- No operation writes `seq.addr` (R161). -/
theorem Inst.perform_addr (b : Inst) (m : Micro) (k : List Micro) : (b.perform m k).seq.addr = b.seq.addr := by
  cases hm : m.writesFrame with
  | false => exact (Inst.perform_continues hm).addr
  | true =>
    cases m with
    | beginSend | payloadNext | lenSecond | rxStore => rfl
    | lenFirst | checkLen =>
      simp only [Inst.perform, Inst.doLenFirst, Inst.doCheckLen]
      split <;> rfl
    | _ => exact absurd hm Bool.false_ne_true

/-- What an operation is to send depends on the address, on the length if it sends that, and on the place in the payload if it is of a
payload loop. -/
theorem Inst.owedBy_congr {b c : Inst} {m : Micro} (cfg : c.cfg = b.cfg) (addr : c.seq.addr = b.seq.addr)
    (len : m = .sendLength → c.seq.len = b.seq.len)
    (loop : m.inLoop = true → c.seq.len = b.seq.len ∧ c.seq.cursor = b.seq.cursor ∧ c.readBuf = b.readBuf) :
    c.owedBy m = b.owedBy m := by
  cases m with
  | addrByte => rw [Inst.owedBy, addr, Inst.owedBy]
  | sendLength => rw [Inst.owedBy, cfg, len rfl, Inst.owedBy]
  | readRequest => rw [Inst.owedBy, cfg, Inst.owedBy]
  | payload | payloadByte | payloadNext =>
    obtain ⟨hlen, hcursor, hbuf⟩ := loop rfl
    simp only [Inst.owedBy, Inst.payloadFrom, hlen, hcursor, hbuf]
  | _ => rfl

section
variable {b : Inst} {op : SeqOp} {loops : Bool} {g : Known} {m : Micro} {k : List Micro}

/-- After an operation that writes the frame's length or its place in the payload no operation of a payload loop is pending, and in
SEND_FRAME it is the end of a pass of that loop, which writes no length (R125, R130). -/
theorem todoOk_writesFrame (h : todoOk op g (m :: k) = true) (hw : m.writesFrame = true) (hm : m.fits op loops = true) :
    k.any Micro.inLoop = false ∧ (m = .payloadNext ∨ op = .recvFrame) := by
  cases m with
  | beginSend => exact absurd hm Bool.false_ne_true
  | payloadNext | lenFirst | lenSecond | checkLen | rxStore =>
    simp only [todoOk, Bool.and_eq_true, Bool.not_eq_true', beq_iff_eq] at h
    simp [h]
  | _ => exact absurd hw Bool.false_ne_true

/-- Only the store of a received byte changes a byte of BUF (R57). -/
theorem Inst.perform_readBuf (hm : m ≠ .rxStore) : (b.perform m k).readBuf = b.readBuf := by
  have hsame := b.perform_sameOutside m k
  funext j
  rw [Inst.readBuf, Inst.readBuf, b.perform_buf k hm, hsame.num, hsame.resets]

/-- An operation of a frame that has not failed leaves what the operations after it are to send. -/
theorem Inst.owed_perform {rest : List Micro} (h : todoOk op (b.known op) (m :: (k ++ rest)) = true)
    (hm : m.fits op loops = true) (hk : k.all (Micro.fits op loops) = true) : (b.perform m (k ++ rest)).owed k = b.owed k := by
  have hcfg := (b.perform_sameOutside m (k ++ rest)).cfg
  have haddr := b.perform_addr m (k ++ rest)
  rw [Inst.owed, Inst.owed, List.flatMap_def, List.flatMap_def]
  refine congrArg List.flatten (List.map_congr_left fun x hx => ?_)
  cases hw : m.writesFrame with
  | false =>
    have hcontinues := Inst.perform_continues (b := b) (k := k ++ rest) hw
    have hbuf : (b.perform m (k ++ rest)).readBuf = b.readBuf := Inst.perform_readBuf (by rintro rfl; cases hw)
    exact Inst.owedBy_congr hcfg haddr (fun _ => hcontinues.len) fun _ => ⟨hcontinues.len, hcontinues.cursor, hbuf⟩
  | true =>
    obtain ⟨hloop, hop⟩ := todoOk_writesFrame h hw hm
    refine Inst.owedBy_congr hcfg haddr (fun hlen => ?_)
      fun hin => absurd hin (List.any_eq_false.mp hloop x (List.mem_append_left rest hx))
    rcases hop with rfl | rfl
    · rfl
    · have hx : x.fits .recvFrame loops = true := List.all_eq_true.mp hk x hx
      rw [hlen] at hx
      exact absurd hx Bool.false_ne_true

end

/-! ## The bytes sent, and those still to be sent -/

/-- The operation that ends a frame that has not failed (R125, R130, R134). -/
def okEnd : List Micro := [.epilogue .ok .none]

/-- How far a frame command `op` has come that sends the bytes `total`, and has sent `sent`: launched and still to begin (R125), under
way, ending with its result built (R134), or ended. -/
inductive Inst.Sending (op : SeqOp) (total : List Byte) (c : Inst) (sent : List Byte) : Prop where
  | launched (w : Nat) (k : List Micro) (hop : c.seq.op = some op) (phase : c.seq.phase = .run w (.beginSend :: k ++ okEnd))
      (fits : k.all (Micro.fits op true) = true) (bytes : sent ++ (c.atCursor 0).owed k = total)
  | running (w : Nat) (k : List Micro) (hop : c.seq.op = some op) (phase : c.seq.phase = .run w (k ++ okEnd))
      (fits : k.all (Micro.fits op true) = true) (bytes : sent ++ c.owed k = total)
  | ending (h : c.Ending) (bytes : sent <+: total) (ok : c.seq.code = .ok → sent = total)
  | ended (idle : c.seq.phase = .idle) (bytes : sent <+: total) (ok : c.status.code = .ok → sent = total)

section
variable {op : SeqOp} {total sent : List Byte} {c : Inst}

theorem Inst.sendingByte_of_due {m : Micro} {k : List Micro} (h : c.due = some (m, k)) : c.sendingByte = m.byte := by
  rw [Inst.sendingByte, h]
  cases m <;> rfl

theorem Inst.sendingByte_of_rest (h : c.due = none) : c.sendingByte = [] := by
  rw [Inst.sendingByte, h]

/-- The byte that an operation starts is the first that it is to send. -/
theorem Micro.byte_prefix_owedBy (m : Micro) (c : Inst) : m.byte <+: c.owedBy m := by
  cases m with
  | sendByte v site => exact List.prefix_refl _
  | _ => exact List.nil_prefix

/-- An operation of a frame under way. -/
theorem Inst.Sending.perform_of_fits {m : Micro} {k : List Micro} (inv : c.Inv) (hop : c.seq.op = some op)
    (hdue : c.due = some (m, k ++ okEnd)) (hm : m.fits op true = true) (hk : k.all (Micro.fits op true) = true)
    (bytes : sent ++ c.owed (m :: k) = total) : (c.perform m (k ++ okEnd)).Sending op total (sent ++ m.byte) := by
  obtain ⟨-, op', hop', htodo⟩ := inv.todoOk_of_due hdue
  cases hop.symm.trans hop'
  rw [Inst.owed_cons] at bytes
  have hkept : (c.perform m (k ++ okEnd)).seq.op = c.seq.op :=
    (Inst.perform_running htodo (by rintro rfl; cases hm) inv.cursor_le inv.bit_le).op
  rcases Inst.perform_expands (b := c) (k := k ++ okEnd) hm with ⟨w, pre, hphase, hpre, hbyte⟩ | ⟨hending, hcode⟩
  · refine .running w (pre ++ k) (hkept.trans hop) (hphase.trans (by rw [List.append_assoc])) ?fits ?bytes
    case fits => rw [List.all_append, hpre, hk, Bool.and_true]
    case bytes =>
      rw [Inst.owed_append, Inst.owed_perform htodo hm hk, ← bytes, hbyte]
      simp only [List.append_assoc]
  · refine .ending hending ?_ fun hok => absurd hok hcode
    rw [← bytes]
    exact (List.prefix_append_right_inj sent).mpr ((m.byte_prefix_owedBy c).trans (List.prefix_append _ _))

/-- A move of a frame command. -/
theorem Inst.Sending.auto (h : c.Sending op total sent) (inv : c.Inv) : c.auto.Sending op total (sent ++ c.sendingByte) := by
  cases hdue : c.due with
  | none =>
    rw [Inst.auto_tick hdue, Inst.sendingByte_of_rest hdue, List.append_nil]
    cases h with
    | launched w k hop phase fits bytes => exact .launched w k hop phase fits bytes
    | running w k hop phase fits bytes => exact .running w k hop phase fits bytes
    | ending h bytes ok => exact .ending h bytes ok
    | ended idle bytes ok => exact .ended idle bytes ok
  | some next =>
    obtain ⟨m, todo⟩ := next
    rw [Inst.auto_due hdue, Inst.sendingByte_of_due hdue]
    obtain ⟨v, hphase, -⟩ := Inst.due_eq_some.mp hdue
    cases h with
    | launched w k hop phase fits bytes =>
      cases hphase.symm.trans phase
      exact .running _ k hop rfl fits (by rw [← bytes]; exact congrArg (· ++ _) (List.append_nil sent))
    | running w k hop phase fits bytes =>
      cases k with
      | nil =>
        cases hphase.symm.trans phase
        have hall : sent ++ [] = total := bytes
        exact .ending (c.epilogue_ending .ok .none) (hall ▸ List.prefix_refl _) fun _ => hall
      | cons x k =>
        cases hphase.symm.trans phase
        obtain ⟨hx, hk⟩ := (Bool.and_eq_true _ _).mp fits
        exact Inst.Sending.perform_of_fits inv hop hdue hx hk bytes
    | ending h bytes ok =>
      obtain ⟨w, todo', phase, rfl | ⟨d, rfl⟩⟩ := h <;> cases hphase.symm.trans phase
      · rw [show sent ++ Micro.complete.byte = sent from List.append_nil sent]
        exact .ended rfl bytes ok
      · rw [show sent ++ (Micro.wait d).byte = sent from List.append_nil sent]
        exact .ending ⟨_, _, rfl, .inl rfl⟩ bytes ok
    | ended idle bytes ok => exact absurd (hphase.symm.trans idle) nofun

theorem Inst.Sending.moves (h : c.Sending op total []) (inv : c.Inv) (n : Nat) : (c.moves n).Sending op total (c.sentBytes n) := by
  induction n with
  | zero => exact h
  | succ n ih =>
    rw [Inst.moves_succ_last]
    exact ih.auto (Inst.moves_inv n inv)

theorem Inst.Sending.sent_isPrefix (h : c.Sending op total sent) : sent <+: total := by
  cases h with
  | launched w k hop phase fits bytes => exact ⟨_, bytes⟩
  | running w k hop phase fits bytes => exact ⟨_, bytes⟩
  | ending h bytes ok => exact bytes
  | ended idle bytes ok => exact bytes

/-- When the command has completed with Ok, all the bytes have been sent. -/
theorem Inst.Sending.all_of_ok (h : c.Sending op total sent) (inv : c.Inv) (free : c.status.busy = false)
    (hok : c.status.code = .ok) : sent = total := by
  obtain ⟨idle, -⟩ := inv.idle free
  cases h with
  | launched w k hop phase fits bytes => exact absurd (phase.symm.trans idle) nofun
  | running w k hop phase fits bytes => exact absurd (phase.symm.trans idle) nofun
  | ending h bytes ok =>
    obtain ⟨w, todo, phase, -⟩ := h
    exact absurd (phase.symm.trans idle) nofun
  | ended idle bytes ok => exact ok hok

end

/-! ## SEND_FRAME -/

/-- What is sent for a length that two bytes carry, as numbers (R77). -/
theorem lenBytes_eq_prefixBytes (w : LenWidth) {l : Half} (h : l.toNat ≤ 2047) : lenBytes w l = prefixBytes w l.toNat := by
  cases w with
  | one => exact lenBytes_one l
  | two =>
    have hhigh : l.toNat / 256 % 8 = l.toNat / 256 := by omega
    have hlow : BitVec.ofNat 8 (l.toNat % 256) = BitVec.ofNat 8 l.toNat := BitVec.eq_of_toNat_eq (by simp)
    rw [lenBytes_two, prefixBytes, hhigh, hlow]

theorem lmaxTx_le (c : Params) : lmaxTx c ≤ 2047 := by
  have hprefix : lmaxPrefix c.lenWidth ≤ 2047 := by cases c.lenWidth <;> decide
  exact Nat.le_trans (Nat.min_le_right _ _) hprefix

/-- The pending operations of a launched SEND_FRAME are to send its bytes (R79, R125). -/
theorem Inst.launch_sendFrame_sending {b : Inst} (p : Profile) (len : b.txLen.toNat ≤ lmaxTx b.cfg) :
    (b.cleared.launch .sendFrame p sendFrameSteps).Sending .sendFrame (sendFrameBytes b) [] := by
  refine .launched (b.now + 1) [.arbitrate, .startCondition, .addrByte, .sendLength, .payload, .gap, .recvByte .sendAck, .checkAck]
    rfl rfl rfl ?_
  rw [sendFrameBytes, ← lenBytes_eq_prefixBytes _ (Nat.le_trans len (lmaxTx_le b.cfg)), List.range_eq_range', List.append_assoc]
  exact congrArg (fun payload => addressByte b ++ (lenBytes b.cfg.lenWidth b.txLen ++ payload)) (List.append_nil _)

/-- Settles O57: the bytes sent and those still to be sent make up all of them, along the run (`Inst.Sending`). -/
theorem sendFrameSendsItsBytesInOrder : Obligations.SendFrameSendsItsBytesInOrder := by
  unfold Obligations.SendFrameSendsItsBytesInOrder
  intro p s t inv free on len hexec n
  have hlaunch : s.inst.cleared.runCommand (.sendFrame p) = s.inst.cleared.launch .sendFrame p sendFrameSteps := by
    rw [Inst.runCommand, Inst.whenEnabled_on (b := s.inst.cleared) _ on]
    exact if_neg (Nat.not_lt.mpr len)
  have hinv := Inst.runCommand_cleared_inv inv free (.sendFrame p)
  cases (exec_of_free (.sendFrame p) free).symm.trans hexec
  rw [hlaunch] at hinv
  simp only [hlaunch]
  have hsending := (Inst.launch_sendFrame_sending p len).moves hinv n
  exact ⟨hsending.sent_isPrefix, hsending.all_of_ok (Inst.moves_inv n hinv)⟩

end Sys2Proof.Machine
end

section
/-! PROOFS. RECV_FRAME sends the address and the read request, and stores the payload that it receives (O58). -/

namespace Sys2Proof.Machine

/-! ## The payload bytes stored so far -/

/-- How far a RECV_FRAME has come that has stored the payload bytes `stored`: it does not know the length yet, or it is in its payload
loop, whose operation `m` is pending, or it has received all, or it is ending with its result built, or it has ended (R130, R133). -/
inductive Inst.StoringStage (c : Inst) (stored : List Byte) : Prop where
  | before (w : Nat) (k : List Micro) (hop : c.seq.op = some .recvFrame) (phase : c.seq.phase = .run w (k ++ .checkLen :: okEnd))
      (fits : k.all (Micro.fits .recvFrame false) = true) (count : stored = [])
  | loop (w : Nat) (k : List Micro) (m : Micro) (hop : c.seq.op = some .recvFrame) (hm : m = .rxPayload ∨ m = .rxStore)
      (phase : c.seq.phase = .run w (k ++ m :: okEnd)) (fits : k.all (Micro.fits .recvFrame false) = true)
      (count : stored.length = c.seq.cursor) (le : c.seq.cursor ≤ c.seq.len.toNat)
  | received (w : Nat) (hop : c.seq.op = some .recvFrame) (phase : c.seq.phase = .run w okEnd)
      (count : stored.length = c.seq.len.toNat)
  | ending (hop : c.seq.op = some .recvFrame) (h : c.Ending) (ok : c.seq.code = .ok → stored.length = c.seq.len.toNat)
  | ended (idle : c.seq.phase = .idle) (rxLen : c.rxLen.toNat = if c.status.code = .ok then stored.length else 0)

/-- A RECV_FRAME that found the bytes `found` in BUF and has stored the bytes `stored`: these are BUF[0], BUF[1] and so on, within BUF,
and every other byte is as it was (R133). -/
structure Inst.Storing (found : Nat → Byte) (c : Inst) (stored : List Byte) : Prop where
  stage : c.StoringStage stored
  inside : stored.length ≤ c.cfg.maxFrame
  buf : ∀ j, c.readBuf j = (stored[j]?).getD (found j)

section
variable {c : Inst} {stored : List Byte} {m : Micro} {k : List Micro}

theorem Inst.storingByte_of_due (h : c.due = some (m, k)) (hm : m ≠ .rxStore) : c.storingByte = [] := by
  rw [Inst.storingByte, h]
  cases m with
  | rxStore => exact absurd rfl hm
  | _ => rfl

/-- A frame command's operation but the last keeps the command. -/
theorem Inst.Inv.perform_op_of_fits {loops : Bool} {op : SeqOp} (inv : c.Inv) (hdue : c.due = some (m, k))
    (hm : m.fits op loops = true) : (c.perform m k).seq.op = c.seq.op := by
  obtain ⟨-, op, -, htodo⟩ := inv.todoOk_of_due hdue
  exact (Inst.perform_running htodo (by rintro rfl; cases hm) inv.cursor_le inv.bit_le).op

/-- In a payload loop no operation before the loop's own writes the frame's length or its place in the payload. -/
theorem Inst.Inv.writesFrame_of_loop {x : Micro} {rest : List Micro} {loops : Bool} (inv : c.Inv)
    (hdue : c.due = some (x, k ++ m :: rest)) (hx : x.fits .recvFrame loops = true) (hop : c.seq.op = some .recvFrame)
    (hm : m.inLoop = true) : x.writesFrame = false := by
  obtain ⟨-, op, hop', htodo⟩ := inv.todoOk_of_due hdue
  cases hop.symm.trans hop'
  refine Bool.eq_false_iff.mpr fun hw => ?_
  obtain ⟨hloop, -⟩ := todoOk_writesFrame htodo hw hx
  exact absurd hm (List.any_eq_false.mp hloop m (by simp))

/-- An operation before the length is known, or inside a byte of the payload loop. -/
theorem Inst.StoringStage.perform_before {x : Micro} (inv : c.Inv) (hop : c.seq.op = some .recvFrame)
    (hdue : c.due = some (x, k ++ .checkLen :: okEnd)) (hx : x.fits .recvFrame false = true)
    (hk : k.all (Micro.fits .recvFrame false) = true) (count : stored = []) :
    (c.perform x (k ++ .checkLen :: okEnd)).StoringStage stored := by
  have hkept := (inv.perform_op_of_fits hdue hx).trans hop
  rcases Inst.perform_expands (b := c) (k := k ++ .checkLen :: okEnd) hx with ⟨w, pre, hphase, hpre, -⟩ | ⟨hending, hcode⟩
  · exact .before w (pre ++ k) hkept (hphase.trans (by rw [List.append_assoc])) (by rw [List.all_append, hpre, hk]; rfl) count
  · exact .ending hkept hending fun hok => absurd hok hcode

theorem Inst.StoringStage.perform_loop {x : Micro} (inv : c.Inv) (hop : c.seq.op = some .recvFrame) (hm : m = .rxPayload ∨ m = .rxStore)
    (hdue : c.due = some (x, k ++ m :: okEnd)) (hx : x.fits .recvFrame false = true)
    (hk : k.all (Micro.fits .recvFrame false) = true) (count : stored.length = c.seq.cursor) (le : c.seq.cursor ≤ c.seq.len.toNat) :
    (c.perform x (k ++ m :: okEnd)).StoringStage stored := by
  have hkept := (inv.perform_op_of_fits hdue hx).trans hop
  have hw := inv.writesFrame_of_loop hdue hx hop (by rcases hm with rfl | rfl <;> rfl)
  have hcontinues := Inst.perform_continues (b := c) (k := k ++ m :: okEnd) hw
  rcases Inst.perform_expands (b := c) (k := k ++ m :: okEnd) hx with ⟨w, pre, hphase, hpre, -⟩ | ⟨hending, hcode⟩
  · refine .loop w (pre ++ k) m hkept hm (hphase.trans (by rw [List.append_assoc])) (by rw [List.all_append, hpre, hk]; rfl) ?_ ?_
    · rw [hcontinues.cursor, count]
    · rw [hcontinues.cursor, hcontinues.len]
      exact le
  · exact .ending hkept hending fun hok => absurd hok hcode

/-- The bound check ends the frame, or starts the payload loop at BUF[0] (R132). -/
theorem Inst.StoringStage.perform_checkLen (hop : c.seq.op = some .recvFrame) :
    (c.perform .checkLen okEnd).StoringStage [] := by
  simp only [Inst.perform, Inst.doCheckLen]
  split
  · exact .ending hop (c.epilogue_ending _ _) nofun
  · exact .loop _ [] .rxPayload hop (.inl rfl) rfl rfl rfl (Nat.zero_le _)

/-- The head of the payload loop (R130). -/
theorem Inst.StoringStage.perform_rxPayload (hop : c.seq.op = some .recvFrame) (count : stored.length = c.seq.cursor)
    (le : c.seq.cursor ≤ c.seq.len.toNat) : (c.perform .rxPayload okEnd).StoringStage stored := by
  simp only [Inst.perform, Inst.doRxPayload]
  split
  next more => exact .loop _ [.gap, .recvByte .rxPayload] .rxStore hop (.inr rfl) rfl rfl count le
  next all => exact .received _ hop rfl (count.trans (Nat.le_antisymm le (Nat.le_of_not_lt all)))

/-- The completion reports the length received where the result is Ok, and else 0 (R124, R133). -/
theorem Inst.StoringStage.complete (hop : c.seq.op = some .recvFrame) (ok : c.seq.code = .ok → stored.length = c.seq.len.toNat) :
    c.complete.StoringStage stored := by
  refine .ended rfl ?_
  rw [Inst.complete_rxLen, Inst.complete_status]
  by_cases hcode : c.seq.code = .ok
  · rw [if_pos ⟨hcode, hop⟩, if_pos hcode, ok hcode]
  · rw [if_neg fun h => hcode h.1, if_neg hcode]
    rfl

/-- A move that stores no byte. -/
theorem Inst.StoringStage.auto (h : c.StoringStage stored) (inv : c.Inv) (hstore : ∀ k, c.due ≠ some (.rxStore, k)) :
    c.auto.StoringStage stored := by
  cases hdue : c.due with
  | none =>
    rw [Inst.auto_tick hdue]
    cases h with
    | before w k hop phase fits count => exact .before w k hop phase fits count
    | loop w k m hop hm phase fits count le => exact .loop w k m hop hm phase fits count le
    | received w hop phase count => exact .received w hop phase count
    | ending hop h ok => exact .ending hop h ok
    | ended idle rxLen => exact .ended idle rxLen
  | some next =>
    obtain ⟨x, todo⟩ := next
    rw [Inst.auto_due hdue]
    obtain ⟨v, hphase, -⟩ := Inst.due_eq_some.mp hdue
    cases h with
    | before w k hop phase fits count =>
      cases k with
      | nil =>
        cases hphase.symm.trans phase
        exact count ▸ Inst.StoringStage.perform_checkLen hop
      | cons y k =>
        cases hphase.symm.trans phase
        obtain ⟨hy, hk⟩ := (Bool.and_eq_true _ _).mp fits
        exact Inst.StoringStage.perform_before inv hop hdue hy hk count
    | loop w k m hop hm phase fits count le =>
      cases k with
      | nil =>
        cases hphase.symm.trans phase
        rcases hm with rfl | rfl
        · exact Inst.StoringStage.perform_rxPayload hop count le
        · exact absurd hdue (hstore _)
      | cons y k =>
        cases hphase.symm.trans phase
        obtain ⟨hy, hk⟩ := (Bool.and_eq_true _ _).mp fits
        exact Inst.StoringStage.perform_loop inv hop hm hdue hy hk count le
    | received w hop phase count =>
      cases hphase.symm.trans phase
      exact .ending hop (c.epilogue_ending .ok .none) fun _ => count
    | ending hop h ok =>
      obtain ⟨w, todo', phase, rfl | ⟨d, rfl⟩⟩ := h <;> cases hphase.symm.trans phase
      · exact Inst.StoringStage.complete hop ok
      · exact .ending hop ⟨_, _, rfl, .inl rfl⟩ ok
    | ended idle rxLen => exact absurd (hphase.symm.trans idle) nofun

/-- A byte is stored only in the payload loop, at the end of one of its passes (R130). -/
theorem Inst.StoringStage.of_rxStore_due (h : c.StoringStage stored) (hdue : c.due = some (.rxStore, k)) :
    k = okEnd ∧ c.seq.op = some .recvFrame ∧ stored.length = c.seq.cursor := by
  obtain ⟨v, hphase, -⟩ := Inst.due_eq_some.mp hdue
  cases h with
  | before w k hop phase fits count =>
    cases k with
    | nil => cases hphase.symm.trans phase
    | cons x k =>
      cases hphase.symm.trans phase
      exact absurd fits Bool.false_ne_true
  | loop w k m hop hm phase fits count le =>
    cases k with
    | nil =>
      cases hphase.symm.trans phase
      exact ⟨rfl, hop, count⟩
    | cons x k =>
      cases hphase.symm.trans phase
      exact absurd fits Bool.false_ne_true
  | received w hop phase count => cases hphase.symm.trans phase
  | ending hop h ok => obtain ⟨w, todo, phase, rfl | ⟨d, rfl⟩⟩ := h <;> cases hphase.symm.trans phase
  | ended idle rxLen => exact absurd (hphase.symm.trans idle) nofun

/-- Where a byte is stored, the payload has a byte to come and fits BUF (R132). -/
theorem Inst.Inv.cursor_lt_of_rxStore_due (inv : c.Inv) (hdue : c.due = some (.rxStore, k)) :
    c.seq.cursor < c.seq.len.toNat ∧ c.seq.cursor < c.cfg.maxFrame := by
  obtain ⟨-, op, -, htodo⟩ := inv.todoOk_of_due hdue
  simp only [todoOk, Inst.known, Bool.and_eq_true, decide_eq_true_iff] at htodo
  obtain ⟨⟨⟨⟨⟨-, hpass⟩, hfits⟩, -⟩, -⟩, -⟩ := htodo
  exact ⟨hpass, Nat.lt_of_lt_of_le hpass hfits⟩

variable {found : Nat → Byte}

/-- The move that stores a byte. -/
theorem Inst.Storing.perform_rxStore (h : c.Storing found stored) (inv : c.Inv) (hdue : c.due = some (.rxStore, k)) :
    (c.perform .rxStore k).Storing found (stored ++ [c.seq.shift]) := by
  obtain ⟨rfl, hop, count⟩ := h.stage.of_rxStore_due hdue
  obtain ⟨hpass, hinside⟩ := inv.cursor_lt_of_rxStore_due hdue
  have hlen : (stored ++ [c.seq.shift]).length = c.seq.cursor + 1 := by rw [List.length_append, count]; rfl
  refine ⟨.loop _ [] .rxPayload hop (.inl rfl) rfl rfl hlen hpass, ?inside, fun j => ?buf⟩
  case inside =>
    rw [hlen, (c.perform_sameOutside .rxStore okEnd).cfg]
    exact hinside
  case buf =>
    obtain ⟨m, hperform, -, hread⟩ := receivedPayloadByteIsStored c okEnd inv.buf_wf hinside
    rw [hperform]
    refine (hread j).trans ?_
    rw [← count, h.buf]
    rcases Nat.lt_trichotomy j stored.length with hlt | rfl | hgt
    · rw [if_neg (Nat.ne_of_lt hlt), List.getElem?_append_left hlt]
    · rw [if_pos rfl, List.getElem?_concat_length]
      rfl
    · rw [if_neg (Nat.ne_of_gt hgt), List.getElem?_eq_none (Nat.le_of_lt hgt), List.getElem?_eq_none (by rw [hlen, ← count]; exact hgt)]

/-- A move of a RECV_FRAME. -/
theorem Inst.Storing.auto (h : c.Storing found stored) (inv : c.Inv) : c.auto.Storing found (stored ++ c.storingByte) := by
  by_cases hstore : ∃ k, c.due = some (.rxStore, k)
  · obtain ⟨k, hdue⟩ := hstore
    have hbyte : c.storingByte = [c.seq.shift] := by rw [Inst.storingByte, hdue]
    rw [Inst.auto_due hdue, hbyte]
    exact h.perform_rxStore inv hdue
  · have hstage := h.stage.auto inv (not_exists.mp hstore)
    cases hdue : c.due with
    | none =>
      have hbyte : c.storingByte = [] := by rw [Inst.storingByte, hdue]
      rw [Inst.auto_tick hdue] at hstage ⊢
      rw [hbyte, List.append_nil]
      exact ⟨hstage, h.inside, h.buf⟩
    | some next =>
      obtain ⟨m, k⟩ := next
      have hm : m ≠ .rxStore := by
        rintro rfl
        exact hstore ⟨k, hdue⟩
      rw [Inst.auto_due hdue] at hstage ⊢
      rw [Inst.storingByte_of_due hdue hm, List.append_nil]
      refine ⟨hstage, (c.perform_sameOutside m k).cfg ▸ h.inside, ?_⟩
      rw [Inst.perform_readBuf hm]
      exact h.buf

theorem Inst.Storing.moves (h : c.Storing found []) (inv : c.Inv) (n : Nat) : (c.moves n).Storing found (c.storedBytes n) := by
  induction n with
  | zero => exact h
  | succ n ih =>
    rw [Inst.moves_succ_last]
    exact ih.auto (Inst.moves_inv n inv)

/-- When the command has completed, RXLEN is the number of bytes stored or, after a failure, 0 (R124, R133). -/
theorem Inst.Storing.rxLen_of_free (h : c.Storing found stored) (inv : c.Inv) (free : c.status.busy = false) :
    c.rxLen.toNat = if c.status.code = .ok then stored.length else 0 := by
  obtain ⟨idle, -⟩ := inv.idle free
  cases h.stage with
  | before w k hop phase fits count => exact absurd (phase.symm.trans idle) (by cases k <;> nofun)
  | loop w k m hop hm phase fits count le => exact absurd (phase.symm.trans idle) nofun
  | received w hop phase count => exact absurd (phase.symm.trans idle) nofun
  | ending hop h ok =>
    obtain ⟨w, todo, phase, -⟩ := h
    exact absurd (phase.symm.trans idle) nofun
  | ended idle rxLen => exact rxLen

end

/-! ## RECV_FRAME -/

/-- The pending operations of a launched RECV_FRAME are to send the address and the read request (R80, R130). -/
theorem Inst.launch_recvFrame_sending (b : Inst) (p : Profile) :
    (b.cleared.launch .recvFrame p recvFrameSteps).Sending .recvFrame (recvFrameBytes b) [] := by
  refine .running (b.now + 1) [.beginRecv, .arbitrate, .startCondition, .addrByte, .readRequest, .gap, .recvByte .recvAck, .checkAck,
    .gap, .recvByte .rxLen, .lenFirst, .checkLen] rfl rfl rfl ?_
  have hrequest : prefixBytes b.cfg.lenWidth 0 = requestBytes b.cfg.lenWidth :=
    (lenBytes_eq_prefixBytes b.cfg.lenWidth (l := 0#16) (Nat.zero_le _)).symm.trans (lenBytes_zero _)
  rw [recvFrameBytes, hrequest]
  exact congrArg (addressByte b ++ ·) (List.append_nil _)

theorem Inst.launch_recvFrame_storing (b : Inst) (p : Profile) :
    (b.cleared.launch .recvFrame p recvFrameSteps).Storing b.readBuf [] where
  stage := .before (b.now + 1) [.beginRecv, .arbitrate, .startCondition, .addrByte, .readRequest, .gap, .recvByte .recvAck, .checkAck,
    .gap, .recvByte .rxLen, .lenFirst] rfl rfl rfl rfl
  inside := Nat.zero_le _
  buf _ := rfl

/-- Settles O58: `Inst.Sending` for the bytes sent and `Inst.Storing` for those received, along the run. -/
theorem recvFrameStoresWhatItReceives : Obligations.RecvFrameStoresWhatItReceives := by
  unfold Obligations.RecvFrameStoresWhatItReceives
  intro p s t inv free on hexec n
  have hlaunch : s.inst.cleared.runCommand (.recvFrame p) = s.inst.cleared.launch .recvFrame p recvFrameSteps :=
    Inst.whenEnabled_on (b := s.inst.cleared) (fun b => b.launch .recvFrame p recvFrameSteps) on
  have hinv := Inst.runCommand_cleared_inv inv free (.recvFrame p)
  cases (exec_of_free (.recvFrame p) free).symm.trans hexec
  rw [hlaunch] at hinv
  simp only [hlaunch]
  have hinvn := Inst.moves_inv n hinv
  have hsending := (s.inst.launch_recvFrame_sending p).moves hinv n
  have hstoring := (s.inst.launch_recvFrame_storing p).moves hinv n
  have hinside := hstoring.inside
  rw [Inst.moves_cfg] at hinside
  exact ⟨hsending.sent_isPrefix, hsending.all_of_ok hinvn, hinside, hstoring.buf, hstoring.rxLen_of_free hinvn⟩

end Sys2Proof.Machine
end
